-- ==== Sys2Proof/Word.lean ====
section
/-! DEFINITION. The word types of the unit: a keystream or pixel byte, a bus word, a binary64 bit pattern. -/

namespace Sys2Proof

/-- A pixel or keystream element (u8), and one byte of the address space (00_scope.md R11). -/
abbrev Byte := BitVec 8

/-- A register, a bus data word, a command word, an index table element (u32). -/
abbrev Word := BitVec 32

/-- A binary64 value, held as its bit pattern (00_scope.md R13: f64_of_bits and bits_of_f64 lose nothing). -/
abbrev F64 := BitVec 64

end Sys2Proof
end

