-- ==== Sys2Proof/Config.lean ====
section
/-! DEFINITION. What an implementation of the unit fixes (its parameters), and the free values: what the spec leaves
open, as constants without a body, so that nothing can be proved of their values. -/

namespace Sys2Proof

/-- The parameters a host can read back: N_MAX (00_scope.md R5) and BLEND_ADD (R6). A machine's State carries them
(they are what the registers NMAX and CAPS read) and no step changes them (log 3). -/
structure Build where
  /-- N_MAX, the largest pixel count, 1 ≤ N_MAX ≤ 2^22 (00_scope.md R5). -/
  nMax : Nat
  /-- BLEND_ADD, whether MASK.ADD and MASK.SUB are implemented (00_scope.md R6). -/
  blendAdd : Bool
deriving DecidableEq, Repr

namespace Config

/-- The reference build: N_MAX = 2^20 (00_scope.md R5) and BLEND_ADD at its default, false (R6). DESIGN CHOICE, log 3:
unsafe for a statement about State.reset that leans on 2^20, safe for one about every state. -/
def referenceBuild : Build := { nMax := 1048576, blendAdd := false }

/-- The byte at an offset that nothing has written since power-on (10_state.md R44: unspecified, the same until
written). A free value, log 4, safe. -/
opaque powerOn : Nat → Byte

/-- LATENCY (00_scope.md R8, 30_encoding.md R103) of the command accepted when `draws` free values had been drawn: how
many host events the unit lets pass before it completes. A free value, log 2, safe. -/
opaque latency : Nat → Nat

/-- The byte left at an offset that an abandoned command could write, by the hardware reset that abandoned it
(70_reset_and_hazards.md R272), the first argument counting the draws. A free value, log 6, safe. -/
opaque scrap : Nat → Nat → Byte

/-- Sign and payload of the NaN that an operation on two patterns gives: IEEE-754 leaves them open, and no command
reaches a NaN (40_keystream.md R124). A free value, log 10, safe. -/
opaque nanBits : F64 → F64 → BitVec 52

/-- The quantisation of an iterate whose product with 256 is not finite: never needed (40_keystream.md R122). A free
value, log 10, safe. -/
opaque quantNonFinite : F64 → Byte

end Config

end Sys2Proof
end

