-- ==== Sys2Proof/Machine/Binary64.lean ====
section
/-! DEFINITION. IEEE-754 binary64 as 00_scope.md R13 and 40_keystream.md R120 ask for it: multiplication, subtraction
and comparison on bit patterns, exact in integers, then rounded once, to nearest with ties to even, with gradual
underflow. The layout of the pattern and the signs of zero results are IEEE-754's own (log 16).

Magnitudes are counted in units of 2^-1074, the least subnormal, so that every finite value is an integer. -/

namespace Sys2Proof.Machine

/-- The sign bit. -/
def f64Sign (a : F64) : Bool := a.getLsbD 63

/-- The biased exponent. -/
def f64Exp (a : F64) : Nat := (a.extractLsb' 52 11).toNat

/-- The fraction field. -/
def f64Frac (a : F64) : Nat := (a.extractLsb' 0 52).toNat

/-- Not a number. -/
def f64IsNaN (a : F64) : Bool := f64Exp a == 2047 && f64Frac a != 0

/-- An infinity. -/
def f64IsInf (a : F64) : Bool := f64Exp a == 2047 && f64Frac a == 0

/-- The magnitude of a finite value in units of 2^-1074. -/
def f64Mag (a : F64) : Nat :=
  if f64Exp a = 0 then f64Frac a else (2 ^ 52 + f64Frac a) * 2 ^ (f64Exp a - 1)

/-- real(a) in units of 2^-1074 (00_scope.md R13). -/
def f64Val (a : F64) : Int := if f64Sign a then - (f64Mag a : Int) else (f64Mag a : Int)

/-- A pattern from its sign and its lower 63 bits. -/
def f64Pack (sign : Bool) (low : Nat) : F64 := BitVec.ofBool sign ++ BitVec.ofNat 63 low

/-- The lower 63 bits of an infinity. -/
def f64InfBits : Nat := 2047 * 2 ^ 52

/-- a / 2^d rounded to the nearest integer, a tie to the even one (40_keystream.md R120). -/
def roundShift (a d : Nat) : Nat :=
  if 2 ^ d < 2 * (a % 2 ^ d) ∨ (2 * (a % 2 ^ d) = 2 ^ d ∧ (a / 2 ^ d) % 2 = 1) then a / 2 ^ d + 1
  else a / 2 ^ d

/-- The exponent of the last place kept of a magnitude whose integer part is `whole` (in units of 2^-1074): 53 bits are
kept, and nothing below the unit (gradual underflow, 40_keystream.md R120). -/
def keptPlace (whole : Nat) : Nat := Nat.log2 whole - 52

/-- The lower 63 bits of the magnitude a / 2^d, in units of 2^-1074, rounded to binary64. A subnormal is its own
fraction field; otherwise the exponent field counts the kept place up from 1 and the leading bit of the rounded
significand carries into it; too large a magnitude is an infinity. -/
def roundBits (a d : Nat) : Nat :=
  min (keptPlace (a / 2 ^ d) * 2 ^ 52 + roundShift a (d + keptPlace (a / 2 ^ d))) f64InfBits

/-- A quiet NaN; its sign and payload are free values (log 10). -/
def f64NaN (a b : F64) : F64 :=
  (Config.nanBits a b).extractLsb' 51 1 ++ 0xFFF#12 ++ (Config.nanBits a b).extractLsb' 0 51

/-- fmul (00_scope.md R13): the exact product, rounded once. -/
def fmul (a b : F64) : F64 :=
  if f64IsNaN a || f64IsNaN b then f64NaN a b
  else if f64IsInf a || f64IsInf b then
    if f64Mag a = 0 ∨ f64Mag b = 0 then f64NaN a b else f64Pack (f64Sign a != f64Sign b) f64InfBits
  else f64Pack (f64Sign a != f64Sign b) (roundBits (f64Mag a * f64Mag b) 1074)

/-- fsub (00_scope.md R13): the exact difference, rounded once. An exact zero difference is +0.0, but that of -0.0 and
+0.0 is -0.0. -/
def fsub (a b : F64) : F64 :=
  if f64IsNaN a || f64IsNaN b then f64NaN a b
  else if f64IsInf a then
    if f64IsInf b && f64Sign a == f64Sign b then f64NaN a b else f64Pack (f64Sign a) f64InfBits
  else if f64IsInf b then f64Pack (!f64Sign b) f64InfBits
  else if f64Val a = f64Val b then f64Pack (f64Mag a = 0 && f64Sign a && !f64Sign b) 0
  else f64Pack (decide (f64Val a < f64Val b)) (roundBits (f64Val a - f64Val b).natAbs 0)

/-- The lower 63 bits of a pattern, signed: IEEE-754 lays the fields out so that, away from NaN, this number orders
patterns as their values are ordered, and gives both zeros 0 (log 16). -/
def f64Key (a : F64) : Int :=
  if f64Sign a then - ((a.extractLsb' 0 63).toNat : Int) else ((a.extractLsb' 0 63).toNat : Int)

/-- fle (00_scope.md R13): false on NaN, and the zeros compare equal. -/
def fle (a b : F64) : Bool := !f64IsNaN a && !f64IsNaN b && decide (f64Key a ≤ f64Key b)

/-- feq (00_scope.md R13): false on NaN, and the zeros compare equal. -/
def feq (a b : F64) : Bool := !f64IsNaN a && !f64IsNaN b && decide (f64Key a = f64Key b)

/-- 0.0. -/
def f64Zero : F64 := 0x0000000000000000#64

/-- 1.0. -/
def f64One : F64 := 0x3FF0000000000000#64

/-- 256.0. -/
def f64Two56 : F64 := 0x4070000000000000#64

end Sys2Proof.Machine
end

