-- ==== Sys2Proof/Syntax.lean ====
section
/-! DEFINITION. The commands of the unit: one constructor per row of spec/opcode_table.json. -/

namespace Sys2Proof

/-- The index table of GATHER, field PSEL (30_encoding.md R92): PSEL = 0 is PERM, PSEL = 1 is PINV. -/
inductive TableSel where
  | perm
  | pinv
deriving DecidableEq, Repr

/-- The direction of GATHER and MASK, field DIR (30_encoding.md R92): DIR = 0 reads SRC and writes DST, DIR = 1 reads
DST and writes SRC. -/
inductive Dir where
  | s2d
  | d2s
deriving DecidableEq, Repr

/-- A command of the opcode map, 30_encoding.md R94. -/
inductive Instr where
  /-- NOP (44_control.md R210). -/
  | nop
  /-- GEN (40_keystream.md R128). -/
  | gen
  /-- DERIVE_PERM (41_permutation.md R142). -/
  | derivePerm
  /-- INVERT_PERM (41_permutation.md R144). -/
  | invertPerm
  /-- GATHER sel, dir (41_permutation.md R145). -/
  | gather (sel : TableSel) (dir : Dir)
  /-- MASK.XOR dir (42_masking.md R170). -/
  | maskXor (dir : Dir)
  /-- MASK.ADD dir (42_masking.md R171). -/
  | maskAdd (dir : Dir)
  /-- MASK.SUB dir (42_masking.md R172). -/
  | maskSub (dir : Dir)
  /-- ENCRYPT (43_cipher.md R190). -/
  | encrypt
  /-- DECRYPT (43_cipher.md R191). -/
  | decrypt
deriving DecidableEq, Repr

end Sys2Proof
end

