-- ==== Sys2Proof/Decode.lean ====
section
/-! DEFINITION. The decoder of 30_encoding.md R98, total on every 32-bit word, and the encoder of R94 and R105. -/

namespace Sys2Proof

/-- Why a word is no command (30_encoding.md R95, R96). The unit reports all of them as IllegalCommand
(60_exceptions.md R234); the name is for a reader. -/
inductive Illegal where
  /-- A bit of [31:8] is set. -/
  | reservedBits
  /-- OP is 0x8 to 0xF. -/
  | reservedOp
  /-- PSEL, DIR or BLEND is set where the opcode does not use it. -/
  | unusedField
  /-- BLEND is 0b11. -/
  | reservedBlend
  /-- MASK.ADD or MASK.SUB in a build without BLEND_ADD. -/
  | blendAbsent
  /-- Not four bytes: a command is one 4-byte write (30_encoding.md R97). -/
  | notFourBytes
deriving DecidableEq, Repr

/-- Field OP, bits 3:0 (30_encoding.md R90). -/
def fieldOp (w : Word) : BitVec 4 := w.extractLsb' 0 4

/-- Field PSEL, bit 4 (30_encoding.md R90). -/
def fieldPsel (w : Word) : Bool := w.getLsbD 4

/-- Field DIR, bit 5 (30_encoding.md R90). -/
def fieldDir (w : Word) : Bool := w.getLsbD 5

/-- Field BLEND, bits 7:6 (30_encoding.md R90). -/
def fieldBlend (w : Word) : BitVec 2 := w.extractLsb' 6 2

/-- The reserved field, bits 31:8 (30_encoding.md R90). -/
def fieldReserved (w : Word) : BitVec 24 := w.extractLsb' 8 24

/-- PSEL's meaning (30_encoding.md R92). -/
def tableOfPsel (psel : Bool) : TableSel := if psel then .pinv else .perm

/-- DIR's meaning (30_encoding.md R92). -/
def dirOfBit (dir : Bool) : Dir := if dir then .d2s else .s2d

/-- A command without operand fields: legal only when w[7:4] = 0 (30_encoding.md R98). -/
def plainCommand (w : Word) (i : Instr) : Except Illegal Instr :=
  if w.extractLsb' 4 4 = 0#4 then .ok i else .error .unusedField

/-- OP = 0x4 (30_encoding.md R98). -/
def decodeGather (w : Word) : Except Illegal Instr :=
  if fieldBlend w = 0#2 then .ok (.gather (tableOfPsel (fieldPsel w)) (dirOfBit (fieldDir w)))
  else .error .unusedField

/-- OP = 0x5 (30_encoding.md R98). -/
def decodeMask (blendAdd : Bool) (w : Word) : Except Illegal Instr :=
  if fieldPsel w then .error .unusedField
  else match (fieldBlend w).toNat with
    | 0 => .ok (.maskXor (dirOfBit (fieldDir w)))
    | 1 => if blendAdd then .ok (.maskAdd (dirOfBit (fieldDir w))) else .error .blendAbsent
    | 2 => if blendAdd then .ok (.maskSub (dirOfBit (fieldDir w))) else .error .blendAbsent
    | _ => .error .reservedBlend

/-- The decoder of 30_encoding.md R98 under the parameter BLEND_ADD. -/
def decode (blendAdd : Bool) (w : Word) : Except Illegal Instr :=
  if fieldReserved w = 0#24 then
    match (fieldOp w).toNat with
    | 0 => plainCommand w .nop
    | 1 => plainCommand w .gen
    | 2 => plainCommand w .derivePerm
    | 3 => plainCommand w .invertPerm
    | 4 => decodeGather w
    | 5 => decodeMask blendAdd w
    | 6 => plainCommand w .encrypt
    | 7 => plainCommand w .decrypt
    | _ => .error .reservedOp
  else .error .reservedBits

/-- The value of bytes stored least significant first (20_memory.md R63). -/
def leValue : List Byte → Nat
  | [] => 0
  | b :: bs => b.toNat + 256 * leValue bs

/-- The `n` low bytes of a value, least significant first (20_memory.md R63). -/
def leBytes : Nat → Nat → List Byte
  | 0, _ => []
  | n + 1, v => BitVec.ofNat 8 v :: leBytes n (v / 256)

/-- The decoder on the bytes of a CMD write in address order (20_memory.md R63): exactly four (30_encoding.md R97). -/
def decodeBytes (blendAdd : Bool) (bs : List Byte) : Except Illegal Instr :=
  if bs.length = 4 then decode blendAdd (BitVec.ofNat 32 (leValue bs)) else .error .notFourBytes

/-- Bit 4 of a GATHER word (30_encoding.md R105). -/
def pselBits : TableSel → Word
  | .perm => 0x00#32
  | .pinv => 0x10#32

/-- Bit 5 of a GATHER or MASK word (30_encoding.md R105). -/
def dirBits : Dir → Word
  | .s2d => 0x00#32
  | .d2s => 0x20#32

/-- The word of a command (30_encoding.md R94, R105). -/
def encode : Instr → Word
  | .nop => 0x00#32
  | .gen => 0x01#32
  | .derivePerm => 0x02#32
  | .invertPerm => 0x03#32
  | .gather sel dir => 0x04#32 ||| pselBits sel ||| dirBits dir
  | .maskXor dir => 0x05#32 ||| dirBits dir
  | .maskAdd dir => 0x45#32 ||| dirBits dir
  | .maskSub dir => 0x85#32 ||| dirBits dir
  | .encrypt => 0x06#32
  | .decrypt => 0x07#32

/-- The command the decoder reads from an opcode-table word of `nbits` bits, every bit above them 0: the four bytes of
the CMD write, least significant first, given to the decoder. The table's rows MASK.ADD and MASK.SUB exist in a build
with BLEND_ADD, so it decodes as such a build does (log 9). -/
def decodeTableWord (nbits w : Nat) : Option Instr :=
  if nbits ≤ 32 then
    match decodeBytes true (leBytes 4 (w % 2 ^ nbits)) with
    | .ok i => some i
    | .error _ => none
  else none

end Sys2Proof
end

