-- ==== Sys2Proof/Machine/State.lean ====
section
/-! DEFINITION. The state of the unit and of the host that drives it, as plain data, and the state after power-on. -/

namespace Sys2Proof.Machine

/-- The fifteen registers (10_state.md R20). -/
inductive Reg where
  | id | caps | nmax | ctrl | status | cmd | x0Lo | x0Hi | rLo | rHi | height | width | xlastLo | xlastHi | errinfo
deriving DecidableEq, Repr

/-- The five buffers (10_state.md R40). -/
inductive Buf where
  | src | dst | ks | perm | pinv
deriving DecidableEq, Repr

/-- The size of a host transaction: n ∈ {1, 2, 4} bytes (20_memory.md R60). -/
inductive Width where
  | w1 | w2 | w4
deriving DecidableEq, Repr

/-- The command errors that a completion reports (60_exceptions.md R231, codes 1 to 5). They are outcomes of the
machine, not stops of the model. -/
inductive ErrCode where
  | invalidSeedRange
  | shapeMismatch
  | illegalCommand
  | permIndexRange
  | permNotBijective
deriving DecidableEq, Repr

/-- The buffers' storage: the bytes written since power-on, as pairs of a byte offset and a byte. Canonical form
(`Memory.wf`): the offsets strictly rise. An offset with no entry holds no written value; the one read of a byte,
`byteAt`, answers Config.powerOn there (10_state.md R44, log 4). -/
abbrev Memory := List Host.Cell

/-- Faults of the HOST agent: the reason a bus transaction is answered with a bus error (20_memory.md R66, R67, R69).
The host sees one response, "bus error"; the reason is for a reader. A bus error changes nothing in the unit, so the
step records it in the response and goes on (log 7): safe. -/
inductive Fault where
  /-- Raised by a host access with n ≠ 4 in the register window (20_memory.md R66). Safe. -/
  | narrowRegister
  /-- Raised by a host access that is not naturally aligned (20_memory.md R66). Safe. -/
  | misaligned
  /-- Raised by a host access to an offset the address map leaves unmapped (20_memory.md R62, R66). Safe. -/
  | unmapped
  /-- Raised by a host write to ID, CAPS, NMAX, XLAST_LO, XLAST_HI or ERRINFO (20_memory.md R66). Safe. -/
  | readOnly
  /-- Raised by a host access that BUSY = 1 locks out (20_memory.md R69). Safe. -/
  | lockedOut
deriving DecidableEq, Repr

/-- Refusals. No meaning of this model refuses. -/
inductive Refusal where
  /-- Raised by an arm of exec whose command has no meaning yet (none has been left so). Safe. -/
  | notModelled (mnemonic : String)
deriving DecidableEq, Repr

/-- One host transaction (20_memory.md R64, R65): a read or a write of 1, 2 or 4 bytes at an offset from UNIT_BASE. -/
inductive Txn where
  | read (addr : Word) (width : Width)
  | write (addr : Word) (width : Width) (data : Word)
deriving DecidableEq, Repr

/-- What the outside world does next: a host transaction, or the hardware reset (70_reset_and_hazards.md R270), which
may cut short a transaction in progress. -/
inductive HostEvent where
  | txn (t : Txn)
  | hwReset (cut : Option Txn)
deriving DecidableEq, Repr

/-- The response to the last host transaction (20_memory.md R64, R65, R67). -/
inductive Response where
  /-- No transaction has been answered since power-on or the last hardware reset. -/
  | none
  /-- OKAY, with the data of a read. -/
  | readOkay (data : Word)
  /-- OKAY, to a write. -/
  | writeOkay
  /-- Bus error. -/
  | busError (reason : Fault)
deriving DecidableEq, Repr

/-- The whole state: what 10_state.md R52 lists, the two parameters the registers NMAX and CAPS read, and the model's
own fields for the host agent and the free values (the last four). -/
structure State where
  /-- The parameters behind NMAX and CAPS (10_state.md R23, R24); no step writes them. -/
  build : Build
  /-- CTRL (10_state.md R25). -/
  ctrl : Word
  /-- STATUS (10_state.md R26, R27). -/
  status : Word
  /-- X0_LO and X0_HI (10_state.md R29). -/
  x0Lo : Word
  x0Hi : Word
  /-- R_LO and R_HI (10_state.md R30). -/
  rLo : Word
  rHi : Word
  /-- HEIGHT (10_state.md R31). -/
  height : Word
  /-- WIDTH (10_state.md R32). -/
  width : Word
  /-- XLAST_LO and XLAST_HI (10_state.md R33). -/
  xlastLo : Word
  xlastHi : Word
  /-- ERRINFO (10_state.md R34). -/
  errinfo : Word
  /-- The five buffers (10_state.md R40), at their byte offsets of 20_memory.md R62. -/
  mem : Memory
  /-- CUR_CMD of the snapshot (10_state.md R50). -/
  curCmd : Word
  /-- CUR_N of the snapshot (10_state.md R50). -/
  curN : BitVec 64
  /-- CUR_X0 of the snapshot (10_state.md R50). -/
  curX0 : F64
  /-- CUR_R of the snapshot (10_state.md R50). -/
  curR : F64
  /-- MODEL: what the outside world does next, oldest first (00_scope.md R9, log 1). -/
  host : List HostEvent
  /-- MODEL: the response to the last transaction (20_memory.md R67, log 12). -/
  resp : Response
  /-- MODEL: how many more host events the command in flight lets pass (00_scope.md R8, log 2). -/
  wait : Nat
  /-- MODEL: how many free values have been drawn (log 2, log 6). -/
  draws : Nat
deriving DecidableEq, Repr

/-- The machine right after power-on (70_reset_and_hazards.md R271): every variable register 0, buffers unwritten
(R44), the unit idle and the host with nothing to do. The build is the reference one (log 3), the snapshot 0 (log 5),
the model's own fields as log 11 says. -/
def State.reset : State :=
  { build := Config.referenceBuild
    ctrl := 0#32
    status := 0#32
    x0Lo := 0#32
    x0Hi := 0#32
    rLo := 0#32
    rHi := 0#32
    height := 0#32
    width := 0#32
    xlastLo := 0#32
    xlastHi := 0#32
    errinfo := 0#32
    mem := []
    curCmd := 0#32
    curN := 0#64
    curX0 := 0#64
    curR := 0#64
    host := []
    resp := .none
    wait := 0
    draws := 0 }

end Sys2Proof.Machine
end

