-- ==== Sys2Proof/Machine/Flags.lean ====
section
/-! DEFINITION. The fields of CTRL and STATUS, the words that STATUS takes, and the interrupt output. -/

namespace Sys2Proof.Machine

/-- CTRL.IRQ_EN, bit 0 (10_state.md R25). -/
def irqEn (s : State) : Bool := s.ctrl.getLsbD 0

/-- STATUS.BUSY, bit 0 (10_state.md R26). -/
def busy (s : State) : Bool := s.status.getLsbD 0

/-- STATUS.DONE, bit 1 (10_state.md R26). -/
def done (s : State) : Bool := s.status.getLsbD 1

/-- STATUS.ERR, bit 2 (10_state.md R26). -/
def err (s : State) : Bool := s.status.getLsbD 2

/-- STATUS.WARN, bit 3 (10_state.md R26). -/
def warn (s : State) : Bool := s.status.getLsbD 3

/-- STATUS.ERR_CODE, bits 11:8 (10_state.md R26, R27). -/
def errCode (s : State) : BitVec 4 := s.status.extractLsb' 8 4

/-- The code of a command error (60_exceptions.md R231). -/
def errNumber : ErrCode → BitVec 4
  | .invalidSeedRange => 1#4
  | .shapeMismatch => 2#4
  | .illegalCommand => 3#4
  | .permIndexRange => 4#4
  | .permNotBijective => 5#4

/-- STATUS at acceptance: BUSY alone (30_encoding.md R101). -/
def busyStatus : Word := 1#32

/-- STATUS at a completion without error (30_encoding.md R102): DONE, and WARN when the seed was degenerate. -/
def doneStatus (w : Bool) : Word := 0#28 ++ BitVec.ofBool w ++ 0#1 ++ 1#1 ++ 0#1

/-- STATUS at a completion with an error (30_encoding.md R102): ERR and its code. -/
def errorStatus (c : ErrCode) : Word := 0#20 ++ errNumber c ++ 0#4 ++ 0#1 ++ 1#1 ++ 0#1 ++ 0#1

/-- The STATUS bits that a write of `v` clears (44_control.md R211): DONE by bit 1, WARN by bit 3, ERR and ERR_CODE
together by bit 2. -/
def clearMask (v : Word) : Word :=
  (if v.getLsbD 1 then 0x002#32 else 0#32) ||| (if v.getLsbD 3 then 0x008#32 else 0#32) |||
    (if v.getLsbD 2 then 0xF04#32 else 0#32)

/-- The value a read of CTRL returns: IRQ_EN in bit 0, every other bit 0 (10_state.md R25). -/
def ctrlWord (s : State) : Word := (BitVec.ofBool (irqEn s)).setWidth 32

/-- The interrupt output (60_exceptions.md R245). -/
def irq (s : State) : Bool := irqEn s && (done s || err s)

end Sys2Proof.Machine
end

