-- ==== Sys2Proof/Machine/Ops.lean ====
section
/-! DEFINITION. The shared operations: reading and writing bytes of the buffers, the parts of acceptance and completion
(30_encoding.md R101, R102), taking a command error (60_exceptions.md R236) and leaving it (44_control.md R211), CTRL
and the soft reset (R212, R213). -/

namespace Sys2Proof.Machine

/-! ### Bytes of the buffers -/

/-- The canonical form of the storage: offsets strictly rise. No entry can equal what an unlisted offset holds, since an
unlisted offset holds no written value (log 4). -/
abbrev Memory.wf (m : Memory) : Prop := m.Pairwise (fun c d => c.1 < d.1)

/-- The byte written at an offset, if one was. -/
def Memory.find : Memory → Nat → Option Byte
  | [], _ => none
  | (k, v) :: m, a => if k = a then some v else Memory.find m a

/-- Write one byte, keeping the canonical form. -/
def Memory.store : Memory → Nat → Byte → Memory
  | [], a, v => [(a, v)]
  | (k, w) :: m, a, v =>
    if a < k then (a, v) :: (k, w) :: m
    else if a = k then (a, v) :: m
    else (k, w) :: Memory.store m a v

/-- The byte at an offset: the last one written, else the unspecified power-on value (10_state.md R44, log 4). -/
def byteAt (m : Memory) (a : Nat) : Byte :=
  match m.find a with
  | some v => v
  | none => Config.powerOn a

/-- The `n` bytes from an offset, in rising order. -/
def bytesAt (m : Memory) : Nat → Nat → List Byte
  | _, 0 => []
  | a, n + 1 => byteAt m a :: bytesAt m (a + 1) n

/-- Write a list of bytes from an offset, in rising order (20_memory.md R65). -/
def storeBytes : Memory → Nat → List Byte → Memory
  | m, _, [] => m
  | m, a, b :: bs => storeBytes (m.store a b) (a + 1) bs

/-! ### The register halves of a binary64 value -/

/-- `{hi, lo}`: the HI register holds bits 63:32 (20_memory.md R63). -/
def joinWords (hi lo : Word) : F64 := hi ++ lo

/-- Bits 31:0, the LO register's half (20_memory.md R63). -/
def loWord (x : F64) : Word := x.extractLsb' 0 32

/-- Bits 63:32, the HI register's half (20_memory.md R63). -/
def hiWord (x : F64) : Word := x.extractLsb' 32 32

/-- The seed value x0 of the registers (10_state.md R29). -/
def seedX0 (s : State) : F64 := joinWords s.x0Hi s.x0Lo

/-- The seed value r of the registers (10_state.md R30). -/
def seedR (s : State) : F64 := joinWords s.rHi s.rLo

/-- The exact 64-bit product HEIGHT × WIDTH (10_state.md R32, 30_encoding.md R101). -/
def shapeProduct (s : State) : BitVec 64 := s.height.setWidth 64 * s.width.setWidth 64

/-! ### Acceptance -/

/-- The snapshot of 30_encoding.md R101 and STATUS = BUSY, for the word `w`. -/
def takeSnapshot (w : Word) (s : State) : State :=
  { s with
    curCmd := w
    curN := shapeProduct s
    curX0 := seedX0 s
    curR := seedR s
    status := busyStatus }

/-- Acceptance of a CMD write (30_encoding.md R101), in one step, whatever the word is. The time to completion is a
fresh free value (00_scope.md R8, log 2). -/
def accept (w : Word) (s : State) : State :=
  { takeSnapshot w s with
    wait := Config.latency s.draws
    draws := s.draws + 1 }

/-! ### Completion -/

/-- Where a buffer's element 0 stands (20_memory.md R62). -/
def Buf.base : Buf → Nat
  | .src => 0x01000000
  | .dst => 0x02000000
  | .ks => 0x03000000
  | .perm => 0x04000000
  | .pinv => 0x05000000

/-- How many bytes an element of a buffer takes (20_memory.md R62). -/
def Buf.elemBytes : Buf → Nat
  | .src => 1
  | .dst => 1
  | .ks => 1
  | .perm => 4
  | .pinv => 4

/-- One buffer write of a command: the bytes of elements 0, 1, … of a buffer. -/
structure BufWrite where
  buf : Buf
  bytes : List Byte
deriving DecidableEq, Repr

/-- What a command's `run` answers (30_encoding.md R102): an error with its ERRINFO, or the buffer writes, the warning
flag and the last iterate of its success. -/
inductive RunResult where
  | error (code : ErrCode) (info : Word)
  | ok (writes : List BufWrite) (warn : Bool) (xlast : Option F64)
deriving DecidableEq, Repr

/-- Apply buffer writes in order (30_encoding.md R102). -/
def applyWrites : Memory → List BufWrite → Memory
  | m, [] => m
  | m, w :: ws => applyWrites (storeBytes m w.buf.base w.bytes) ws

/-- Taking a command error (60_exceptions.md R236, 30_encoding.md R102): STATUS = ERR with the code, ERRINFO = info,
nothing else changes. -/
def completeError (c : ErrCode) (info : Word) (s : State) : State :=
  { s with status := errorStatus c, errinfo := info }

/-- XLAST after a completion: the last iterate where the command has one, else unchanged (10_state.md R33). -/
def withXlast (x : Option F64) (s : State) : State :=
  match x with
  | some v => { s with xlastLo := loWord v, xlastHi := hiWord v }
  | none => s

/-- A completion without error (30_encoding.md R102). -/
def completeOk (ws : List BufWrite) (w : Bool) (x : Option F64) (s : State) : State :=
  { withXlast x s with
    mem := applyWrites s.mem ws
    errinfo := 0#32
    status := doneStatus w }

/-- Completion of the command in flight with the outcome of its `run` (30_encoding.md R102). -/
def complete (r : RunResult) (s : State) : State :=
  match r with
  | .error c info => completeError c info s
  | .ok ws w x => completeOk ws w x s

/-! ### Register writes with an effect -/

/-- A STATUS write (44_control.md R211): how the host leaves an error, and acknowledges DONE and WARN. -/
def writeStatus (v : Word) (s : State) : State :=
  { s with status := s.status &&& ~~~ clearMask v }

/-- Every variable register at its reset value, every buffer and the snapshot kept (44_control.md R213,
70_reset_and_hazards.md R271; the snapshot: log 5). -/
def resetRegisters (s : State) : State :=
  { s with
    ctrl := 0#32
    status := 0#32
    x0Lo := 0#32
    x0Hi := 0#32
    rLo := 0#32
    rHi := 0#32
    height := 0#32
    width := 0#32
    xlastLo := 0#32
    xlastHi := 0#32
    errinfo := 0#32 }

/-- A CTRL write (44_control.md R212): bit 1 is the soft reset, else bit 0 is IRQ_EN. -/
def writeCtrl (v : Word) (s : State) : State :=
  if v.getLsbD 1 then resetRegisters s
  else { s with ctrl := (BitVec.ofBool (v.getLsbD 0)).setWidth 32 }

end Sys2Proof.Machine
end

