-- ==== Sys2Proof/Machine/Operands.lean ====
section
/-! DEFINITION. The operands of a command: the pixel count, the buffers as lists of elements, the tables and directions
of 30_encoding.md R92, and the checks that commands share (60_exceptions.md R238). -/

namespace Sys2Proof.Machine

/-- N, the pixel count sampled at acceptance (00_scope.md R14). -/
def pixelCount (s : State) : Nat := s.curN.toNat

/-- Element i of SRC, DST or KS (20_memory.md R62). -/
def byteElem (s : State) (b : Buf) (i : Nat) : Byte := byteAt s.mem (b.base + i)

/-- Element i of PERM or PINV: four bytes, least significant first (20_memory.md R62, R63). -/
def wordElem (s : State) (b : Buf) (i : Nat) : Word :=
  BitVec.ofNat 32 (leValue (bytesAt s.mem (b.base + 4 * i) 4))

/-- Elements 0 to n - 1 of SRC, DST or KS. -/
def byteElems (s : State) (b : Buf) (n : Nat) : List Byte := (List.range n).map (byteElem s b)

/-- Elements 0 to n - 1 of PERM or PINV, as indices. -/
def indexElems (s : State) (b : Buf) (n : Nat) : List Nat :=
  (List.range n).map (fun i => (wordElem s b i).toNat)

/-- The write of bytes to elements 0, 1, … of SRC, DST or KS. -/
def writeBytes (b : Buf) (bs : List Byte) : BufWrite := { buf := b, bytes := bs }

/-- The write of indices, zext_32, to elements 0, 1, … of PERM or PINV (20_memory.md R63). -/
def writeIndices (b : Buf) (is : List Nat) : BufWrite := { buf := b, bytes := is.flatMap (leBytes 4) }

/-- SEL of GATHER (30_encoding.md R92). -/
def selBuf : TableSel → Buf
  | .perm => .perm
  | .pinv => .pinv

/-- A, the source buffer of GATHER and MASK (30_encoding.md R92). -/
def sourceBuf : Dir → Buf
  | .s2d => .src
  | .d2s => .dst

/-- B, the destination buffer of GATHER and MASK (30_encoding.md R92). -/
def destBuf : Dir → Buf
  | .s2d => .dst
  | .d2s => .src

/-- The first check of every command but NOP: ShapeMismatch when N > N_MAX (60_exceptions.md R233); else the rest. -/
def checkShape (s : State) (rest : RunResult) : RunResult :=
  if s.build.nMax < pixelCount s then .error .shapeMismatch 0#32 else rest

/-- The smallest index whose entry is not below n (60_exceptions.md R235). -/
def firstOutOfRange (n : Nat) (table : List Nat) : Option Nat := table.findIdx? (fun e => decide (n ≤ e))

/-- PermIndexRange with the smallest offending index when some entry is not below N (60_exceptions.md R235); else the
rest. -/
def checkRange (n : Nat) (table : List Nat) (rest : RunResult) : RunResult :=
  match firstOutOfRange n table with
  | some i => .error .permIndexRange (BitVec.ofNat 32 i)
  | none => rest

/-- The smallest index whose entry stands earlier in the table too, the entries of `seen` standing before it
(60_exceptions.md R237). -/
def firstRepeatAfter (seen : List Nat) (i : Nat) : List Nat → Option Nat
  | [] => none
  | e :: table => if seen.contains e then some i else firstRepeatAfter (e :: seen) (i + 1) table

/-- PermNotBijective with the smallest repeating index when an entry repeats (60_exceptions.md R237); else the rest. -/
def checkDistinct (table : List Nat) (rest : RunResult) : RunResult :=
  match firstRepeatAfter [] 0 table with
  | some i => .error .permNotBijective (BitVec.ofNat 32 i)
  | none => rest

end Sys2Proof.Machine
end

