-- ==== Sys2Proof/Machine/Keystream.lean ====
section
/-! DEFINITION. The keystream generator (40_keystream.md): seed checks, the logistic map, its quantisation, GEN. -/

namespace Sys2Proof.Machine

/-- R_MIN = 3.5 (00_scope.md R7). -/
def rMin : F64 := 0x400C000000000000#64

/-- R_MAX = 4.0 (00_scope.md R7). -/
def rMax : F64 := 0x4010000000000000#64

/-- Seed validity (40_keystream.md R125). -/
def seedOk (x0 r : F64) : Bool := fle f64Zero x0 && fle x0 f64One && fle rMin r && fle r rMax

/-- Degenerate seed (40_keystream.md R126). -/
def degenerate (x0 : F64) : Bool := feq x0 f64Zero || feq x0 f64One

/-- One iterate step (40_keystream.md R121): (r·x)·(1 - x), each of the three results rounded. -/
def iterate (r x : F64) : F64 := fmul (fmul r x) (fsub f64One x)

/-- floor(real(p)) mod 256 of a finite p (00_scope.md R12): both the floor and the modulus are floored. -/
def floorMod256 (p : F64) : Byte := BitVec.ofNat 8 ((f64Val p / 2 ^ 1074) % 256).toNat

/-- Quantisation of an iterate (40_keystream.md R122). A product that is not finite has no real value: a free value,
never needed (log 10). -/
def quantise (x : F64) : Byte :=
  if f64Exp (fmul x f64Two56) = 2047 then Config.quantNonFinite x else floorMod256 (fmul x f64Two56)

/-- KSGEN's bytes (40_keystream.md R127): the map first, then the new iterate quantised (R123). -/
def ksBytes (r : F64) : Nat → F64 → List Byte
  | 0, _ => []
  | n + 1, x => quantise (iterate r x) :: ksBytes r n (iterate r x)

/-- KSGEN's last iterate (40_keystream.md R127): x0 itself when n = 0. -/
def ksLast (r : F64) : Nat → F64 → F64
  | 0, x => x
  | n + 1, x => ksLast r n (iterate r x)

/-- The keystream of the command in flight: N bytes from CUR_X0 and CUR_R (40_keystream.md R128). -/
def keystream (s : State) : List Byte := ksBytes s.curR (pixelCount s) s.curX0

/-- The last iterate of the command in flight (40_keystream.md R128). -/
def lastIterate (s : State) : F64 := ksLast s.curR (pixelCount s) s.curX0

/-- InvalidSeedRange when the sampled seed fails R125 (60_exceptions.md R232); else the rest. -/
def checkSeed (s : State) (rest : RunResult) : RunResult :=
  if seedOk s.curX0 s.curR then rest else .error .invalidSeedRange 0#32

/-- run(GEN) (40_keystream.md R128). -/
def runGen (s : State) : RunResult :=
  checkShape s (checkSeed s
    (.ok [writeBytes .ks (keystream s)] (degenerate s.curX0) (some (lastIterate s))))

/-- GEN (40_keystream.md R128). -/
def execGen (s : State) : Host.Outcome State Fault Refusal := .next (complete (runGen s) s)

end Sys2Proof.Machine
end

