-- ==== Sys2Proof/Machine/Masking.lean ====
section
/-! DEFINITION. The pixel blends (42_masking.md): MASK.XOR, and in builds with BLEND_ADD, MASK.ADD and MASK.SUB. -/

namespace Sys2Proof.Machine

/-- Combine two byte sequences element by element. -/
def blend (f : Byte → Byte → Byte) (a k : List Byte) : List Byte := List.zipWith f a k

/-- The common form of the three MASK commands (42_masking.md R170): B[i] <- f(A[i], KS[i]). -/
def runMask (f : Byte → Byte → Byte) (dir : Dir) (s : State) : RunResult :=
  checkShape s
    (.ok [writeBytes (destBuf dir)
      (blend f (byteElems s (sourceBuf dir) (pixelCount s)) (byteElems s .ks (pixelCount s)))] false none)

/-- IllegalCommand where the build has no additive blend (60_exceptions.md R234): no other check is made; else the
rest. -/
def checkBlendAdd (s : State) (rest : RunResult) : RunResult :=
  if s.build.blendAdd then rest else .error .illegalCommand 0#32

/-- run(MASK_XOR(dir)) (42_masking.md R170). -/
def runMaskXor (dir : Dir) (s : State) : RunResult := runMask (fun a k => a ^^^ k) dir s

/-- run(MASK_ADD(dir)) (42_masking.md R171): the sum modulo 256. -/
def runMaskAdd (dir : Dir) (s : State) : RunResult := checkBlendAdd s (runMask (fun a k => a + k) dir s)

/-- run(MASK_SUB(dir)) (42_masking.md R172): the difference modulo 256. -/
def runMaskSub (dir : Dir) (s : State) : RunResult := checkBlendAdd s (runMask (fun a k => a - k) dir s)

/-- MASK.XOR (42_masking.md R170). -/
def execMaskXor (dir : Dir) (s : State) : Host.Outcome State Fault Refusal := .next (complete (runMaskXor dir s) s)

/-- MASK.ADD (42_masking.md R171). -/
def execMaskAdd (dir : Dir) (s : State) : Host.Outcome State Fault Refusal := .next (complete (runMaskAdd dir s) s)

/-- MASK.SUB (42_masking.md R172). -/
def execMaskSub (dir : Dir) (s : State) : Host.Outcome State Fault Refusal := .next (complete (runMaskSub dir s) s)

end Sys2Proof.Machine
end

