-- ==== Sys2Proof/Machine/Permutation.lean ====
section
/-! DEFINITION. The permutation and the reorder (41_permutation.md): DERIVE_PERM, INVERT_PERM, GATHER. -/

namespace Sys2Proof.Machine

/-- Element i of a list of bytes (0 past its end, where no rule reads). -/
def byteOf (k : List Byte) (i : Nat) : Byte := k.getD i 0#8

/-- pos(i) of 41_permutation.md R140: how many pairs (k[j], j) precede (k[i], i). -/
def sortRank (k : List Byte) (i : Nat) : Nat :=
  (List.range k.length).countP (fun j => decide ((byteOf k j).toNat < (byteOf k i).toNat)) +
    (List.range i).countP (fun j => decide (byteOf k j = byteOf k i))

/-- Put i, i + 1, … at the places a list names: out[places[0]] = i, out[places[1]] = i + 1, …. -/
def scatterFrom : Nat → List Nat → List Nat → List Nat
  | _, [], out => out
  | i, p :: places, out => scatterFrom (i + 1) places (out.set p i)

/-- The sequence Q of the length of `places` with Q[places[i]] = i, the form of both P[pos(i)] = i
(41_permutation.md R140) and Q[P[i]] = i (R141). -/
def scatter (places : List Nat) : List Nat := scatterFrom 0 places (List.replicate places.length 0)

/-- The stable ascending argsort of a byte sequence (41_permutation.md R140): P[pos(i)] = i. -/
def argsort (k : List Byte) : List Nat := scatter ((List.range k.length).map (sortRank k))

/-- The inverse of a bijection (41_permutation.md R141): Q[P[i]] = i. -/
def invertTable (p : List Nat) : List Nat := scatter p

/-- Reordering by an index table (41_permutation.md R141): b[i] = a[S[i]]. -/
def reorder (a : List Byte) (table : List Nat) : List Byte := table.map (byteOf a)

/-- run(DERIVE_PERM) (41_permutation.md R142). -/
def runDerivePerm (s : State) : RunResult :=
  checkShape s (.ok [writeIndices .perm (argsort (byteElems s .ks (pixelCount s)))] false none)

/-- run(INVERT_PERM) (41_permutation.md R144). -/
def runInvertPerm (s : State) : RunResult :=
  checkShape s
    (checkRange (pixelCount s) (indexElems s .perm (pixelCount s))
      (checkDistinct (indexElems s .perm (pixelCount s))
        (.ok [writeIndices .pinv (invertTable (indexElems s .perm (pixelCount s)))] false none)))

/-- run(GATHER sel, dir) (41_permutation.md R145). -/
def runGather (sel : TableSel) (dir : Dir) (s : State) : RunResult :=
  checkShape s
    (checkRange (pixelCount s) (indexElems s (selBuf sel) (pixelCount s))
      (.ok [writeBytes (destBuf dir)
        (reorder (byteElems s (sourceBuf dir) (pixelCount s)) (indexElems s (selBuf sel) (pixelCount s)))] false none))

/-- DERIVE_PERM (41_permutation.md R142). -/
def execDerivePerm (s : State) : Host.Outcome State Fault Refusal := .next (complete (runDerivePerm s) s)

/-- INVERT_PERM (41_permutation.md R144). -/
def execInvertPerm (s : State) : Host.Outcome State Fault Refusal := .next (complete (runInvertPerm s) s)

/-- GATHER (41_permutation.md R145). -/
def execGather (sel : TableSel) (dir : Dir) (s : State) : Host.Outcome State Fault Refusal :=
  .next (complete (runGather sel dir s) s)

end Sys2Proof.Machine
end

