-- ==== Sys2Proof/Machine/Cipher.lean ====
section
/-! DEFINITION. The cipher pipelines (43_cipher.md): ENCRYPT and DECRYPT. -/

namespace Sys2Proof.Machine

/-- The ciphertext of a plaintext under a keystream (43_cipher.md R190, steps 4 and 5): p[P[i]] XOR ks[i]. -/
def encryptBytes (p ks : List Byte) : List Byte := blend (fun a k => a ^^^ k) (reorder p (argsort ks)) ks

/-- The plaintext of a ciphertext under a keystream (43_cipher.md R191, steps 3 to 5): y[Q[j]] with
y[i] = c[i] XOR ks[i]. -/
def decryptBytes (c ks : List Byte) : List Byte :=
  reorder (blend (fun a k => a ^^^ k) c ks) (invertTable (argsort ks))

/-- run(ENCRYPT) (43_cipher.md R190). -/
def runEncrypt (s : State) : RunResult :=
  checkShape s (checkSeed s
    (.ok
      [writeBytes .ks (keystream s),
       writeIndices .perm (argsort (keystream s)),
       writeBytes .dst (encryptBytes (byteElems s .src (pixelCount s)) (keystream s))]
      (degenerate s.curX0) (some (lastIterate s))))

/-- run(DECRYPT) (43_cipher.md R191). -/
def runDecrypt (s : State) : RunResult :=
  checkShape s (checkSeed s
    (.ok
      [writeBytes .dst (decryptBytes (byteElems s .src (pixelCount s)) (keystream s)),
       writeBytes .ks (keystream s),
       writeIndices .perm (argsort (keystream s)),
       writeIndices .pinv (invertTable (argsort (keystream s)))]
      (degenerate s.curX0) (some (lastIterate s))))

/-- ENCRYPT (43_cipher.md R190). -/
def execEncrypt (s : State) : Host.Outcome State Fault Refusal := .next (complete (runEncrypt s) s)

/-- DECRYPT (43_cipher.md R191). -/
def execDecrypt (s : State) : Host.Outcome State Fault Refusal := .next (complete (runDecrypt s) s)

end Sys2Proof.Machine
end

