-- ==== Sys2Proof/Machine/Control.lean ====
section
/-! DEFINITION. The control command NOP (44_control.md). -/

namespace Sys2Proof.Machine

/-- run(NOP) (44_control.md R210): no checks, no writes, no warning, no last iterate. -/
def runNop : RunResult := .ok [] false none

/-- NOP (44_control.md R210). -/
def execNop (s : State) : Host.Outcome State Fault Refusal := .next (complete runNop s)

end Sys2Proof.Machine
end

