-- ==== Sys2Proof/Machine/Bus.lean ====
section
/-! DEFINITION. The host interface (20_memory.md): the address map, which accesses are legal and which BUSY locks out,
bus reads and writes; and the hardware reset (70_reset_and_hazards.md R270 to R272). -/

namespace Sys2Proof.Machine

/-! ### The address map -/

/-- The bytes of a transaction (20_memory.md R60). -/
def Width.bytes : Width → Nat
  | .w1 => 1
  | .w2 => 2
  | .w4 => 4

/-- The register at an offset of the register window (10_state.md R20, R35). -/
def regAt (a : Nat) : Option Reg :=
  match a with
  | 0x000 => some .id
  | 0x004 => some .caps
  | 0x008 => some .nmax
  | 0x00C => some .ctrl
  | 0x010 => some .status
  | 0x014 => some .cmd
  | 0x018 => some .x0Lo
  | 0x01C => some .x0Hi
  | 0x020 => some .rLo
  | 0x024 => some .rHi
  | 0x028 => some .height
  | 0x02C => some .width
  | 0x030 => some .xlastLo
  | 0x034 => some .xlastHi
  | 0x038 => some .errinfo
  | _ => none

/-- The buffer whose 16 MiB window holds an offset (20_memory.md R62). -/
def bufAt (a : Nat) : Option Buf :=
  match a / 0x01000000 with
  | 1 => some .src
  | 2 => some .dst
  | 3 => some .ks
  | 4 => some .perm
  | 5 => some .pinv
  | _ => none

/-- The registers that no host write may address (20_memory.md R66). -/
def readOnlyReg : Reg → Bool
  | .id | .caps | .nmax | .xlastLo | .xlastHi | .errinfo => true
  | .ctrl | .status | .cmd | .x0Lo | .x0Hi | .rLo | .rHi | .height | .width => false

/-- What a legal access addresses. -/
inductive Target where
  | reg (r : Reg)
  | buf (b : Buf)
deriving DecidableEq, Repr

/-- Legality in the register window (20_memory.md R66). -/
def regTarget (a : Nat) (w : Width) (isWrite : Bool) : Except Fault Target :=
  if w.bytes ≠ 4 then .error .narrowRegister
  else if a % 4 ≠ 0 then .error .misaligned
  else match regAt a with
    | none => .error .unmapped
    | some r => if isWrite && readOnlyReg r then .error .readOnly else .ok (.reg r)

/-- Legality outside the register window: natural alignment, and every byte inside the used size of a buffer
(20_memory.md R62, R66). -/
def bufTarget (b : Build) (a : Nat) (w : Width) : Except Fault Target :=
  match bufAt a with
  | none => .error .unmapped
  | some t =>
    if a % w.bytes ≠ 0 then .error .misaligned
    else if a + w.bytes ≤ t.base + t.elemBytes * b.nMax then .ok (.buf t)
    else .error .unmapped

/-- Legality of a host access (20_memory.md R66): what it addresses, or why it is a bus error. -/
def target (b : Build) (a : Nat) (w : Width) (isWrite : Bool) : Except Fault Target :=
  if a < 0x00010000 then regTarget a w isWrite else bufTarget b a w

/-- The lockout while BUSY = 1 (20_memory.md R69): register reads and STATUS writes pass, everything else does not. -/
def lockedOut (s : State) (t : Target) (isWrite : Bool) : Bool :=
  busy s && match t with
    | .reg r => isWrite && decide (r ≠ .status)
    | .buf _ => true

/-- Legality and lockout together: the target of an access that is answered OKAY (20_memory.md R64, R65). -/
def access (s : State) (a : Nat) (w : Width) (isWrite : Bool) : Except Fault Target :=
  match target s.build a w isWrite with
  | .error f => .error f
  | .ok t => if lockedOut s t isWrite then .error .lockedOut else .ok t

/-! ### Reads -/

/-- ID: the characters LMKG (10_state.md R22). -/
def idWord : Word := 0x4C4D4B47#32

/-- CAPS: BLEND_ADD in bit 0, CMDSET = 1 in bits 15:8 (10_state.md R23). -/
def capsWord (b : Build) : Word := 0#16 ++ 1#8 ++ 0#7 ++ BitVec.ofBool b.blendAdd

/-- What a read of a register returns (10_state.md R22 to R34): CMD reads 0 (R28). -/
def readReg (s : State) : Reg → Word
  | .id => idWord
  | .caps => capsWord s.build
  | .nmax => BitVec.ofNat 32 s.build.nMax
  | .ctrl => ctrlWord s
  | .status => s.status
  | .cmd => 0#32
  | .x0Lo => s.x0Lo
  | .x0Hi => s.x0Hi
  | .rLo => s.rLo
  | .rHi => s.rHi
  | .height => s.height
  | .width => s.width
  | .xlastLo => s.xlastLo
  | .xlastHi => s.xlastHi
  | .errinfo => s.errinfo

/-- MemRead (20_memory.md R64): the data, or why the response is a bus error. No read changes the state. -/
def memRead (s : State) (addr : Word) (w : Width) : Except Fault Word :=
  match access s addr.toNat w false with
  | .error f => .error f
  | .ok (.reg r) => .ok (readReg s r)
  | .ok (.buf _) => .ok (BitVec.ofNat 32 (leValue (bytesAt s.mem addr.toNat w.bytes)))

/-! ### Writes -/

/-- A write to a register, by the register's own rule (20_memory.md R65). The read-only registers, which no legal write
addresses, keep their values. -/
def writeReg (v : Word) (s : State) : Reg → State
  | .ctrl => writeCtrl v s
  | .status => writeStatus v s
  | .cmd => accept v s
  | .x0Lo => { s with x0Lo := v }
  | .x0Hi => { s with x0Hi := v }
  | .rLo => { s with rLo := v }
  | .rHi => { s with rHi := v }
  | .height => { s with height := v }
  | .width => { s with width := v }
  | .id => s
  | .caps => s
  | .nmax => s
  | .xlastLo => s
  | .xlastHi => s
  | .errinfo => s

/-- MemWrite (20_memory.md R65): the state after the write, or why the response is a bus error. -/
def memWrite (s : State) (addr : Word) (w : Width) (v : Word) : Except Fault State :=
  match access s addr.toNat w true with
  | .error f => .error f
  | .ok (.reg r) => .ok (writeReg v s r)
  | .ok (.buf _) => .ok { s with mem := storeBytes s.mem addr.toNat (leBytes w.bytes v.toNat) }

/-- The data a response carries: a read's data when OKAY, and 0 with a bus error (20_memory.md R67). -/
def respData : Response → Word
  | .readOkay d => d
  | .none => 0#32
  | .writeOkay => 0#32
  | .busError _ => 0#32

/-- One host transaction (20_memory.md R64, R65): its effect and its response. A bus error changes nothing else
(R67). -/
def serveTxn (t : Txn) (s : State) : State :=
  match t with
  | .read addr w =>
    match memRead s addr w with
    | .ok d => { s with resp := .readOkay d }
    | .error f => { s with resp := .busError f }
  | .write addr w v =>
    match memWrite s addr w v with
    | .ok t' => { t' with resp := .writeOkay }
    | .error f => { s with resp := .busError f }

/-! ### The hardware reset -/

/-- The `run` of a command (30_encoding.md R102). -/
def runOf (i : Instr) (s : State) : RunResult :=
  match i with
  | .nop => runNop
  | .gen => runGen s
  | .derivePerm => runDerivePerm s
  | .invertPerm => runInvertPerm s
  | .gather sel dir => runGather sel dir s
  | .maskXor dir => runMaskXor dir s
  | .maskAdd dir => runMaskAdd dir s
  | .maskSub dir => runMaskSub dir s
  | .encrypt => runEncrypt s
  | .decrypt => runDecrypt s

/-- The buffer writes that the command in flight would make, by its rule: none while idle, for an illegal word, or for
a command that ends in an error, whose checks come before any write (60_exceptions.md R236; log 6). -/
def pendingWrites (s : State) : List BufWrite :=
  if busy s then
    match decode s.build.blendAdd s.curCmd with
    | .error _ => []
    | .ok i =>
      match runOf i s with
      | .error _ _ => []
      | .ok ws _ _ => ws
  else []

/-- The same write with every byte an unspecified one (70_reset_and_hazards.md R272, log 6). -/
def scrapWrite (draw : Nat) (w : BufWrite) : BufWrite :=
  { w with bytes := (List.range w.bytes.length).map (fun k => Config.scrap draw (w.buf.base + k)) }

/-- The hardware reset (70_reset_and_hazards.md R270 to R272): registers at their reset values, the command in flight
abandoned, buffers kept but for what that command could write. A transaction in progress ends with no effect and no
response (R270, log 13). -/
def hardwareReset (s : State) : State :=
  { resetRegisters s with
    mem := applyWrites s.mem ((pendingWrites s).map (scrapWrite s.draws))
    resp := .none
    draws := s.draws + 1 }

/-- What one event of the outside world does. -/
def serve (e : HostEvent) (s : State) : State :=
  match e with
  | .txn t => serveTxn t s
  | .hwReset _ => hardwareReset s

end Sys2Proof.Machine
end

