-- ==== Sys2Proof/Machine/Dispatch.lean ====
section
/-! DEFINITION. The meaning of every command: its completion in the state at acceptance (30_encoding.md R102). -/

namespace Sys2Proof.Machine

def exec (i : Instr) (s : State) : Host.Outcome State Fault Refusal :=
  match i with
  | .nop => Sys2Proof.Machine.execNop s
  | .gen => Sys2Proof.Machine.execGen s
  | .derivePerm => Sys2Proof.Machine.execDerivePerm s
  | .invertPerm => Sys2Proof.Machine.execInvertPerm s
  | .gather sel dir => Sys2Proof.Machine.execGather sel dir s
  | .maskXor dir => Sys2Proof.Machine.execMaskXor dir s
  | .maskAdd dir => Sys2Proof.Machine.execMaskAdd dir s
  | .maskSub dir => Sys2Proof.Machine.execMaskSub dir s
  | .encrypt => Sys2Proof.Machine.execEncrypt s
  | .decrypt => Sys2Proof.Machine.execDecrypt s

end Sys2Proof.Machine
end

