-- ==== Sys2Proof/Machine/Sequencer.lean ====
section
/-! DEFINITION. Which agent moves next (00_scope.md R9, 30_encoding.md R103), the unit's completion of the accepted
word, and the host's next event. -/

namespace Sys2Proof.Machine

/-- The unit's step: the completion of the accepted word (30_encoding.md R102), IllegalCommand when it is no command
(60_exceptions.md R234). -/
def completeCurrent (s : State) : Host.Outcome State Fault Refusal :=
  match decode s.build.blendAdd s.curCmd with
  | .ok i => exec i s
  | .error _ => .next (completeError .illegalCommand 0#32 s)

/-- Whether the next step is the unit's: a command is in flight, and its latency has passed or the host has nothing
more to do (log 2). -/
def unitMoves (s : State) : Bool := busy s && (s.host.isEmpty || s.wait == 0)

/-- The host's step: its next event is served, and a command in flight has let one more pass (log 2). With no event
left and no command in flight the unit is idle and nothing changes (70_reset_and_hazards.md R271, log 18). -/
def hostMoves (s : State) : State :=
  match s.host with
  | [] => s
  | e :: es => serve e { s with host := es, wait := s.wait - 1 }

/-- The CMD word of an opcode-table word: its `nbits` low bits. -/
def tableWord (nbits w : Nat) : Word := BitVec.ofNat 32 (w % 2 ^ nbits)

/-- A state in which the word has just been accepted, as by a CMD write (30_encoding.md R101), and completes next. -/
def acceptedNow (w : Word) (s : State) : State := { takeSnapshot w s with wait := 0 }

end Sys2Proof.Machine
end

