-- ==== Sys2Proof/Machine/Step.lean ====
section
/-! DEFINITION. One step of the machine, and where it finds its next command. -/

namespace Sys2Proof.Machine

/-- One step: the completion of the command in flight, or the next event of the host (20_memory.md R75: one total order
of the two). -/
def step (s : State) : Host.Outcome State Fault Refusal :=
  if unitMoves s then completeCurrent s else .next (hostMoves s)

/-- The state with a command accepted and about to complete: what a CMD write of the word leaves (30_encoding.md R101),
the unit being the next to move. The unit fetches nothing (10_state.md R51); this stands for the host's CMD write
(log 8). -/
def State.withFetchWord (s : State) (nbits w : Nat) : State := acceptedNow (tableWord nbits w) s

end Sys2Proof.Machine
end

