-- ==== Sys2Proof/WellFormed.lean ====
section
/-! DEFINITION. Which builds exist and which commands a build has. -/

namespace Sys2Proof

/-- The range of the parameter N_MAX: 1 ≤ N_MAX ≤ 2^22 (00_scope.md R5). -/
def Build.wf (b : Build) : Bool := decide (1 ≤ b.nMax) && decide (b.nMax ≤ 4194304)

/-- The commands a build has: MASK.ADD and MASK.SUB only when BLEND_ADD is true, every other command always
(30_encoding.md R95). -/
def Instr.wf (blendAdd : Bool) : Instr → Bool
  | .nop => true
  | .gen => true
  | .derivePerm => true
  | .invertPerm => true
  | .gather _ _ => true
  | .maskXor _ => true
  | .maskAdd _ => blendAdd
  | .maskSub _ => blendAdd
  | .encrypt => true
  | .decrypt => true

end Sys2Proof
end

