-- ==== Sys2Proof/Safety.lean ====
section
/-! DEFINITION. The terms that claims use: the invariant of a sound state, a command issued and awaited, which bytes a
command may touch, and what a correct rounding, a rank and a counting sort are. -/

namespace Sys2Proof.Machine

/-! ### The invariant -/

/-- An offset that the address map gives to a buffer element (20_memory.md R62). -/
def mappedByte (b : Build) (a : Nat) : Prop :=
  ∃ t : Buf, t.base ≤ a ∧ a < t.base + t.elemBytes * b.nMax

/-- The legal values of STATUS (10_state.md R26, R27): BUSY stands alone, reserved bits are 0, DONE and ERR are never
both 1, ERR_CODE is 1 to 5 exactly while ERR is 1, and WARN comes with no error. -/
structure StatusLegal (s : State) : Prop where
  busyAlone : busy s = true → s.status = busyStatus
  reservedZero : s.status &&& 0xFFFFF0F0#32 = 0#32
  doneOrErr : (done s && err s) = false
  codeWithErr : err s = true → 1 ≤ (errCode s).toNat ∧ (errCode s).toNat ≤ 5
  noCodeWithoutErr : err s = false → errCode s = 0#4
  warnWithoutErr : (warn s && err s) = false

/-- What holds of the machine at reset and after every step: a build that exists, storage in canonical form and inside
the mapped bytes, reserved bits 0, a legal STATUS, and a snapshot that agrees with the registers while a command is in
flight (20_memory.md R69, 30_encoding.md R101). -/
structure Inv (s : State) : Prop where
  buildExists : s.build.wf = true
  memCanonical : Memory.wf s.mem
  memMapped : ∀ c ∈ s.mem, mappedByte s.build c.1
  ctrlReservedZero : s.ctrl &&& 0xFFFFFFFE#32 = 0#32
  statusLegal : StatusLegal s
  snapshotHeld : busy s = true → s.curN = shapeProduct s ∧ s.curX0 = seedX0 s ∧ s.curR = seedR s

/-! ### Commands, issued and awaited -/

/-- `RUN i` of 30_encoding.md R106 with no host access in between: the command's word accepted, then completed. -/
def runCommand (i : Instr) (s : State) : Host.Outcome State Fault Refusal := exec i (accept (encode i) s)

/-- A sequence of commands, each issued after the one before it has completed (70_reset_and_hazards.md R278). -/
def runCommands : List Instr → State → Host.Outcome State Fault Refusal
  | [], s => .next s
  | i :: is, s =>
    match runCommand i s with
    | .next t => runCommands is t
    | .fault f => .fault f
    | .refused r => .refused r

/-- The pixel count that the next acceptance will sample (10_state.md R32). -/
def shapeCount (s : State) : Nat := s.height.toNat * s.width.toNat

/-- The registers a command reads are those of `s`. -/
def sameSetup (s t : State) : Prop :=
  t.build = s.build ∧ t.x0Lo = s.x0Lo ∧ t.x0Hi = s.x0Hi ∧ t.rLo = s.rLo ∧ t.rHi = s.rHi ∧
    t.height = s.height ∧ t.width = s.width

/-! ### Which bytes -/

/-- The byte offsets of elements 0 to n - 1 of a buffer (20_memory.md R62). -/
def inElems (b : Buf) (n a : Nat) : Prop := b.base ≤ a ∧ a < b.base + b.elemBytes * n

/-- The buffers a command writes (10_state.md R40). -/
def writesTo : Instr → List Buf
  | .nop => []
  | .gen => [.ks]
  | .derivePerm => [.perm]
  | .invertPerm => [.pinv]
  | .gather _ dir => [destBuf dir]
  | .maskXor dir => [destBuf dir]
  | .maskAdd dir => [destBuf dir]
  | .maskSub dir => [destBuf dir]
  | .encrypt => [.ks, .perm, .dst]
  | .decrypt => [.ks, .perm, .pinv, .dst]

/-- The state after a completion without error that changes XLAST to `x` and the memory to `m`: everything else is as
before but ERRINFO and STATUS (30_encoding.md R102). -/
def doneWith (m : Memory) (w : Bool) (x : F64) (s : State) : State :=
  { s with mem := m, status := doneStatus w, errinfo := 0#32, xlastLo := loWord x, xlastHi := hiWord x }

/-- The state after a completion without error that changes the memory to `m` and leaves XLAST
(30_encoding.md R102). -/
def doneKeep (m : Memory) (s : State) : State :=
  { s with mem := m, status := doneStatus false, errinfo := 0#32 }

/-! ### Words and accesses -/

/-- The legal commands, 30_encoding.md R95: bits [31:8] are 0, OP is 0x0 to 0x7, every field the row of R94 marks "0"
is 0, and a MASK has BLEND 0b00, or 0b01 or 0b10 where BLEND_ADD is true. -/
def legalWord (blendAdd : Bool) (w : Word) : Prop :=
  w.extractLsb' 8 24 = 0#24 ∧ w.extractLsb' 0 4 < 8#4 ∧
    (w.extractLsb' 0 4 ≠ 4#4 → w.extractLsb' 0 4 ≠ 5#4 → w.extractLsb' 4 4 = 0#4) ∧
    (w.extractLsb' 0 4 = 4#4 → w.extractLsb' 6 2 = 0#2) ∧
    (w.extractLsb' 0 4 = 5#4 → w.getLsbD 4 = false ∧
      (w.extractLsb' 6 2 = 0#2 ∨ ((w.extractLsb' 6 2 = 1#2 ∨ w.extractLsb' 6 2 = 2#2) ∧ blendAdd = true)))

/-- A legal access to a register, 20_memory.md R66: four bytes, aligned, one of the fifteen offsets 0x000 to 0x038, and
no write to ID, CAPS, NMAX, XLAST_LO, XLAST_HI or ERRINFO. -/
def legalRegAccess (a : Nat) (w : Width) (isWrite : Bool) : Prop :=
  w.bytes = 4 ∧ a % 4 = 0 ∧ a ≤ 0x038 ∧
    (isWrite = true → a ≠ 0x000 ∧ a ≠ 0x004 ∧ a ≠ 0x008 ∧ a ≠ 0x030 ∧ a ≠ 0x034 ∧ a ≠ 0x038)

/-- A legal access to a buffer, 20_memory.md R66: naturally aligned, every byte inside the used size. -/
def legalBufAccess (b : Build) (a : Nat) (w : Width) : Prop :=
  a % w.bytes = 0 ∧ ∃ t : Buf, t.base ≤ a ∧ a + w.bytes ≤ t.base + t.elemBytes * b.nMax

/-! ### Binary64 -/

/-- A finite binary64 value. -/
def f64Finite (a : F64) : Prop := f64Exp a ≠ 2047

/-- Between 0 and 1, as the seed check compares (40_keystream.md R124, R125). -/
def inUnit (a : F64) : Bool := fle f64Zero a && fle a f64One

/-- The overflow bound, in units of 2^-1074: halfway from the largest finite value, (2^53 - 1) · 2^971, to 2^1024. A
magnitude below it rounds to a finite value, and one from it on to an infinity (40_keystream.md R120, IEEE-754; the
tie at the bound goes to the even 2^1024). Irreducible, so that no tactic evaluates it in passing. -/
@[irreducible] def f64Overflow : Nat := (2 ^ 54 - 1) * 2 ^ 2044

/-- `z` is a binary64 value nearest to the exact number v / 2^d (in units of 2^-1074), and on a tie between two the one
with an even last bit (40_keystream.md R120). -/
def nearestEven (v : Int) (d : Nat) (z : F64) : Prop :=
  f64Finite z ∧ ∀ c : F64, f64Finite c →
    (v - f64Val z * 2 ^ d).natAbs ≤ (v - f64Val c * 2 ^ d).natAbs ∧
    ((v - f64Val z * 2 ^ d).natAbs = (v - f64Val c * 2 ^ d).natAbs → f64Val c ≠ f64Val z →
      z.getLsbD 0 = false)

/-! ### Permutations -/

/-- A bijection of [0, n), as a list (41_permutation.md R140). -/
def isBijection (p : List Nat) (n : Nat) : Prop := p.length = n ∧ (∀ e ∈ p, e < n) ∧ p.Nodup

/-- The counting sort of 41_permutation.md R140: `start[v]` is where the next index with byte v goes. -/
def countingSortFrom (k : List Byte) : Nat → List Byte → List Nat → List Nat → List Nat
  | _, [], _, out => out
  | i, b :: bs, start, out =>
    countingSortFrom k (i + 1) bs (start.set b.toNat (start.getD b.toNat 0 + 1))
      (out.set (start.getD b.toNat 0) i)

/-- start[v] = count[0] + … + count[v-1] (41_permutation.md R140). -/
def countBelow (k : List Byte) (v : Nat) : Nat := k.countP (fun b => decide (b.toNat < v))

/-- The P of the counting sort (41_permutation.md R140). -/
def countingSort (k : List Byte) : List Nat :=
  countingSortFrom k 0 k ((List.range 256).map (countBelow k)) (List.replicate k.length 0)

end Sys2Proof.Machine
end

