-- ==== Sys2Proof/Certificates/Slice0/Obligations.lean ====
section
/-! DEFINITION. The statements for the provers. Each docstring names the rule of spec/ it formalises. -/

open Sys2Proof Sys2Proof.Machine

/-! ### Encoding and decoding -/

/-- 30_encoding.md R94, R98: the decoder reads exactly the words the encoder writes of the commands the build has, and
reads each as that command. -/
def Obligations.DecodeAgreesWithEncode : Prop :=
  ∀ (blendAdd : Bool) (w : Word) (i : Instr),
    decode blendAdd w = .ok i ↔ (i.wf blendAdd = true ∧ encode i = w)

/-- 30_encoding.md R107: the encoding examples, legal and illegal, in either build. -/
def Obligations.EncodingExamplesDecode : Prop :=
  ∀ blendAdd : Bool,
    decode blendAdd 0x00000034#32 = .ok (.gather .pinv .d2s) ∧
    decode blendAdd 0x00000025#32 = .ok (.maskXor .d2s) ∧
    decode blendAdd 0x00000004#32 = .ok (.gather .perm .s2d) ∧
    ∀ i : Instr,
      decode blendAdd 0x00000104#32 ≠ .ok i ∧ decode blendAdd 0x00000054#32 ≠ .ok i ∧
      decode blendAdd 0x00000015#32 ≠ .ok i ∧ decode blendAdd 0x000000C5#32 ≠ .ok i ∧
      decode blendAdd 0x00000011#32 ≠ .ok i ∧ decode blendAdd 0x00000008#32 ≠ .ok i

/-- 30_encoding.md R95, R96: the words the decoder accepts are the legal ones, by their fields. -/
def Obligations.DecoderAcceptsExactlyLegalWords : Prop :=
  ∀ (blendAdd : Bool) (w : Word), (∃ i, decode blendAdd w = .ok i) ↔ legalWord blendAdd w

/-! ### The step, acceptance and completion -/

/-- 30_encoding.md R102: with a command in flight and the unit next to move (its latency passed, or no host event left:
the model's scheduling, log 2), the step is exec of the decoded command; and so it is right after the word is placed by
withFetchWord (log 8). -/
def Obligations.StepRunsDecodedCommand : Prop :=
  (∀ (s : State) (i : Instr), busy s = true → (s.host = [] ∨ s.wait = 0) →
    decode s.build.blendAdd s.curCmd = .ok i → step s = exec i s) ∧
  (∀ (s : State) (nbits w : Nat) (i : Instr),
    decode s.build.blendAdd (BitVec.ofNat 32 (w % 2 ^ nbits)) = .ok i →
    step (s.withFetchWord nbits w) = exec i (s.withFetchWord nbits w))

/-- 60_exceptions.md R234: an illegal word completes with IllegalCommand, ERRINFO = 0, and nothing else changes,
whatever the shape and the seed. -/
def Obligations.IllegalWordCompletesWithIllegalCommand : Prop :=
  ∀ s : State, busy s = true → (s.host = [] ∨ s.wait = 0) → ¬ legalWord s.build.blendAdd s.curCmd →
    step s = .next { s with status := 0x00000304#32, errinfo := 0#32 }

/-- 20_memory.md R75 with logs 1, 2 and 18: otherwise the step serves the host's next event, counting it against the
latency of a command in flight; with neither a command nor an event nothing changes. -/
def Obligations.StepServesHostElseIdles : Prop :=
  (∀ (s : State) (e : HostEvent) (es : List HostEvent), s.host = e :: es → (busy s = false ∨ s.wait ≠ 0) →
    step s = .next (serve e { s with host := es, wait := s.wait - 1 })) ∧
  (∀ s : State, s.host = [] → busy s = false → step s = .next s)

/-- 30_encoding.md R101: a 4-byte write of any word to CMD while BUSY = 0 is accepted: the snapshot is taken (the exact
product, the register pairs), STATUS is BUSY alone, the response is OKAY, and nothing else changes but the model's own
latency counters; while BUSY = 1 it is a bus error. -/
def Obligations.CmdWriteIsAccepted : Prop :=
  ∀ (s : State) (w : Word),
    (busy s = false → ∃ k n : Nat, ∃ count : BitVec 64,
      serve (.txn (.write 0x014#32 .w4 w)) s =
        { s with
          curCmd := w, curN := count, curX0 := s.x0Hi ++ s.x0Lo, curR := s.rHi ++ s.rLo,
          status := 0x00000001#32, resp := .writeOkay, wait := k, draws := n } ∧
      count.toNat = s.height.toNat * s.width.toNat) ∧
    (busy s = true → ∃ f,
      serve (.txn (.write 0x014#32 .w4 w)) s = { s with resp := .busError f })

/-- 10_state.md R26, 30_encoding.md R101: only a 4-byte write to CMD makes an idle unit busy. -/
def Obligations.OnlyCmdWriteMakesBusy : Prop :=
  ∀ s t : State, busy s = false → step s = .next t → busy t = true →
    ∃ (w : Word) (es : List HostEvent), s.host = .txn (.write 0x014#32 .w4 w) :: es ∧ t.curCmd = w

/-- 30_encoding.md R102, 10_state.md R43: every completion ends with BUSY = 0 and exactly one of DONE and ERR, changes
only STATUS, ERRINFO, XLAST and the command's own buffers, and of those only elements 0 to N - 1. -/
def Obligations.CompletionFrame : Prop :=
  ∀ (i : Instr) (s : State), ∃ t, exec i s = .next t ∧
    t = { s with
      mem := t.mem, status := t.status, errinfo := t.errinfo, xlastLo := t.xlastLo, xlastHi := t.xlastHi } ∧
    busy t = false ∧ done t = !err t ∧
    ∀ a, (∀ b ∈ writesTo i, ¬ inElems b (pixelCount s) a) → byteAt t.mem a = byteAt s.mem a

/-- 30_encoding.md R103 with log 2: a command in flight does not stay so: after at most as many steps as host events its
latency lets pass, a hardware reset among those events has abandoned it (70_reset_and_hazards.md R270), or it is still
in flight and the next step is its completion: BUSY is 0 and exactly one of DONE and ERR is 1. -/
def Obligations.CommandInFlightCompletesUnlessReset : Prop :=
  ∀ s : State, busy s = true →
    ∃ (k : Nat) (u : State), k ≤ s.wait ∧ core.run k s = .next u ∧
      ((busy u = false ∧ ∃ cut, HostEvent.hwReset cut ∈ s.host.take k) ∨
       (busy u = true ∧ u.curCmd = s.curCmd ∧
        ∃ t, step u = .next t ∧ busy t = false ∧ done t = !err t))

/-! ### The commands: when each completes, what it leaves, what it does not touch -/

/-- 44_control.md R210: NOP completes in every state, whatever the shape and the seed, and changes only STATUS (DONE
alone) and ERRINFO (0). -/
def Obligations.NopOnlyCompletes : Prop :=
  ∀ s : State, exec .nop s = .next { s with status := 0x00000002#32, errinfo := 0#32 }

/-- 40_keystream.md R128: GEN with N ≤ N_MAX and an accepted seed writes KS[0 .. N-1] and XLAST from KSGEN and sets
DONE, and WARN for a degenerate seed; every other byte and register is unchanged. -/
def Obligations.GenWritesKeystream : Prop :=
  ∀ s : State, pixelCount s ≤ s.build.nMax → seedOk s.curX0 s.curR = true →
    ∃ m, exec .gen s =
        .next (doneWith m (degenerate s.curX0) (ksLast s.curR (pixelCount s) s.curX0) s) ∧
      (∀ i < pixelCount s, byteAt m (0x03000000 + i) = byteOf (ksBytes s.curR (pixelCount s) s.curX0) i) ∧
      ∀ a, ¬ inElems .ks (pixelCount s) a → byteAt m a = byteAt s.mem a

/-- 41_permutation.md R142, R140: DERIVE_PERM with N ≤ N_MAX writes PERM[pos(i)] = i for the ranks pos of the KS bytes,
and changes nothing else but STATUS and ERRINFO. -/
def Obligations.DerivePermWritesArgsort : Prop :=
  ∀ s : State, pixelCount s ≤ s.build.nMax →
    ∃ m, exec .derivePerm s = .next (doneKeep m s) ∧
      (∀ i < pixelCount s,
        wordElem (doneKeep m s) .perm (sortRank (byteElems s .ks (pixelCount s)) i) = BitVec.ofNat 32 i) ∧
      ∀ a, ¬ inElems .perm (pixelCount s) a → byteAt m a = byteAt s.mem a

/-- 41_permutation.md R144: INVERT_PERM with N ≤ N_MAX, every PERM entry below N and no two equal, writes
PINV[PERM[i]] = i, and changes nothing else but STATUS and ERRINFO. -/
def Obligations.InvertPermWritesInverse : Prop :=
  ∀ s : State, pixelCount s ≤ s.build.nMax →
    (∀ i < pixelCount s, (wordElem s .perm i).toNat < pixelCount s) →
    (∀ j < pixelCount s, ∀ i < j, wordElem s .perm i ≠ wordElem s .perm j) →
    ∃ m, exec .invertPerm s = .next (doneKeep m s) ∧
      (∀ i < pixelCount s, wordElem (doneKeep m s) .pinv (wordElem s .perm i).toNat = BitVec.ofNat 32 i) ∧
      ∀ a, ¬ inElems .pinv (pixelCount s) a → byteAt m a = byteAt s.mem a

/-- 41_permutation.md R145: GATHER with N ≤ N_MAX and every SEL entry below N writes B[i] = A[SEL[i]] (SEL need not be a
bijection), and changes nothing else but STATUS and ERRINFO. -/
def Obligations.GatherReorders : Prop :=
  ∀ (sel : TableSel) (dir : Dir) (s : State), pixelCount s ≤ s.build.nMax →
    (∀ i < pixelCount s, (wordElem s (selBuf sel) i).toNat < pixelCount s) →
    ∃ m, exec (.gather sel dir) s = .next (doneKeep m s) ∧
      (∀ i < pixelCount s, byteAt m ((destBuf dir).base + i) =
        byteElem s (sourceBuf dir) (wordElem s (selBuf sel) i).toNat) ∧
      ∀ a, ¬ inElems (destBuf dir) (pixelCount s) a → byteAt m a = byteAt s.mem a

/-- 42_masking.md R170, R171, R172: MASK.XOR, and in a build with BLEND_ADD MASK.ADD and MASK.SUB, with N ≤ N_MAX write
B[i] = A[i] XOR KS[i], (A[i] + KS[i]) mod 256, (A[i] - KS[i]) mod 256, and change nothing else but STATUS and
ERRINFO. -/
def Obligations.MaskBlends : Prop :=
  ∀ (dir : Dir) (s : State), pixelCount s ≤ s.build.nMax →
    (∃ m, exec (.maskXor dir) s = .next (doneKeep m s) ∧
      (∀ i < pixelCount s,
        byteAt m ((destBuf dir).base + i) = byteElem s (sourceBuf dir) i ^^^ byteElem s .ks i) ∧
      ∀ a, ¬ inElems (destBuf dir) (pixelCount s) a → byteAt m a = byteAt s.mem a) ∧
    (s.build.blendAdd = true →
      (∃ m, exec (.maskAdd dir) s = .next (doneKeep m s) ∧
        (∀ i < pixelCount s, (byteAt m ((destBuf dir).base + i)).toNat =
          ((byteElem s (sourceBuf dir) i).toNat + (byteElem s .ks i).toNat) % 256) ∧
        ∀ a, ¬ inElems (destBuf dir) (pixelCount s) a → byteAt m a = byteAt s.mem a) ∧
      (∃ m, exec (.maskSub dir) s = .next (doneKeep m s) ∧
        (∀ i < pixelCount s, ((byteAt m ((destBuf dir).base + i)).toNat : Int) =
          ((byteElem s (sourceBuf dir) i).toNat - (byteElem s .ks i).toNat : Int) % 256) ∧
        ∀ a, ¬ inElems (destBuf dir) (pixelCount s) a → byteAt m a = byteAt s.mem a))

/-- 43_cipher.md R190: ENCRYPT with N ≤ N_MAX and an accepted seed writes KS, PERM[pos(i)] = i,
DST[i] = SRC[PERM[i]] XOR KS[i] and XLAST; every other byte and register is unchanged. -/
def Obligations.EncryptWritesCiphertext : Prop :=
  ∀ s : State, s.build.wf = true → pixelCount s ≤ s.build.nMax → seedOk s.curX0 s.curR = true →
    ∃ t, exec .encrypt s = .next t ∧
      t = doneWith t.mem (degenerate s.curX0) (ksLast s.curR (pixelCount s) s.curX0) s ∧
      (∀ i < pixelCount s, byteElem t .ks i = byteOf (ksBytes s.curR (pixelCount s) s.curX0) i) ∧
      (∀ i < pixelCount s,
        wordElem t .perm (sortRank (ksBytes s.curR (pixelCount s) s.curX0) i) = BitVec.ofNat 32 i) ∧
      (∀ i < pixelCount s,
        byteElem t .dst i = byteElem s .src (wordElem t .perm i).toNat ^^^ byteElem t .ks i) ∧
      ∀ a, ¬ inElems .ks (pixelCount s) a → ¬ inElems .perm (pixelCount s) a →
        ¬ inElems .dst (pixelCount s) a → byteAt t.mem a = byteAt s.mem a

/-- 43_cipher.md R191: DECRYPT with N ≤ N_MAX and an accepted seed writes KS, PERM[pos(i)] = i, its inverse PINV,
DST[j] = SRC[PINV[j]] XOR KS[PINV[j]] and XLAST; every other byte and register is unchanged. -/
def Obligations.DecryptWritesPlaintext : Prop :=
  ∀ s : State, s.build.wf = true → pixelCount s ≤ s.build.nMax → seedOk s.curX0 s.curR = true →
    ∃ t, exec .decrypt s = .next t ∧
      t = doneWith t.mem (degenerate s.curX0) (ksLast s.curR (pixelCount s) s.curX0) s ∧
      (∀ i < pixelCount s, byteElem t .ks i = byteOf (ksBytes s.curR (pixelCount s) s.curX0) i) ∧
      (∀ i < pixelCount s,
        wordElem t .perm (sortRank (ksBytes s.curR (pixelCount s) s.curX0) i) = BitVec.ofNat 32 i) ∧
      (∀ i < pixelCount s, wordElem t .pinv (wordElem t .perm i).toNat = BitVec.ofNat 32 i) ∧
      (∀ j < pixelCount s, byteElem t .dst j =
        byteElem s .src (wordElem t .pinv j).toNat ^^^ byteElem t .ks (wordElem t .pinv j).toNat) ∧
      ∀ a, ¬ inElems .ks (pixelCount s) a → ¬ inElems .perm (pixelCount s) a →
        ¬ inElems .pinv (pixelCount s) a → ¬ inElems .dst (pixelCount s) a → byteAt t.mem a = byteAt s.mem a

/-- 92_eei_decisions.md D41, 60_exceptions.md R233: N = 0 is accepted by every command the build has; with an accepted
seed it completes with DONE, changes no byte of memory, and the seed-reading commands set XLAST to x0. -/
def Obligations.EmptyImageCompletes : Prop :=
  ∀ (i : Instr) (s : State), i.wf s.build.blendAdd = true → pixelCount s = 0 → seedOk s.curX0 s.curR = true →
    ∃ t, exec i s = .next t ∧ t.mem = s.mem ∧ done t = true ∧ err t = false ∧ t.errinfo = 0#32 ∧
      (i = .gen ∨ i = .encrypt ∨ i = .decrypt → t.xlastHi ++ t.xlastLo = s.curX0)

/-! ### Command errors and the warning -/

/-- 60_exceptions.md R233: every command but NOP ends in ShapeMismatch when N > N_MAX, before any other check, with
ERRINFO = 0 and nothing else changed. -/
def Obligations.TooLargeShapeIsShapeMismatch : Prop :=
  ∀ (i : Instr) (s : State), i ≠ .nop → i.wf s.build.blendAdd = true → s.build.nMax < pixelCount s →
    exec i s = .next { s with status := 0x00000204#32, errinfo := 0#32 }

/-- 60_exceptions.md R232: GEN, ENCRYPT and DECRYPT end in InvalidSeedRange when the sampled seed fails seed_ok (and
N ≤ N_MAX, R238), with ERRINFO = 0 and nothing else changed. -/
def Obligations.BadSeedIsInvalidSeedRange : Prop :=
  ∀ (i : Instr) (s : State), i = .gen ∨ i = .encrypt ∨ i = .decrypt → pixelCount s ≤ s.build.nMax →
    seedOk s.curX0 s.curR = false →
    exec i s = .next { s with status := 0x00000104#32, errinfo := 0#32 }

/-- 60_exceptions.md R235: INVERT_PERM on PERM, and GATHER on its table, end in PermIndexRange when some entry is not
below N (and N ≤ N_MAX, R238), with ERRINFO the smallest such index and nothing else changed. -/
def Obligations.EntryOutOfRangeIsPermIndexRange : Prop :=
  ∀ (s : State) (i : Nat), pixelCount s ≤ s.build.nMax → i < pixelCount s →
    ((∀ j < i, (wordElem s .perm j).toNat < pixelCount s) → pixelCount s ≤ (wordElem s .perm i).toNat →
      exec .invertPerm s = .next { s with status := 0x00000404#32, errinfo := BitVec.ofNat 32 i }) ∧
    ∀ (sel : TableSel) (dir : Dir),
      (∀ j < i, (wordElem s (selBuf sel) j).toNat < pixelCount s) →
      pixelCount s ≤ (wordElem s (selBuf sel) i).toNat →
      exec (.gather sel dir) s = .next { s with status := 0x00000404#32, errinfo := BitVec.ofNat 32 i }

/-- 60_exceptions.md R237: INVERT_PERM ends in PermNotBijective when every PERM entry is below N but two are equal (and
N ≤ N_MAX, R238), with ERRINFO the smallest i such that PERM[i] = PERM[j] for some j < i, and nothing else changed. -/
def Obligations.RepeatedEntryIsPermNotBijective : Prop :=
  ∀ (s : State) (i j : Nat), pixelCount s ≤ s.build.nMax →
    (∀ n < pixelCount s, (wordElem s .perm n).toNat < pixelCount s) →
    i < pixelCount s → j < i → wordElem s .perm i = wordElem s .perm j →
    (∀ n < i, ∀ k < n, wordElem s .perm n ≠ wordElem s .perm k) →
    exec .invertPerm s = .next { s with status := 0x00000504#32, errinfo := BitVec.ofNat 32 i }

/-- 60_exceptions.md R234 with log 9: in a build without BLEND_ADD the meanings of MASK.ADD and MASK.SUB are the
IllegalCommand that their words decode to, before the shape check. -/
def Obligations.AdditiveBlendAbsentIsIllegalCommand : Prop :=
  ∀ (dir : Dir) (s : State), s.build.blendAdd = false →
    exec (.maskAdd dir) s = .next { s with status := 0x00000304#32, errinfo := 0#32 } ∧
    exec (.maskSub dir) s = .next { s with status := 0x00000304#32, errinfo := 0#32 }

/-- 60_exceptions.md R236: an error is precise: a command that completes with ERR = 1 has changed STATUS and ERRINFO
alone, and STATUS holds ERR and a code of 1 to 5 and no other bit. -/
def Obligations.CommandErrorsArePrecise : Prop :=
  ∀ (i : Instr) (s t : State), exec i s = .next t → err t = true →
    t = { s with status := t.status, errinfo := t.errinfo } ∧
    busy t = false ∧ done t = false ∧ warn t = false ∧ 1 ≤ (errCode t).toNat ∧ (errCode t).toNat ≤ 5 ∧
    t.status &&& 0xFFFFF0F0#32 = 0#32

/-- 60_exceptions.md R240: WARN is set exactly at the completion without error of GEN, ENCRYPT or DECRYPT with a
degenerate sampled x0. -/
def Obligations.WarnExactlyOnDegenerateSeed : Prop :=
  ∀ (i : Instr) (s t : State), exec i s = .next t →
    (warn t = true ↔
      (i = .gen ∨ i = .encrypt ∨ i = .decrypt) ∧ err t = false ∧ degenerate s.curX0 = true)

/-! ### STATUS, CTRL and the interrupt -/

/-- 44_control.md R211: a STATUS write, in every state: DONE, WARN, and ERR with ERR_CODE are cleared by bits 1, 3 and
2; BUSY and everything else stays; the response is OKAY; a write of 0 changes nothing, and while BUSY = 1 (a legal
STATUS) no write changes anything. -/
def Obligations.StatusWriteClearsByBit : Prop :=
  ∀ (s : State) (v : Word), ∃ t, serve (.txn (.write 0x010#32 .w4 v)) s = t ∧
    t = { s with status := t.status, resp := .writeOkay } ∧
    busy t = busy s ∧
    done t = (done s && !v.getLsbD 1) ∧ warn t = (warn s && !v.getLsbD 3) ∧ err t = (err s && !v.getLsbD 2) ∧
    errCode t = (if v.getLsbD 2 then 0#4 else errCode s) ∧
    t.status &&& 0xFFFFF0F0#32 = s.status &&& 0xFFFFF0F0#32 ∧
    (v = 0#32 → t.status = s.status) ∧ (StatusLegal s → busy s = true → t.status = s.status)

/-- 44_control.md R212: a CTRL write while BUSY = 0: with bit 1 clear, IRQ_EN takes bit 0, the other bits are ignored,
and a read then returns {31'b0, IRQ_EN}; while BUSY = 1 it is a bus error. -/
def Obligations.CtrlWriteSetsIrqEnable : Prop :=
  ∀ (s : State) (v : Word),
    (busy s = false → v.getLsbD 1 = false →
      serve (.txn (.write 0x00C#32 .w4 v)) s =
        { s with ctrl := (if v.getLsbD 0 then 1#32 else 0#32), resp := .writeOkay } ∧
      memRead (serve (.txn (.write 0x00C#32 .w4 v)) s) 0x00C#32 .w4 =
        .ok (if v.getLsbD 0 then 1#32 else 0#32)) ∧
    (busy s = true → ∃ f, serve (.txn (.write 0x00C#32 .w4 v)) s = { s with resp := .busError f })

/-- 44_control.md R213: a CTRL write with bit 1 set while BUSY = 0 sets every variable register to its reset value and
keeps every buffer element; the snapshot becomes unspecified; while BUSY = 1 it is refused. -/
def Obligations.SoftResetClearsRegistersKeepsBuffers : Prop :=
  ∀ (s : State) (v : Word), v.getLsbD 1 = true →
    (busy s = false → ∃ (c : Word) (n x r : BitVec 64),
      serve (.txn (.write 0x00C#32 .w4 v)) s =
        { s with
          curCmd := c, curN := n, curX0 := x, curR := r, ctrl := 0#32, status := 0#32,
          x0Lo := 0#32, x0Hi := 0#32, rLo := 0#32, rHi := 0#32, height := 0#32, width := 0#32, xlastLo := 0#32,
          xlastHi := 0#32, errinfo := 0#32,
          resp := .writeOkay }) ∧
    (busy s = true → ∃ f, serve (.txn (.write 0x00C#32 .w4 v)) s = { s with resp := .busError f })

/-- 60_exceptions.md R245: the interrupt output is asserted by the completion of any command while IRQ_EN = 1, and by
setting IRQ_EN while DONE or ERR is 1; it is deasserted by clearing DONE and ERR, by clearing IRQ_EN, by the next
acceptance, and by either reset. -/
def Obligations.IrqFollowsStatusAndEnable : Prop :=
  (∀ s : State, irq s = (irqEn s && (done s || err s))) ∧
  (∀ (i : Instr) (s t : State), exec i s = .next t → irq t = irqEn s) ∧
  (∀ (v : Word) (s : State), busy s = false →
    irq (serve (.txn (.write 0x00C#32 .w4 v)) s) =
      (!v.getLsbD 1 && v.getLsbD 0 && (done s || err s))) ∧
  (∀ (v : Word) (s : State), v.getLsbD 1 = true → v.getLsbD 2 = true →
    irq (serve (.txn (.write 0x010#32 .w4 v)) s) = false) ∧
  (∀ (w : Word) (s : State), busy s = false → irq (serve (.txn (.write 0x014#32 .w4 w)) s) = false) ∧
  ∀ (s : State) (cut : Option Txn), irq (serve (.hwReset cut) s) = false

/-! ### The bus -/

/-- 20_memory.md R66: while BUSY = 0 an access is answered OKAY exactly when it is a legal register access or a legal
buffer access. -/
def Obligations.AccessLegalExactlyByAddressMap : Prop :=
  ∀ (s : State) (a : Word) (w : Width), s.build.wf = true → busy s = false →
    ((∃ d, memRead s a w = .ok d) ↔ (legalRegAccess a.toNat w false ∨ legalBufAccess s.build a.toNat w)) ∧
    ∀ v : Word,
      ((∃ t, memWrite s a w v = .ok t) ↔ (legalRegAccess a.toNat w true ∨ legalBufAccess s.build a.toNat w))

/-- 20_memory.md R67: a bus error changes nothing but the response, its data is 0, and the interrupt output stays. -/
def Obligations.BusErrorChangesNothing : Prop :=
  ∀ (t : Txn) (s : State) (f : Fault), (serveTxn t s).resp = .busError f →
    serveTxn t s = { s with resp := .busError f } ∧ respData (serveTxn t s).resp = 0#32 ∧
    irq (serveTxn t s) = irq s

/-- 20_memory.md R69: while BUSY = 1 a 4-byte read of any register returns its value, a STATUS write is allowed and (in
a legal STATUS) without effect, and every other access is a bus error; while BUSY = 0 nothing is locked out. -/
def Obligations.BusyLocksOutAllElse : Prop :=
  ∀ s : State,
    (busy s = true →
      (∀ (a : Word) (r : Reg), regAt a.toNat = some r → memRead s a .w4 = .ok (readReg s r)) ∧
      (∀ (a : Word) (w : Width) (d : Word), memRead s a w = .ok d → w = .w4 ∧ ∃ r, regAt a.toNat = some r) ∧
      (∀ (a : Word) (w : Width) (v : Word) (t : State), memWrite s a w v = .ok t → a = 0x010#32 ∧ w = .w4) ∧
      (∀ v : Word, StatusLegal s → memWrite s 0x010#32 .w4 v = .ok s)) ∧
    (busy s = false → ∀ (a : Word) (w : Width) (v : Word),
      memRead s a w ≠ .error .lockedOut ∧ memWrite s a w v ≠ .error .lockedOut)

/-- 20_memory.md R63, R64, R65, R70: an OKAY write of n bytes to a buffer stores byte k of the data at offset a + k,
touches no other byte and no register, and a read of the same bytes returns the n low bytes of the data; an OKAY read
of n bytes of a buffer returns the sum of the byte at a + k shifted left by 8k; no read that is answered OKAY, of a
register or of a buffer, changes anything but the response; and while BUSY = 0 a read of the size of an element returns
that element. -/
def Obligations.BufferAccessesAreLittleEndian : Prop :=
  (∀ (s t : State) (a : Word) (w : Width) (v : Word), 0x00010000 ≤ a.toNat → memWrite s a w v = .ok t →
    t = { s with mem := t.mem } ∧
    (∀ k < w.bytes, byteAt t.mem (a.toNat + k) = v.extractLsb' (8 * k) 8) ∧
    (∀ x, ¬ (a.toNat ≤ x ∧ x < a.toNat + w.bytes) → byteAt t.mem x = byteAt s.mem x) ∧
    memRead t a w = .ok (BitVec.ofNat 32 (v.toNat % 256 ^ w.bytes))) ∧
  (∀ (s : State) (a : Word) (w : Width) (d : Word), 0x00010000 ≤ a.toNat → memRead s a w = .ok d →
    d.toNat = ((List.range w.bytes).map (fun k => (byteAt s.mem (a.toNat + k)).toNat <<< (8 * k))).sum) ∧
  (∀ (s : State) (a : Word) (w : Width) (d : Word), memRead s a w = .ok d →
    serve (.txn (.read a w)) s = { s with resp := .readOkay d }) ∧
  ∀ (s : State) (b : Buf) (i : Nat), s.build.wf = true → busy s = false → i < s.build.nMax →
    (b.elemBytes = 1 → memRead s (BitVec.ofNat 32 (b.base + i)) .w1 = .ok ((byteElem s b i).setWidth 32)) ∧
    (b.elemBytes = 4 → memRead s (BitVec.ofNat 32 (b.base + 4 * i)) .w4 = .ok (wordElem s b i))

/-- 20_memory.md R68: a 1-byte write to byte k of PERM[i] sets bits [8k+7:8k] of the element and keeps its other bits
and every other element. -/
def Obligations.NarrowWriteKeepsOtherBytes : Prop :=
  ∀ (s : State) (i k : Nat) (v : Word), s.build.wf = true → busy s = false → i < s.build.nMax → k < 4 →
    ∃ t, memWrite s (BitVec.ofNat 32 (0x04000000 + 4 * i + k)) .w1 v = .ok t ∧
      (wordElem t .perm i).extractLsb' (8 * k) 8 = v.extractLsb' 0 8 ∧
      (∀ j < 4, j ≠ k →
        (wordElem t .perm i).extractLsb' (8 * j) 8 = (wordElem s .perm i).extractLsb' (8 * j) 8) ∧
      ∀ n, n ≠ i → wordElem t .perm n = wordElem s .perm n

/-- 10_state.md R22 to R34, 20_memory.md R64: what a host read of each of the fifteen registers returns, in every state
(while BUSY = 1 too), and that it changes nothing but the response: ID, CAPS and NMAX are hard-wired, CTRL shows IRQ_EN
alone, CMD reads 0, and the others read the register's field. -/
def Obligations.RegistersReadTheirValues : Prop :=
  ∀ s : State,
    (∀ p ∈ ([
        (0x000#32, 0x4C4D4B47#32),
        (0x004#32, if s.build.blendAdd then 0x00000101#32 else 0x00000100#32),
        (0x008#32, BitVec.ofNat 32 s.build.nMax),
        (0x00C#32, if s.ctrl.getLsbD 0 then 1#32 else 0#32),
        (0x010#32, s.status),
        (0x014#32, 0#32),
        (0x018#32, s.x0Lo),
        (0x01C#32, s.x0Hi),
        (0x020#32, s.rLo),
        (0x024#32, s.rHi),
        (0x028#32, s.height),
        (0x02C#32, s.width),
        (0x030#32, s.xlastLo),
        (0x034#32, s.xlastHi),
        (0x038#32, s.errinfo)] : List (Word × Word)),
      memRead s p.1 .w4 = .ok p.2 ∧ serve (.txn (.read p.1 .w4)) s = { s with resp := .readOkay p.2 }) ∧
    (s.build.wf = true → (BitVec.ofNat 32 s.build.nMax).toNat = s.build.nMax)

/-- 10_state.md R29 to R32: each of X0_LO, X0_HI, R_LO, R_HI, HEIGHT and WIDTH takes every value while BUSY = 0, reads
back as written, and its write changes no other register and no buffer. -/
def Obligations.SeedAndShapeRegistersReadBack : Prop :=
  ∀ (s : State) (v : Word), busy s = false →
    memWrite s 0x018#32 .w4 v = .ok { s with x0Lo := v } ∧
    memWrite s 0x01C#32 .w4 v = .ok { s with x0Hi := v } ∧
    memWrite s 0x020#32 .w4 v = .ok { s with rLo := v } ∧
    memWrite s 0x024#32 .w4 v = .ok { s with rHi := v } ∧
    memWrite s 0x028#32 .w4 v = .ok { s with height := v } ∧
    memWrite s 0x02C#32 .w4 v = .ok { s with width := v } ∧
    ∀ (a : Word) (t : State), 0x018 ≤ a.toNat → a.toNat ≤ 0x02C → memWrite s a .w4 v = .ok t →
      memRead t a .w4 = .ok v

/-! ### Reset -/

/-- 70_reset_and_hazards.md R270, R271: at power-on, after the host's hardware reset event in any state, and after a
soft reset (a CTRL write with bit 1 set while BUSY = 0) every variable register is 0, the unit is idle and IRQ is
deasserted. The hardware reset keeps the build, and a transaction it cuts short has no effect and leaves no response
(log 13). Power-on contents are the unspecified ones (a free value, log 4). -/
def Obligations.ResetLeavesRegistersZero : Prop :=
  (∀ s t : State,
    (t = State.reset ∨ (∃ cut, t = serve (.hwReset cut) s) ∨
      ∃ v : Word, v.getLsbD 1 = true ∧ busy s = false ∧ t = serve (.txn (.write 0x00C#32 .w4 v)) s) →
    t.ctrl = 0#32 ∧ t.status = 0#32 ∧ t.x0Lo = 0#32 ∧ t.x0Hi = 0#32 ∧ t.rLo = 0#32 ∧ t.rHi = 0#32 ∧
    t.height = 0#32 ∧ t.width = 0#32 ∧ t.xlastLo = 0#32 ∧ t.xlastHi = 0#32 ∧ t.errinfo = 0#32 ∧
    busy t = false ∧ irq t = false) ∧
  (∀ (s : State) (cut : Option Txn),
    (serve (.hwReset cut) s).build = s.build ∧ (serve (.hwReset cut) s).host = s.host ∧
    (serve (.hwReset cut) s).resp = .none ∧ serve (.hwReset cut) s = serve (.hwReset none) s) ∧
  ∀ a, byteAt State.reset.mem a = Config.powerOn a

/-- 70_reset_and_hazards.md R270, R272: the host's hardware reset event, in any state and whatever transaction it cuts
short, abandons the command in flight and changes no byte that the command could not write: none while idle or for an
illegal word, else only elements 0 to N - 1 of its destinations (log 6). -/
def Obligations.HardwareResetKeepsOtherBytes : Prop :=
  ∀ (s : State) (cut : Option Txn),
    busy (serve (.hwReset cut) s) = false ∧
    (busy s = false → (serve (.hwReset cut) s).mem = s.mem) ∧
    ((∀ i, decode s.build.blendAdd s.curCmd ≠ .ok i) → (serve (.hwReset cut) s).mem = s.mem) ∧
    ∀ (i : Instr) (a : Nat), decode s.build.blendAdd s.curCmd = .ok i →
      (∀ b ∈ writesTo i, ¬ inElems b (pixelCount s) a) →
      byteAt (serve (.hwReset cut) s).mem a = byteAt s.mem a

/-! ### The invariant -/

/-- The invariant holds at reset. -/
def Obligations.ResetMeetsInvariant : Prop := Inv State.reset

/-- 10_state.md R26, R27, R40, R52, 20_memory.md R69, R71: every step keeps the invariant: the storage canonical and
inside the mapped bytes, reserved bits 0, STATUS legal, the snapshot agreeing with the registers while BUSY = 1, and
the build unchanged. -/
def Obligations.StepKeepsInvariant : Prop :=
  ∀ s t : State, Inv s → step s = .next t → Inv t ∧ t.build = s.build

/-! ### Binary64 -/

/-- 00_scope.md R13, 40_keystream.md R120, with the layout and the zeros' signs of log 16: fmul of finite values has the
sign of the exact product (also where the result is a zero); it is the exact product rounded to nearest, ties to even,
subnormals included, where the exact product is below the overflow bound, and an infinity exactly from there on. -/
def Obligations.FmulRoundsToNearestEven : Prop :=
  ∀ a b : F64, f64Finite a → f64Finite b →
    f64Sign (fmul a b) = (f64Sign a != f64Sign b) ∧
    ((f64Val a * f64Val b).natAbs < f64Overflow * 2 ^ 1074 → nearestEven (f64Val a * f64Val b) 1074 (fmul a b)) ∧
    (f64Overflow * 2 ^ 1074 ≤ (f64Val a * f64Val b).natAbs → f64IsInf (fmul a b) = true)

/-- 00_scope.md R13, 40_keystream.md R120, with the layout and the zeros' signs of log 16: fsub of finite values has the
sign of the exact difference, and of equal values is +0.0 but for -0.0 less +0.0, which is -0.0; it is the exact
difference rounded to nearest, ties to even, subnormals included, where the exact difference is below the overflow
bound, and an infinity exactly from there on. -/
def Obligations.FsubRoundsToNearestEven : Prop :=
  ∀ a b : F64, f64Finite a → f64Finite b →
    f64Sign (fsub a b) =
      (if f64Val a = f64Val b then f64Sign a && !f64Sign b else decide (f64Val a < f64Val b)) ∧
    ((f64Val a - f64Val b).natAbs < f64Overflow → nearestEven (f64Val a - f64Val b) 0 (fsub a b)) ∧
    (f64Overflow ≤ (f64Val a - f64Val b).natAbs → f64IsInf (fsub a b) = true)

/-- 00_scope.md R13 (values by the layout of log 16): on finite values fle and feq compare the real values (so -0.0
equals +0.0), and with a NaN on either side both are false. -/
def Obligations.ComparisonsFollowRealValues : Prop :=
  ∀ a b : F64,
    (f64Finite a → f64Finite b →
      fle a b = decide (f64Val a ≤ f64Val b) ∧ feq a b = decide (f64Val a = f64Val b)) ∧
    (f64IsNaN a = true ∨ f64IsNaN b = true → fle a b = false ∧ feq a b = false)

/-! ### The keystream -/

/-- 40_keystream.md R125 (values by the layout of log 16): the seed check accepts exactly the finite pairs with 0 ≤ x0 ≤
1 and 3.5 ≤ r ≤ 4 (in units of 2^-1074): a NaN or an infinity is rejected, -0.0 is accepted. -/
def Obligations.SeedAcceptedExactlyInRange : Prop :=
  ∀ x0 r : F64, seedOk x0 r = true ↔
    f64Finite x0 ∧ f64Finite r ∧ 0 ≤ f64Val x0 ∧ f64Val x0 ≤ 2 ^ 1074 ∧
      7 * 2 ^ 1073 ≤ f64Val r ∧ f64Val r ≤ 2 ^ 1076

/-- 40_keystream.md R126 (patterns by the layout of log 16): the degenerate x0 are +0.0, -0.0 and 1.0. -/
def Obligations.DegenerateExactlyZeroOrOne : Prop :=
  ∀ x0 : F64, degenerate x0 = true ↔
    x0 = 0x0000000000000000#64 ∨ x0 = 0x8000000000000000#64 ∨ x0 = 0x3FF0000000000000#64

/-- 40_keystream.md R124 (values by the layout of log 16): from x0 in [0, 1] and r in [0, 4] every iterate stays in [0,
1] and is never NaN or infinite, so every keystream byte is floor(256 · x) of its iterate x, but 0 for an iterate of
exactly 1.0. -/
def Obligations.IteratesStayInUnitInterval : Prop :=
  ∀ (x0 r : F64) (n : Nat), inUnit x0 = true → fle f64Zero r = true → fle r rMax = true →
    inUnit (ksLast r n x0) = true ∧ f64Finite (ksLast r n x0) ∧
    ∀ k < n, ((byteOf (ksBytes r n x0) k).toNat : Int) =
      if f64Val (ksLast r (k + 1) x0) = 2 ^ 1074 then 0 else f64Val (ksLast r (k + 1) x0) * 256 / 2 ^ 1074

/-- 40_keystream.md R122 (values by the layout of log 16): the quantisation of an iterate in [0, 1] is floor(256 · x)
mod 256, the product with 256 being exact; 1.0 gives 0. -/
def Obligations.QuantiseIsFloorOf256x : Prop :=
  (∀ x : F64, inUnit x = true → ((quantise x).toNat : Int) = (f64Val x * 256 / 2 ^ 1074) % 256) ∧
  quantise 0x3FF0000000000000#64 = 0#8

/-- 40_keystream.md R127, R123, R121: byte k of the keystream is the quantised iterate k + 1, where iterate 0 is the
seed and each iterate is (r·x)·(1 - x) of the one before; the length n matters to no byte, so the first n bytes of a
longer keystream are the keystream of length n. -/
def Obligations.KeystreamBytesAreQuantisedIterates : Prop :=
  ∀ (x0 r : F64) (n m : Nat), n ≤ m →
    (ksBytes r m x0).take n = ksBytes r n x0 ∧ (ksBytes r n x0).length = n ∧ ksLast r 0 x0 = x0 ∧
    ∀ k < n, byteOf (ksBytes r n x0) k = quantise (ksLast r (k + 1) x0) ∧
      ksLast r (k + 1) x0 = fmul (fmul r (ksLast r k x0)) (fsub f64One (ksLast r k x0))

/-- 40_keystream.md R128, 43_cipher.md R190 (patterns by the layout of log 16): an accepted degenerate seed gives an
all-zero keystream, the identity permutation, and for n > 0 the last iterate +0.0 from +0.0 and from 1.0, and -0.0 from
-0.0. -/
def Obligations.DegenerateSeedGivesZeroKeystream : Prop :=
  ∀ (x0 r : F64) (n : Nat), seedOk x0 r = true → degenerate x0 = true →
    ksBytes r n x0 = List.replicate n 0#8 ∧ argsort (ksBytes r n x0) = List.range n ∧
    (0 < n → ksLast r n x0 =
      if x0 = 0x8000000000000000#64 then 0x8000000000000000#64 else 0x0000000000000000#64)

/-! ### The permutation -/

/-- 41_permutation.md R140: the argsort P of a byte sequence is a bijection of its indices with P[pos(i)] = i, and it
lists the indices in ascending order of the pair (k[i], i). -/
def Obligations.ArgsortIsTheStableAscendingSort : Prop :=
  ∀ k : List Byte,
    isBijection (argsort k) k.length ∧
    (∀ i < k.length, (argsort k).getD (sortRank k i) 0 = i) ∧
    ∀ a b, a < b → b < k.length →
      (byteOf k ((argsort k).getD a 0)).toNat < (byteOf k ((argsort k).getD b 0)).toNat ∨
      (byteOf k ((argsort k).getD a 0) = byteOf k ((argsort k).getD b 0) ∧
        (argsort k).getD a 0 < (argsort k).getD b 0)

/-- 41_permutation.md R140: the counting sort over the 256 byte values gives the same P. -/
def Obligations.CountingSortGivesTheArgsort : Prop := ∀ k : List Byte, countingSort k = argsort k

/-- 41_permutation.md R141: the inverse Q of a bijection P has Q[P[i]] = i and P[Q[j]] = j, and reordering by P and then
by Q, or by Q and then by P, returns the original sequence, where reordering a by a table S gives b[i] = a[S[i]]. -/
def Obligations.InverseTableUndoesReorder : Prop :=
  ∀ (p : List Nat) (n : Nat), isBijection p n →
    isBijection (invertTable p) n ∧
    (∀ i < n, (invertTable p).getD (p.getD i 0) 0 = i) ∧
    (∀ j < n, p.getD ((invertTable p).getD j 0) 0 = j) ∧
    (∀ (a : List Byte) (t : List Nat), ∀ i < t.length, byteOf (reorder a t) i = byteOf a (t.getD i 0)) ∧
    ∀ a : List Byte, a.length = n →
      reorder (reorder a p) (invertTable p) = a ∧ reorder (reorder a (invertTable p)) p = a

/-- 41_permutation.md R146: after DERIVE_PERM, neither INVERT_PERM nor GATHER PERM with the same N ends in
PermIndexRange (code 4), nor INVERT_PERM in PermNotBijective (code 5); and with N ≤ N_MAX both complete without error.
-/
def Obligations.DerivedPermIsAccepted : Prop :=
  ∀ s : State, s.build.wf = true →
    ∃ t u, runCommand .derivePerm s = .next t ∧ runCommand .invertPerm t = .next u ∧
      errCode u ≠ 4#4 ∧ errCode u ≠ 5#4 ∧ (shapeCount s ≤ s.build.nMax → done u = true ∧ err u = false) ∧
      ∀ dir, ∃ v, runCommand (.gather .perm dir) t = .next v ∧
        errCode v ≠ 4#4 ∧ (shapeCount s ≤ s.build.nMax → done v = true ∧ err v = false)

/-- 41_permutation.md R147: with PINV the inverse of PERM on [0, N), GATHER PERM, S2D and then GATHER PINV, D2S leave
SRC[0 .. N-1] as it was, and so do GATHER PINV, S2D and then GATHER PERM, D2S. -/
def Obligations.GatherThereAndBackKeepsSource : Prop :=
  ∀ s : State, s.build.wf = true → shapeCount s ≤ s.build.nMax →
    (∀ i < shapeCount s, (wordElem s .perm i).toNat < shapeCount s) →
    (∀ i < shapeCount s, wordElem s .pinv (wordElem s .perm i).toNat = BitVec.ofNat 32 i) →
    (∃ t, runCommands [.gather .perm .s2d, .gather .pinv .d2s] s = .next t ∧ err t = false ∧
      ∀ i < shapeCount s, byteElem t .src i = byteElem s .src i) ∧
    (∃ t, runCommands [.gather .pinv .s2d, .gather .perm .d2s] s = .next t ∧ err t = false ∧
      ∀ i < shapeCount s, byteElem t .src i = byteElem s .src i)

/-! ### Masking and the pipelines -/

/-- 42_masking.md R173: MASK.XOR S2D and then D2S, and in a build with BLEND_ADD the pairs ADD, SUB and SUB, ADD, leave
SRC[0 .. N-1] as it was. -/
def Obligations.MaskThereAndBackKeepsSource : Prop :=
  ∀ s : State, s.build.wf = true → shapeCount s ≤ s.build.nMax →
    ∀ p : List Instr,
      p = [.maskXor .s2d, .maskXor .d2s] ∨
        (s.build.blendAdd = true ∧ (p = [.maskAdd .s2d, .maskSub .d2s] ∨ p = [.maskSub .s2d, .maskAdd .d2s])) →
      ∃ t, runCommands p s = .next t ∧ err t = false ∧
        ∀ i < shapeCount s, byteElem t .src i = byteElem s .src i

/-- 43_cipher.md R192: ENCRYPT equals the primitive sequence GEN; DERIVE_PERM; GATHER PERM, S2D; MASK.XOR D2S: the same
KS, PERM and XLAST, GEN's WARN is ENCRYPT's (and is gone at the end), and SRC[0 .. N-1] holds what ENCRYPT writes to
DST; the sequence leaves the reordered plaintext in DST and overwrites SRC, which ENCRYPT does not. -/
def Obligations.EncryptEqualsPrimitiveSequence : Prop :=
  ∀ s : State, s.build.wf = true → shapeCount s ≤ s.build.nMax → seedOk (seedX0 s) (seedR s) = true →
    ∃ t g u, runCommand .encrypt s = .next t ∧ runCommand .gen s = .next g ∧
      runCommands [.gen, .derivePerm, .gather .perm .s2d, .maskXor .d2s] s = .next u ∧
      done t = true ∧ done u = true ∧ warn g = warn t ∧ warn u = false ∧
      u.xlastLo = t.xlastLo ∧ u.xlastHi = t.xlastHi ∧
      ∀ i < shapeCount s,
        byteElem u .ks i = byteElem t .ks i ∧ wordElem u .perm i = wordElem t .perm i ∧
        byteElem u .src i = byteElem t .dst i ∧ byteElem t .src i = byteElem s .src i ∧
        byteElem u .dst i = byteElem s .src (wordElem t .perm i).toNat

/-- 43_cipher.md R193: DECRYPT equals the primitive sequence GEN; DERIVE_PERM; INVERT_PERM; MASK.XOR S2D; GATHER PINV,
D2S: the same KS, PERM, PINV and XLAST, GEN's WARN is DECRYPT's (and is gone at the end), SRC[0 .. N-1] holds what
DECRYPT writes to DST, and DST holds the intermediate y[i] = c[i] XOR ks[i]; DECRYPT itself keeps SRC. -/
def Obligations.DecryptEqualsPrimitiveSequence : Prop :=
  ∀ s : State, s.build.wf = true → shapeCount s ≤ s.build.nMax → seedOk (seedX0 s) (seedR s) = true →
    ∃ t g u, runCommand .decrypt s = .next t ∧ runCommand .gen s = .next g ∧
      runCommands [.gen, .derivePerm, .invertPerm, .maskXor .s2d, .gather .pinv .d2s] s = .next u ∧
      done t = true ∧ done u = true ∧ warn g = warn t ∧ warn u = false ∧
      u.xlastLo = t.xlastLo ∧ u.xlastHi = t.xlastHi ∧
      ∀ i < shapeCount s,
        byteElem u .ks i = byteElem t .ks i ∧ wordElem u .perm i = wordElem t .perm i ∧
        wordElem u .pinv i = wordElem t .pinv i ∧ byteElem u .src i = byteElem t .dst i ∧
        byteElem t .src i = byteElem s .src i ∧
        byteElem u .dst i = byteElem s .src i ^^^ byteElem t .ks i

/-- 43_cipher.md R194: the round trip: ENCRYPT, any copy of DST[0 .. N-1] into SRC with the seed and shape registers
unchanged, then DECRYPT, and DST[0 .. N-1] is the plaintext again. -/
def Obligations.DecryptUndoesEncrypt : Prop :=
  ∀ s : State, s.build.wf = true → shapeCount s ≤ s.build.nMax → seedOk (seedX0 s) (seedR s) = true →
    ∃ t, runCommand .encrypt s = .next t ∧ done t = true ∧
      ∀ t', sameSetup s t' → (∀ i < shapeCount s, byteElem t' .src i = byteElem t .dst i) →
        ∃ u, runCommand .decrypt t' = .next u ∧ done u = true ∧
          ∀ i < shapeCount s, byteElem u .dst i = byteElem s .src i

/-- 43_cipher.md R195, 40_keystream.md R129: what GEN writes depends on X0, R and N alone, and what ENCRYPT and DECRYPT
write on these and SRC[0 .. N-1]: not on KS, PERM, PINV, DST, any other state, or the build (as long as N ≤ N_MAX holds
in both or in neither). -/
def Obligations.PipelinesDependOnSeedShapeAndSource : Prop :=
  ∀ (i : Instr) (s s' : State), i = .gen ∨ i = .encrypt ∨ i = .decrypt →
    s.build.wf = true → s'.build.wf = true → (pixelCount s ≤ s.build.nMax ↔ pixelCount s ≤ s'.build.nMax) →
    s'.curX0 = s.curX0 → s'.curR = s.curR → s'.curN = s.curN →
    (i ≠ .gen → ∀ n < pixelCount s, byteElem s' .src n = byteElem s .src n) →
    ∃ t t', exec i s = .next t ∧ exec i s' = .next t' ∧ t'.status = t.status ∧ t'.errinfo = t.errinfo ∧
      (done t = true → t'.xlastLo = t.xlastLo ∧ t'.xlastHi = t.xlastHi ∧
        ∀ b ∈ writesTo i, ∀ a, inElems b (pixelCount s) a → byteAt t'.mem a = byteAt t.mem a)
end

