-- ==== Sys2Proof/Laws/Binary64.lean ====
section
/-! SUPPORT. The laws of the binary64 patterns: the fields of a pattern, the magnitude that its lower 63 bits stand for,
and what rounding a magnitude gives (00_scope.md R13, 40_keystream.md R120). -/

namespace Sys2Proof.Machine

/-! ### The fields of a pattern -/

/-- The lower 63 bits of a pattern, as a number. -/
def f64Low (a : F64) : Nat := (a.extractLsb' 0 63).toNat

theorem f64Low_lt (a : F64) : f64Low a < 2 ^ 63 := (a.extractLsb' 0 63).isLt

theorem f64Low_eq (a : F64) : f64Low a = a.toNat % 2 ^ 63 := by
  simp [f64Low]

theorem f64Exp_eq (a : F64) : f64Exp a = f64Low a / 2 ^ 52 := by
  have := a.isLt
  simp only [f64Exp, f64Low_eq, BitVec.extractLsb'_toNat, Nat.shiftRight_eq_div_pow]
  omega

theorem f64Frac_eq (a : F64) : f64Frac a = f64Low a % 2 ^ 52 := by
  simp only [f64Frac, f64Low_eq, BitVec.extractLsb'_toNat, Nat.shiftRight_eq_div_pow]
  omega

theorem f64Sign_eq (a : F64) : f64Sign a = decide (2 ^ 63 ≤ a.toNat) := by
  have := a.isLt
  rw [f64Sign, BitVec.getLsbD, Nat.testBit_eq_decide_div_mod_eq]
  congr 1
  apply propext
  omega

theorem f64Pack_toNat (s : Bool) {n : Nat} (h : n < 2 ^ 63) :
    (f64Pack s n).toNat = (if s then 2 ^ 63 else 0) + n := by
  have hn : (BitVec.ofNat 63 n).toNat = n := by rw [BitVec.toNat_ofNat, Nat.mod_eq_of_lt h]
  rw [f64Pack, BitVec.toNat_append, hn, ← Nat.shiftLeft_add_eq_or_of_lt h, Nat.shiftLeft_eq]
  cases s <;> simp

@[simp] theorem f64Sign_pack (s : Bool) {n : Nat} (h : n < 2 ^ 63) : f64Sign (f64Pack s n) = s := by
  rw [f64Sign_eq, f64Pack_toNat s h]
  cases s
  · simp; omega
  · simp

theorem f64Low_pack (s : Bool) {n : Nat} (h : n < 2 ^ 63) : f64Low (f64Pack s n) = n := by
  rw [f64Low_eq, f64Pack_toNat s h]
  cases s <;> simp <;> omega

/-- A pattern is its sign and its lower 63 bits. -/
theorem f64Pack_sign_low (a : F64) : f64Pack (f64Sign a) (f64Low a) = a := by
  apply BitVec.eq_of_toNat_eq
  rw [f64Pack_toNat _ (f64Low_lt a), f64Sign_eq, f64Low_eq]
  have := a.isLt
  by_cases h : 2 ^ 63 ≤ a.toNat <;> simp only [h, decide_true, decide_false, if_true, if_false, Bool.false_eq_true] <;>
    omega

theorem f64Finite_iff (a : F64) : f64Finite a ↔ f64Low a < f64InfBits := by
  have := f64Low_lt a
  rw [f64Finite, f64Exp_eq, f64InfBits]
  omega

theorem f64IsNaN_eq (a : F64) : f64IsNaN a = decide (f64InfBits < f64Low a) := by
  have := f64Low_lt a
  rw [f64IsNaN, f64Exp_eq, f64Frac_eq, f64InfBits, Bool.eq_iff_iff]
  simp only [Bool.and_eq_true, beq_iff_eq, bne_iff_ne, decide_eq_true_eq]
  omega

theorem f64IsInf_eq (a : F64) : f64IsInf a = decide (f64Low a = f64InfBits) := by
  have := f64Low_lt a
  rw [f64IsInf, f64Exp_eq, f64Frac_eq, f64InfBits, Bool.eq_iff_iff]
  simp only [Bool.and_eq_true, beq_iff_eq, decide_eq_true_eq]
  omega

theorem f64InfBits_lt : f64InfBits < 2 ^ 63 := by decide

/-! ### The magnitude of lower bits -/

/-- The magnitude that lower 63 bits stand for, in units of 2^-1074. -/
def lowMag (n : Nat) : Nat :=
  if n / 2 ^ 52 = 0 then n % 2 ^ 52 else (2 ^ 52 + n % 2 ^ 52) * 2 ^ (n / 2 ^ 52 - 1)

theorem f64Mag_eq (a : F64) : f64Mag a = lowMag (f64Low a) := by rw [f64Mag, lowMag, f64Exp_eq, f64Frac_eq]

/-- A magnitude is 53 bits at a place. -/
theorem lowMag_eq (n : Nat) : ∃ f, f < 2 ^ 53 ∧ lowMag n = f * 2 ^ (n / 2 ^ 52 - 1) := by
  unfold lowMag
  split
  · rename_i h
    refine ⟨n % 2 ^ 52, by omega, ?_⟩
    rw [h]; simp
  · exact ⟨2 ^ 52 + n % 2 ^ 52, by omega, rfl⟩

theorem lowMag_lt (n : Nat) : lowMag n < 2 ^ (52 + n / 2 ^ 52) := by
  unfold lowMag
  split
  · rename_i h
    rw [h]; omega
  · rename_i h
    obtain ⟨e, he⟩ : ∃ e, n / 2 ^ 52 = e + 1 := ⟨n / 2 ^ 52 - 1, by omega⟩
    rw [he, Nat.add_sub_cancel, show 52 + (e + 1) = 53 + e by omega, Nat.pow_add]
    exact Nat.mul_lt_mul_of_pos_right (by omega) (Nat.two_pow_pos e)

theorem le_lowMag {n e : Nat} (h : n / 2 ^ 52 = e + 1) : 2 ^ (52 + e) ≤ lowMag n := by
  unfold lowMag
  rw [if_neg (by omega), h, Nat.add_sub_cancel, Nat.pow_add]
  exact Nat.mul_le_mul_right _ (by omega)

/-- Lower bits order magnitudes. -/
theorem lowMag_lt_lowMag {m n : Nat} (h : m < n) : lowMag m < lowMag n := by
  have hle : m / 2 ^ 52 ≤ n / 2 ^ 52 := Nat.div_le_div_right (Nat.le_of_lt h)
  by_cases he : m / 2 ^ 52 = n / 2 ^ 52
  · unfold lowMag
    rw [he]
    split
    · omega
    · exact Nat.mul_lt_mul_of_pos_right (by omega) (Nat.two_pow_pos _)
  · obtain ⟨e, hn⟩ : ∃ e, n / 2 ^ 52 = e + 1 := ⟨n / 2 ^ 52 - 1, by omega⟩
    have h1 := lowMag_lt m
    have h2 := le_lowMag hn
    have h3 : 2 ^ (52 + m / 2 ^ 52) ≤ 2 ^ (52 + e) := Nat.pow_le_pow_right (by omega) (by omega)
    omega

theorem lowMag_le_lowMag {m n : Nat} : lowMag m ≤ lowMag n ↔ m ≤ n := by
  constructor
  · intro h
    by_contra hc
    have := lowMag_lt_lowMag (Nat.lt_of_not_le hc)
    omega
  · intro h
    rcases Nat.lt_or_eq_of_le h with h | rfl
    · exact Nat.le_of_lt (lowMag_lt_lowMag h)
    · exact Nat.le_refl _

theorem lowMag_inj {m n : Nat} (h : lowMag m = lowMag n) : m = n := by
  have h1 := lowMag_le_lowMag.1 (Nat.le_of_eq h)
  have h2 := lowMag_le_lowMag.1 (Nat.le_of_eq h.symm)
  omega

@[simp] theorem lowMag_zero : lowMag 0 = 0 := by simp [lowMag]

/-- The lower bits of a significand at a kept place stand for the significand times the place. -/
theorem lowMag_place {p q : Nat} (hq : q ≤ 2 ^ 53) (h : p = 0 ∨ 2 ^ 52 ≤ q) : lowMag (p * 2 ^ 52 + q) = q * 2 ^ p := by
  unfold lowMag
  rcases Nat.lt_trichotomy q (2 ^ 52) with hlt | heq | hgt
  · have hp : p = 0 := by omega
    subst hp
    rw [if_pos (by omega)]
    simp; omega
  · rw [heq, if_neg (by omega), show (p * 2 ^ 52 + 2 ^ 52) / 2 ^ 52 - 1 = p by omega,
      show (p * 2 ^ 52 + 2 ^ 52) % 2 ^ 52 = 0 by omega, Nat.add_zero]
  · rw [if_neg (by omega)]
    rcases Nat.lt_or_eq_of_le hq with hlt | heq
    · rw [show (p * 2 ^ 52 + q) / 2 ^ 52 - 1 = p by omega, show 2 ^ 52 + (p * 2 ^ 52 + q) % 2 ^ 52 = q by omega]
    · rw [heq, show (p * 2 ^ 52 + 2 ^ 53) / 2 ^ 52 - 1 = p + 1 by omega,
        show (p * 2 ^ 52 + 2 ^ 53) % 2 ^ 52 = 0 by omega, Nat.add_zero, Nat.pow_succ]
      omega

/-! ### Rounding a magnitude -/

theorem roundShift_bounds (a d : Nat) : a / 2 ^ d ≤ roundShift a d ∧ roundShift a d ≤ a / 2 ^ d + 1 := by
  unfold roundShift
  split <;> omega

/-- An exact quotient is kept. -/
@[simp] theorem roundShift_mul (w d : Nat) : roundShift (w * 2 ^ d) d = w := by
  have h := Nat.two_pow_pos d
  unfold roundShift
  rw [Nat.mul_mod_left, Nat.mul_div_cancel _ h, if_neg (by omega)]

theorem roundShift_mono {a b : Nat} (d : Nat) (h : a ≤ b) : roundShift a d ≤ roundShift b d := by
  have hd : a / 2 ^ d ≤ b / 2 ^ d := Nat.div_le_div_right h
  by_cases he : a / 2 ^ d = b / 2 ^ d
  · have ha := Nat.div_add_mod a (2 ^ d)
    have hb := Nat.div_add_mod b (2 ^ d)
    rw [he] at ha
    unfold roundShift
    rw [he]
    generalize 2 ^ d * (b / 2 ^ d) = x at ha hb
    generalize b / 2 ^ d = y
    generalize a % 2 ^ d = m at *
    generalize b % 2 ^ d = n at *
    split <;> split <;> omega
  · have := roundShift_bounds a d
    have := roundShift_bounds b d
    omega

theorem keptPlace_mono {v w : Nat} (h : v ≤ w) : keptPlace v ≤ keptPlace w := by
  unfold keptPlace
  have : Nat.log2 v ≤ Nat.log2 w := by
    by_cases hv : v = 0
    · subst hv; simp
    · exact (Nat.le_log2 (by omega)).2 (Nat.le_trans (Nat.log2_self_le hv) h)
  omega

/-- The kept place leaves at most 53 bits. -/
theorem lt_of_keptPlace (w : Nat) : w < 2 ^ (53 + keptPlace w) := by
  have h1 : w < 2 ^ (Nat.log2 w + 1) := Nat.lt_log2_self
  refine Nat.lt_of_lt_of_le h1 (Nat.pow_le_pow_right (by omega) ?_)
  unfold keptPlace; omega

/-- The kept place leaves 53 bits where it is not the unit's. -/
theorem le_of_keptPlace {w : Nat} (h : keptPlace w ≠ 0) : 2 ^ (52 + keptPlace w) ≤ w := by
  have hw : w ≠ 0 := by rintro rfl; simp [keptPlace] at h
  refine Nat.le_trans (Nat.pow_le_pow_right (by omega) ?_) (Nat.log2_self_le hw)
  unfold keptPlace at *; omega

theorem keptPlace_le {w k : Nat} (h : w < 2 ^ (53 + k)) : keptPlace w ≤ k := by
  by_contra hc
  have h1 := le_of_keptPlace (w := w) (by omega)
  have h2 : 2 ^ (53 + k) ≤ 2 ^ (52 + keptPlace w) := Nat.pow_le_pow_right (by omega) (by omega)
  omega

/-- The significand that rounding keeps: at most 2^53, and at least 2^52 unless the kept place is the unit's. -/
theorem roundSignificand_bounds (a d : Nat) :
    roundShift a (d + keptPlace (a / 2 ^ d)) ≤ 2 ^ 53 ∧
    (keptPlace (a / 2 ^ d) = 0 ∨ 2 ^ 52 ≤ roundShift a (d + keptPlace (a / 2 ^ d))) := by
  have hb := roundShift_bounds a (d + keptPlace (a / 2 ^ d))
  rw [Nat.pow_add, ← Nat.div_div_eq_div_mul] at hb
  have hl := lt_of_keptPlace (a / 2 ^ d)
  have h1 : a / 2 ^ d / 2 ^ keptPlace (a / 2 ^ d) < 2 ^ 53 := by
    apply Nat.div_lt_of_lt_mul
    rw [← Nat.pow_add, Nat.add_comm]
    exact hl
  refine ⟨by omega, ?_⟩
  by_cases hp : keptPlace (a / 2 ^ d) = 0
  · exact .inl hp
  · right
    have h2 : 2 ^ 52 ≤ a / 2 ^ d / 2 ^ keptPlace (a / 2 ^ d) := by
      rw [Nat.le_div_iff_mul_le (Nat.two_pow_pos _), ← Nat.pow_add]
      exact le_of_keptPlace hp
    omega

/-- Rounding keeps the order (at one scale). -/
theorem roundBits_mono {a b : Nat} (d : Nat) (h : a ≤ b) : roundBits a d ≤ roundBits b d := by
  unfold roundBits
  have hd : a / 2 ^ d ≤ b / 2 ^ d := Nat.div_le_div_right h
  have hp := keptPlace_mono hd
  suffices keptPlace (a / 2 ^ d) * 2 ^ 52 + roundShift a (d + keptPlace (a / 2 ^ d)) ≤
      keptPlace (b / 2 ^ d) * 2 ^ 52 + roundShift b (d + keptPlace (b / 2 ^ d)) by omega
  by_cases he : keptPlace (a / 2 ^ d) = keptPlace (b / 2 ^ d)
  · rw [he]
    have := roundShift_mono (d + keptPlace (b / 2 ^ d)) h
    omega
  · have h1 := roundSignificand_bounds a d
    have h2 := roundSignificand_bounds b d
    omega

/-- What a rounding that does not overflow stands for. -/
theorem lowMag_roundBits {a d : Nat} (h : roundBits a d < f64InfBits) :
    roundBits a d = keptPlace (a / 2 ^ d) * 2 ^ 52 + roundShift a (d + keptPlace (a / 2 ^ d)) ∧
    lowMag (roundBits a d) =
      roundShift a (d + keptPlace (a / 2 ^ d)) * 2 ^ keptPlace (a / 2 ^ d) := by
  have hb := roundSignificand_bounds a d
  have e : roundBits a d = keptPlace (a / 2 ^ d) * 2 ^ 52 + roundShift a (d + keptPlace (a / 2 ^ d)) := by
    unfold roundBits at h ⊢; omega
  exact ⟨e, by rw [e, lowMag_place hb.1 hb.2]⟩

theorem place_lt_inf {p q : Nat} (hp : p ≤ 2045) (hq : q < 2 ^ 53) : p * 2 ^ 52 + q < 2047 * 2 ^ 52 := by omega

/-- Rounding passes exponent field e + 2 exactly from halfway on between its largest magnitude and the next one. -/
theorem place_add_round_lt {a d e : Nat} :
    keptPlace (a / 2 ^ d) * 2 ^ 52 + roundShift a (d + keptPlace (a / 2 ^ d)) < (e + 3) * 2 ^ 52 ↔
      a < (2 ^ 54 - 1) * 2 ^ e * 2 ^ d := by
  have hlt := lt_of_keptPlace (a / 2 ^ d)
  have hge := @le_of_keptPlace (a / 2 ^ d)
  have hb := roundSignificand_bounds a d
  generalize keptPlace (a / 2 ^ d) = p at *
  have hD := Nat.two_pow_pos d
  have hX : 2 ^ (e + 1) * 2 ^ d = 2 * (2 ^ e * 2 ^ d) := by rw [Nat.pow_succ, Nat.mul_comm (2 ^ e) 2, Nat.mul_assoc]
  have hpos : 0 < 2 ^ e * 2 ^ d := Nat.mul_pos (Nat.two_pow_pos e) hD
  rw [Nat.mul_assoc (2 ^ 54 - 1)]
  rcases Nat.lt_trichotomy p (e + 1) with h | h | h
  · have h1 : a < 2 ^ (53 + p) * 2 ^ d := (Nat.div_lt_iff_lt_mul hD).1 hlt
    have h2 : 2 ^ (53 + p) * 2 ^ d ≤ 2 ^ 53 * (2 ^ e * 2 ^ d) := by
      rw [← Nat.mul_assoc, ← Nat.pow_add 2 53]
      exact Nat.mul_le_mul_right _ (Nat.pow_le_pow_right (by omega) (by omega))
    exact iff_of_true (by omega) (by omega)
  · subst h
    have hE : 2 ^ (d + (e + 1)) = 2 * (2 ^ e * 2 ^ d) := by rw [Nat.pow_add, Nat.mul_comm, hX]
    have hm := Nat.mod_lt a (show 0 < 2 * (2 ^ e * 2 ^ d) by omega)
    have hd := Nat.div_add_mod a (2 * (2 ^ e * 2 ^ d))
    have hy : a / (2 * (2 ^ e * 2 ^ d)) < 2 ^ 53 := by
      rw [← hE, Nat.pow_add, ← Nat.div_div_eq_div_mul]
      exact (Nat.div_lt_iff_lt_mul (Nat.two_pow_pos _)).2 (by rw [← Nat.pow_add]; exact hlt)
    rw [roundShift, hE]
    clear hb hge hlt hX hE
    generalize 2 ^ e * 2 ^ d = x at *
    generalize a % (2 * x) = r at *
    generalize a / (2 * x) = y at *
    rcases Nat.lt_or_eq_of_le (show y ≤ 2 ^ 53 - 1 by omega) with hlt | rfl
    · have h1 : 2 * x * (y + 1) ≤ 2 * x * (2 ^ 53 - 1) := Nat.mul_le_mul_left _ (by omega)
      rw [Nat.mul_add] at h1
      exact iff_of_true (by split <;> omega) (by omega)
    · split <;> omega
  · have h1 : 2 ^ (52 + p) * 2 ^ d ≤ a := (Nat.le_div_iff_mul_le hD).1 (hge (by omega))
    have h2 : 2 ^ 54 * (2 ^ e * 2 ^ d) ≤ 2 ^ (52 + p) * 2 ^ d := by
      rw [← Nat.mul_assoc, ← Nat.pow_add 2 54]
      exact Nat.mul_le_mul_right _ (Nat.pow_le_pow_right (by omega) (by omega))
    exact iff_of_false (by omega) (by omega)

theorem f64Overflow_eq : f64Overflow = (2 ^ 54 - 1) * 2 ^ 2044 := by
  delta f64Overflow
  rfl

/-- Rounding overflows exactly from the overflow bound on. -/
theorem roundBits_lt_inf {a d : Nat} : roundBits a d < f64InfBits ↔ a < f64Overflow * 2 ^ d := by
  rw [f64Overflow_eq, ← place_add_round_lt, roundBits, show f64InfBits = (2044 + 3) * 2 ^ 52 from rfl, min_lt_iff]
  simp

/-- The same of an integer magnitude. -/
theorem roundBits_zero_lt_inf {a : Nat} : roundBits a 0 < f64InfBits ↔ a < f64Overflow := by
  rw [roundBits_lt_inf, Nat.pow_zero, Nat.mul_one]

theorem f64Overflow_pos : 0 < f64Overflow := roundBits_zero_lt_inf.1 (by decide)

/-- A magnitude of 53 bits at a place rounds to itself. -/
theorem roundBits_exact {f e d : Nat} (hf : f < 2 ^ 53) (he : e ≤ 2045) :
    roundBits (f * 2 ^ e * 2 ^ d) d < f64InfBits ∧ lowMag (roundBits (f * 2 ^ e * 2 ^ d) d) = f * 2 ^ e := by
  have hq : f * 2 ^ e * 2 ^ d / 2 ^ d = f * 2 ^ e := Nat.mul_div_cancel _ (Nat.two_pow_pos d)
  have hp : keptPlace (f * 2 ^ e) ≤ e := by
    apply keptPlace_le
    rw [Nat.pow_add]
    exact Nat.mul_lt_mul_of_pos_right hf (Nat.two_pow_pos e)
  have h1 := lt_of_keptPlace (f * 2 ^ e)
  have key : ∀ p, p ≤ e → keptPlace (f * 2 ^ e) = p → f * 2 ^ e < 2 ^ (53 + p) →
      roundBits (f * 2 ^ e * 2 ^ d) d < f64InfBits ∧
      roundShift (f * 2 ^ e * 2 ^ d) (d + p) * 2 ^ p = f * 2 ^ e := by
    intro p hpe hk hlt
    obtain ⟨c, rfl⟩ := Nat.exists_eq_add_of_le hpe
    have hw : f * 2 ^ (p + c) * 2 ^ d = f * 2 ^ c * 2 ^ (d + p) := by
      rw [Nat.pow_add 2 p, Nat.pow_add 2 d, Nat.mul_comm (2 ^ p), Nat.mul_comm (2 ^ d)]
      simp only [Nat.mul_assoc]
    have hr : roundShift (f * 2 ^ (p + c) * 2 ^ d) (d + p) = f * 2 ^ c := by rw [hw, roundShift_mul]
    have hv : f * 2 ^ c * 2 ^ p = f * 2 ^ (p + c) := by
      rw [Nat.pow_add, Nat.mul_comm (2 ^ p), Nat.mul_assoc]
    have h2 : f * 2 ^ c < 2 ^ 53 := by
      rw [← hv, Nat.pow_add] at hlt
      exact Nat.lt_of_mul_lt_mul_right hlt
    refine ⟨?_, by rw [hr, hv]⟩
    unfold roundBits f64InfBits
    rw [hq, hk, hr]
    exact lt_of_le_of_lt (Nat.min_le_left _ _) (place_lt_inf (Nat.le_trans hpe he) h2)
  obtain ⟨h2, h3⟩ := key _ hp rfl h1
  refine ⟨h2, ?_⟩
  rw [(lowMag_roundBits h2).2, hq, h3]

/-- Lower bits that are no infinity round to themselves. -/
theorem roundBits_lowMag {n : Nat} (d : Nat) (h : n < f64InfBits) : roundBits (lowMag n * 2 ^ d) d = n := by
  obtain ⟨f, hf, he⟩ := lowMag_eq n
  have := roundBits_exact (d := d) hf (e := n / 2 ^ 52 - 1) (by unfold f64InfBits at h; omega)
  rw [← he] at this
  exact lowMag_inj this.2

/-- A magnitude up to a representable one rounds to no more. -/
theorem roundBits_le {a d n : Nat} (h : n < f64InfBits) (ha : a ≤ lowMag n * 2 ^ d) : roundBits a d ≤ n :=
  Nat.le_trans (roundBits_mono d ha) (Nat.le_of_eq (roundBits_lowMag d h))

/-! ### The keystream's equations -/

@[simp] theorem ksBytes_zero (r x : F64) : ksBytes r 0 x = [] := rfl

theorem ksBytes_succ (r x : F64) (n : Nat) :
    ksBytes r (n + 1) x = quantise (iterate r x) :: ksBytes r n (iterate r x) := rfl

@[simp] theorem ksLast_zero (r x : F64) : ksLast r 0 x = x := rfl

theorem ksLast_succ (r x : F64) (n : Nat) : ksLast r (n + 1) x = ksLast r n (iterate r x) := rfl

end Sys2Proof.Machine
end

