-- ==== Sys2Proof/Laws/Memory.lean ====
section
/-! SUPPORT. The laws of the buffers' storage: what a read gives after a write, that every write keeps the canonical
form, and how elements and bytes go together. -/

namespace Sys2Proof.Machine

/-! ### One byte -/

theorem Memory.find_store (m : Memory) (a : Nat) (v : Byte) (b : Nat) :
    (m.store a v).find b = if a = b then some v else m.find b := by
  induction m with
  | nil => simp [Memory.store, Memory.find]
  | cons c m ih =>
    obtain ⟨k, w⟩ := c
    unfold Memory.store
    split
    · simp [Memory.find]
    · split
      · rename_i h; subst h
        by_cases hb : a = b <;> simp [Memory.find, hb]
      · rename_i h
        by_cases hb : k = b
        · have : a ≠ b := fun e => h (e.trans hb.symm)
          simp [Memory.find, hb, this]
        · simp [Memory.find, hb, ih]

theorem Memory.key_of_mem_store {m : Memory} {a : Nat} {v : Byte} {c : Host.Cell} (h : c ∈ m.store a v) :
    c.1 = a ∨ c ∈ m := by
  induction m with
  | nil => simp [Memory.store] at h; simp [h]
  | cons d m ih =>
    obtain ⟨k, w⟩ := d
    unfold Memory.store at h
    split at h
    · simp only [List.mem_cons] at h ⊢
      rcases h with rfl | h | h <;> simp [*]
    · split at h
      · simp only [List.mem_cons] at h ⊢
        rcases h with rfl | h <;> simp [*]
      · simp only [List.mem_cons] at h ⊢
        rcases h with h | h
        · simp [h]
        · rcases ih h with h | h <;> simp [h]

theorem Memory.store_wf {m : Memory} (h : m.wf) (a : Nat) (v : Byte) : (m.store a v).wf := by
  induction m with
  | nil => simp [Memory.store, Memory.wf]
  | cons d m ih =>
    obtain ⟨k, w⟩ := d
    have hd := List.pairwise_cons.1 h
    unfold Memory.store
    split
    · rename_i hlt
      refine List.pairwise_cons.2 ⟨fun c hc => ?_, h⟩
      rcases List.mem_cons.1 hc with rfl | hc
      · exact hlt
      · exact Nat.lt_trans hlt (hd.1 c hc)
    · split
      · rename_i heq; subst heq
        exact List.pairwise_cons.2 ⟨fun c hc => hd.1 c hc, hd.2⟩
      · rename_i hlt hne
        refine List.pairwise_cons.2 ⟨fun c hc => ?_, ih hd.2⟩
        rcases Memory.key_of_mem_store hc with e | hc
        · rw [e]; show k < a; omega
        · exact hd.1 c hc

theorem byteAt_store (m : Memory) (a : Nat) (v : Byte) (b : Nat) :
    byteAt (m.store a v) b = if a = b then v else byteAt m b := by
  unfold byteAt
  rw [Memory.find_store]
  by_cases h : a = b <;> simp [h]

/-! ### Runs of bytes -/

@[simp] theorem bytesAt_length (m : Memory) (a n : Nat) : (bytesAt m a n).length = n := by
  induction n generalizing a with
  | zero => rfl
  | succ n ih => simp [bytesAt, ih]

theorem bytesAt_getD (m : Memory) (a n k : Nat) (h : k < n) : (bytesAt m a n).getD k 0#8 = byteAt m (a + k) := by
  induction n generalizing a k with
  | zero => omega
  | succ n ih =>
    cases k with
    | zero => rfl
    | succ k => rw [bytesAt, List.getD_cons_succ, ih _ _ (by omega)]; congr 1; omega

theorem bytesAt_congr {m m' : Memory} {a n : Nat}
    (h : ∀ x, a ≤ x → x < a + n → byteAt m x = byteAt m' x) : bytesAt m a n = bytesAt m' a n := by
  induction n generalizing a with
  | zero => rfl
  | succ n ih =>
    simp only [bytesAt]
    rw [h a (Nat.le_refl a) (by omega), ih (fun x hx hx' => h x (by omega) (by omega))]

theorem byteAt_storeBytes (m : Memory) (a : Nat) (bs : List Byte) (b : Nat) :
    byteAt (storeBytes m a bs) b = if a ≤ b ∧ b < a + bs.length then bs.getD (b - a) 0#8 else byteAt m b := by
  induction bs generalizing m a with
  | nil =>
    have : ¬ (a ≤ b ∧ b < a) := by omega
    simp [storeBytes, this]
  | cons v bs ih =>
    simp only [storeBytes, ih, byteAt_store, List.length_cons]
    by_cases h1 : a + 1 ≤ b ∧ b < a + 1 + bs.length
    · have h2 : a ≤ b ∧ b < a + (bs.length + 1) := by omega
      have h3 : b - a = (b - (a + 1)) + 1 := by omega
      rw [if_pos h1, if_pos h2, h3]; rfl
    · rw [if_neg h1]
      by_cases h3 : a = b
      · subst h3; simp
      · have h2 : ¬ (a ≤ b ∧ b < a + (bs.length + 1)) := by omega
        rw [if_neg h3, if_neg h2]

theorem storeBytes_wf {m : Memory} (h : m.wf) (a : Nat) (bs : List Byte) : (storeBytes m a bs).wf := by
  induction bs generalizing m a with
  | nil => exact h
  | cons v bs ih => exact ih (Memory.store_wf h a v) (a + 1)

theorem key_of_mem_storeBytes {m : Memory} {a : Nat} {bs : List Byte} {c : Host.Cell}
    (h : c ∈ storeBytes m a bs) : (a ≤ c.1 ∧ c.1 < a + bs.length) ∨ c ∈ m := by
  induction bs generalizing m a with
  | nil => exact .inr h
  | cons v bs ih =>
    rcases ih h with h | h
    · left; simp only [List.length_cons]; omega
    · rcases Memory.key_of_mem_store h with h | h
      · left; simp only [List.length_cons]; omega
      · exact .inr h

theorem storeBytes_append (m : Memory) (a : Nat) (bs cs : List Byte) :
    storeBytes m a (bs ++ cs) = storeBytes (storeBytes m a bs) (a + bs.length) cs := by
  induction bs generalizing m a with
  | nil => simp [storeBytes]
  | cons v bs ih =>
    simp only [List.cons_append, storeBytes, ih, List.length_cons]
    congr 1
    omega

/-! ### The writes of a command -/

/-- The offsets a write touches. -/
def BufWrite.touches (w : BufWrite) (a : Nat) : Prop := w.buf.base ≤ a ∧ a < w.buf.base + w.bytes.length

theorem byteAt_applyWrites_frame (m : Memory) (ws : List BufWrite) (a : Nat) (h : ∀ w ∈ ws, ¬ w.touches a) :
    byteAt (applyWrites m ws) a = byteAt m a := by
  induction ws generalizing m with
  | nil => rfl
  | cons w ws ih =>
    simp only [applyWrites]
    rw [ih _ (fun v hv => h v (List.mem_cons_of_mem _ hv)), byteAt_storeBytes, if_neg]
    exact h w List.mem_cons_self

theorem applyWrites_wf {m : Memory} (h : m.wf) (ws : List BufWrite) : (applyWrites m ws).wf := by
  induction ws generalizing m with
  | nil => exact h
  | cons w ws ih => exact ih (storeBytes_wf h _ _)

theorem key_of_mem_applyWrites {m : Memory} {ws : List BufWrite} {c : Host.Cell} (h : c ∈ applyWrites m ws) :
    (∃ w ∈ ws, w.touches c.1) ∨ c ∈ m := by
  induction ws generalizing m with
  | nil => exact .inr h
  | cons w ws ih =>
    rcases ih h with ⟨v, hv, ht⟩ | h
    · exact .inl ⟨v, List.mem_cons_of_mem _ hv, ht⟩
    · rcases key_of_mem_storeBytes h with h | h
      · exact .inl ⟨w, List.mem_cons_self, h⟩
      · exact .inr h

/-! ### Little-endian values -/

@[simp] theorem leBytes_length (n v : Nat) : (leBytes n v).length = n := by
  induction n generalizing v with
  | zero => rfl
  | succ n ih => simp [leBytes, ih]

theorem leValue_lt (bs : List Byte) : leValue bs < 256 ^ bs.length := by
  induction bs with
  | nil => simp [leValue]
  | cons b bs ih =>
    simp only [leValue, List.length_cons, pow_succ]
    have := b.isLt
    omega

theorem leValue_leBytes (n v : Nat) : leValue (leBytes n v) = v % 256 ^ n := by
  induction n generalizing v with
  | zero => simp [leBytes, leValue, Nat.mod_one]
  | succ n ih =>
    simp only [leBytes, leValue, ih, BitVec.toNat_ofNat]
    rw [Nat.pow_succ 256 n, Nat.mul_comm (256 ^ n) 256, Nat.mod_mul]

/-- The value of bytes is the sum of 20_memory.md R64. -/
theorem leValue_eq_sum (bs : List Byte) :
    leValue bs = ((List.range bs.length).map (fun k => (bs.getD k 0#8).toNat <<< (8 * k))).sum := by
  induction bs with
  | nil => rfl
  | cons b bs ih =>
    rw [leValue, ih, List.length_cons, List.range_succ_eq_map, List.map_cons, List.sum_cons, List.map_map,
      ← List.sum_map_mul_left]
    simp only [List.getD_cons_zero, Nat.mul_zero, Nat.shiftLeft_zero]
    congr 2
    apply List.map_congr_left
    intro k _
    simp [Nat.shiftLeft_eq, Nat.mul_add, Nat.pow_add]
    ring

theorem leBytes_leValue (bs : List Byte) : leBytes bs.length (leValue bs) = bs := by
  induction bs with
  | nil => rfl
  | cons b bs ih =>
    simp only [List.length_cons, leBytes, leValue]
    have hb := b.isLt
    have h1 : (b.toNat + 256 * leValue bs) / 256 = leValue bs := by omega
    rw [h1, ih]
    congr 1
    apply BitVec.eq_of_toNat_eq
    simp only [BitVec.toNat_ofNat]
    omega

theorem leBytes_getD (n v k : Nat) (h : k < n) : (leBytes n v).getD k 0#8 = BitVec.ofNat 8 (v / 256 ^ k) := by
  induction n generalizing v k with
  | zero => omega
  | succ n ih =>
    cases k with
    | zero => simp [leBytes]
    | succ k =>
      simp only [leBytes, List.getD_cons_succ]
      rw [ih (v / 256) k (by omega), Nat.div_div_eq_div_mul, pow_succ, Nat.mul_comm (256 ^ k) 256]

theorem bytesAt_storeBytes_self (m : Memory) (a : Nat) (bs : List Byte) :
    bytesAt (storeBytes m a bs) a bs.length = bs := by
  induction bs generalizing m a with
  | nil => rfl
  | cons v bs ih =>
    simp only [List.length_cons, storeBytes, bytesAt, ih]
    congr 1
    rw [byteAt_storeBytes, if_neg (by omega), byteAt_store, if_pos rfl]

/-! ### Buffer elements -/

@[simp] theorem byteElems_length (s : State) (b : Buf) (n : Nat) : (byteElems s b n).length = n := by
  simp [byteElems]

@[simp] theorem indexElems_length (s : State) (b : Buf) (n : Nat) : (indexElems s b n).length = n := by
  simp [indexElems]

theorem byteElems_getD (s : State) (b : Buf) (n i : Nat) (h : i < n) :
    (byteElems s b n).getD i 0#8 = byteElem s b i := by
  simp [byteElems, List.getD_eq_getElem?_getD, h]

theorem indexElems_getD (s : State) (b : Buf) (n i : Nat) (h : i < n) :
    (indexElems s b n).getD i 0 = (wordElem s b i).toNat := by
  simp [indexElems, List.getD_eq_getElem?_getD, h]

theorem flatMap_leBytes_length (is : List Nat) : (is.flatMap (leBytes 4)).length = 4 * is.length := by
  induction is with
  | nil => rfl
  | cons i is ih => simp only [List.flatMap_cons, List.length_append, leBytes_length, ih, List.length_cons]; omega

theorem flatMap_leBytes_getD (is : List Nat) (i k : Nat) (hi : i < is.length) (hk : k < 4) :
    (is.flatMap (leBytes 4)).getD (4 * i + k) 0#8 = BitVec.ofNat 8 (is.getD i 0 / 256 ^ k) := by
  induction is generalizing i with
  | nil => simp at hi
  | cons j is ih =>
    cases i with
    | zero =>
      rw [List.flatMap_cons, Nat.mul_zero, Nat.zero_add, List.getD_append _ _ _ _ (by simpa using hk),
        leBytes_getD _ _ _ hk]
      rfl
    | succ i =>
      rw [List.flatMap_cons, List.getD_append_right _ _ _ _ (by simp; omega)]
      have : 4 * (i + 1) + k - (leBytes 4 j).length = 4 * i + k := by simp; omega
      rw [this, ih i (by simpa using hi)]
      rfl

/-- The four bytes of a table element, from the bytes at its offsets. -/
theorem wordElem_of_bytes (m : Memory) (s : State) (b : Buf) (i v : Nat) (hm : s.mem = m)
    (h : ∀ k, k < 4 → byteAt m (b.base + 4 * i + k) = BitVec.ofNat 8 (v / 256 ^ k)) :
    wordElem s b i = BitVec.ofNat 32 v := by
  have e : bytesAt s.mem (b.base + 4 * i) 4 = leBytes 4 v := by
    subst hm
    simp only [bytesAt, leBytes]
    rw [← Nat.add_zero (b.base + 4 * i), h 0 (by omega), h 1 (by omega)]
    rw [show b.base + 4 * i + 0 + 1 + 1 = b.base + 4 * i + 2 from rfl, h 2 (by omega),
      show b.base + 4 * i + 2 + 1 = b.base + 4 * i + 3 from rfl, h 3 (by omega)]
    simp [Nat.div_div_eq_div_mul]
  rw [wordElem, e, leValue_leBytes]
  apply BitVec.eq_of_toNat_eq
  simp

theorem leValue_getD (bs : List Byte) (k : Nat) : leValue bs / 256 ^ k % 256 = (bs.getD k 0#8).toNat := by
  induction bs generalizing k with
  | nil => simp [leValue]
  | cons b bs ih =>
    have hb := b.isLt
    cases k with
    | zero => simp [leValue]; omega
    | succ k =>
      rw [List.getD_cons_succ, ← ih k, leValue, Nat.pow_succ, Nat.mul_comm (256 ^ k) 256, ← Nat.div_div_eq_div_mul]
      rw [show (b.toNat + 256 * leValue bs) / 256 = leValue bs by omega]

/-- Byte j of a table element is the byte at its offset plus j (20_memory.md R63). -/
theorem wordElem_byte (s : State) (b : Buf) (i : Nat) {j : Nat} (hj : j < 4) :
    (wordElem s b i).extractLsb' (8 * j) 8 = byteAt s.mem (b.base + 4 * i + j) := by
  apply BitVec.eq_of_toNat_eq
  have hl := leValue_lt (bytesAt s.mem (b.base + 4 * i) 4)
  rw [bytesAt_length] at hl
  have h := leValue_getD (bytesAt s.mem (b.base + 4 * i) 4) j
  rw [wordElem, BitVec.extractLsb'_toNat, BitVec.toNat_ofNat, Nat.mod_eq_of_lt (show _ < 2 ^ 32 from hl), Nat.shiftRight_eq_div_pow,
    Nat.pow_mul, show 2 ^ 8 = 256 from rfl, h]
  interval_cases j <;> rfl

end Sys2Proof.Machine
end

