-- ==== Sys2Proof/Laws/Permutation.lean ====
section
/-! SUPPORT. The laws of the permutation: what scattering indices gives, and that the rank of 41_permutation.md R140
orders the indices strictly. -/

namespace Sys2Proof.Machine

/-! ### Scattering -/

@[simp] theorem scatterFrom_length (i : Nat) (places out : List Nat) :
    (scatterFrom i places out).length = out.length := by
  induction places generalizing i out with
  | nil => rfl
  | cons p places ih => simp [scatterFrom, ih]

@[simp] theorem scatter_length (places : List Nat) : (scatter places).length = places.length := by
  simp [scatter]

theorem scatterFrom_getD_of_not_mem (i : Nat) (places out : List Nat) (p : Nat) (h : p ∉ places) :
    (scatterFrom i places out).getD p 0 = out.getD p 0 := by
  induction places generalizing i out with
  | nil => rfl
  | cons q places ih =>
    simp only [List.mem_cons, not_or] at h
    rw [scatterFrom, ih _ _ h.2]
    simp [List.getD_eq_getElem?_getD, List.getElem?_set_ne (Ne.symm h.1)]

theorem scatterFrom_getD_place (i : Nat) (places out : List Nat) (hn : places.Nodup)
    (hlt : ∀ e ∈ places, e < out.length) (j : Nat) (hj : j < places.length) :
    (scatterFrom i places out).getD (places.getD j 0) 0 = i + j := by
  induction places generalizing i out j with
  | nil => simp at hj
  | cons q places ih =>
    have hn' := List.nodup_cons.1 hn
    cases j with
    | zero =>
      rw [List.getD_cons_zero, scatterFrom, scatterFrom_getD_of_not_mem _ _ _ _ hn'.1]
      have : q < out.length := hlt q List.mem_cons_self
      simp [List.getD_eq_getElem?_getD, this]
    | succ j =>
      rw [List.getD_cons_succ, scatterFrom, ih (i + 1) _ hn'.2 _ j (by simpa using hj)]
      · omega
      · intro e he
        rw [List.length_set]
        exact hlt e (List.mem_cons_of_mem _ he)

/-- `scatter` puts i at the place the list names for i. -/
theorem scatter_getD_place {places : List Nat} (h : isBijection places places.length) {j : Nat}
    (hj : j < places.length) : (scatter places).getD (places.getD j 0) 0 = j := by
  rw [scatter, scatterFrom_getD_place 0 places _ h.2.2 (by simpa using h.2.1) j hj, Nat.zero_add]

/-- A bijection of [0, n) lists exactly the numbers below n. -/
theorem isBijection.perm {p : List Nat} {n : Nat} (h : isBijection p n) : p.Perm (List.range n) :=
  (List.subperm_of_subset h.2.2 (fun e he => List.mem_range.2 (h.2.1 e he))).perm_of_length_le
    (by simp [h.1])

theorem isBijection.mem {p : List Nat} {n : Nat} (h : isBijection p n) {e : Nat} (he : e < n) : e ∈ p :=
  h.perm.mem_iff.2 (List.mem_range.2 he)

theorem isBijection.getD_lt {p : List Nat} {n : Nat} (h : isBijection p n) {i : Nat} (hi : i < n) :
    p.getD i 0 < n := by
  have hl : i < p.length := by rw [h.1]; exact hi
  rw [List.getD_eq_getElem _ _ hl]
  exact h.2.1 _ (List.getElem_mem hl)

/-- Every index of a bijection's range stands somewhere in it. -/
theorem isBijection.exists_place {p : List Nat} {n : Nat} (h : isBijection p n) {e : Nat} (he : e < n) :
    ∃ j, j < n ∧ p.getD j 0 = e := by
  obtain ⟨j, hj, hje⟩ := List.mem_iff_getElem.1 (h.mem he)
  exact ⟨j, by rw [← h.1]; exact hj, by rw [List.getD_eq_getElem _ _ hj, hje]⟩

/-- Reading a bijection at the scattered table gives the index back. -/
theorem getD_scatter_getD {p : List Nat} {n : Nat} (h : isBijection p n) {e : Nat} (he : e < n) :
    (scatter p).getD e 0 < n ∧ p.getD ((scatter p).getD e 0) 0 = e := by
  obtain ⟨j, hj, rfl⟩ := h.exists_place he
  have h' : isBijection p p.length := by rw [h.1]; exact h
  rw [scatter_getD_place h' (by rw [h.1]; exact hj)]
  exact ⟨hj, rfl⟩

/-- The scattered table of a bijection is a bijection. -/
theorem isBijection.scatter {p : List Nat} {n : Nat} (h : isBijection p n) : isBijection (scatter p) n := by
  have hl : (Machine.scatter p).length = n := by rw [scatter_length, h.1]
  refine ⟨hl, ?_, ?_⟩
  · intro e he
    obtain ⟨j, hj, rfl⟩ := List.mem_iff_getElem.1 he
    rw [hl] at hj
    have := (getD_scatter_getD h hj).1
    rwa [List.getD_eq_getElem _ _ (by rw [hl]; exact hj)] at this
  · rw [List.nodup_iff_injective_getElem]
    intro ⟨i, hi⟩ ⟨j, hj⟩ e
    have hi' : i < n := by rw [← hl]; exact hi
    have hj' : j < n := by rw [← hl]; exact hj
    have e1 := (getD_scatter_getD h hi').2
    have e2 := (getD_scatter_getD h hj').2
    rw [List.getD_eq_getElem (Machine.scatter p) _ hi] at e1
    rw [List.getD_eq_getElem (Machine.scatter p) _ hj] at e2
    simp only at e
    rw [e, e2] at e1
    exact Fin.ext e1.symm

/-! ### The rank of 41_permutation.md R140 -/

theorem countP_lt_countP {α : Type} (l : List α) (p q : α → Bool) (h : ∀ x ∈ l, p x = true → q x = true)
    (hx : ∃ x ∈ l, q x = true ∧ p x = false) : l.countP p < l.countP q := by
  induction l with
  | nil => simp at hx
  | cons a l ih =>
    have hl : l.countP p ≤ l.countP q :=
      List.countP_mono_left (fun x hx => h x (List.mem_cons_of_mem _ hx))
    rw [List.countP_cons, List.countP_cons]
    obtain ⟨x, hx, hq, hp⟩ := hx
    rcases List.mem_cons.1 hx with rfl | hx
    · simp [hq, hp]; omega
    · have := ih (fun y hy => h y (List.mem_cons_of_mem _ hy)) ⟨x, hx, hq, hp⟩
      have ha := h a List.mem_cons_self
      by_cases hpa : p a = true
      · simp [hpa, ha hpa, this]
      · simp [hpa]; omega

/-- The pair (k[j], j) precedes (k[i], i) (41_permutation.md R140). -/
def precedes (k : List Byte) (j i : Nat) : Bool :=
  decide ((byteOf k j).toNat < (byteOf k i).toNat) || (decide (byteOf k j = byteOf k i) && decide (j < i))

theorem countP_add_countP_of_disjoint {α : Type} (l : List α) (p q : α → Bool)
    (h : ∀ x ∈ l, ¬ (p x = true ∧ q x = true)) : l.countP p + l.countP q = l.countP (fun x => p x || q x) := by
  induction l with
  | nil => rfl
  | cons a l ih =>
    have ih := ih (fun x hx => h x (List.mem_cons_of_mem _ hx))
    have ha := h a List.mem_cons_self
    simp only [List.countP_cons]
    cases hp : p a <;> cases hq : q a <;> simp_all <;> omega

theorem countP_range_of_le (q : Nat → Bool) (i n : Nat) (h : i ≤ n) :
    (List.range i).countP q = (List.range n).countP (fun j => q j && decide (j < i)) := by
  obtain ⟨d, rfl⟩ := Nat.exists_eq_add_of_le h
  rw [List.range_add, List.countP_append]
  have e1 : (List.range i).countP (fun j => q j && decide (j < i)) = (List.range i).countP q := by
    apply List.countP_congr
    intro x hx
    simp [List.mem_range.1 hx]
  have e2 : ((List.range d).map (fun x => i + x)).countP (fun j => q j && decide (j < i)) = 0 := by
    rw [List.countP_eq_zero]
    intro x hx
    obtain ⟨y, _, rfl⟩ := List.mem_map.1 hx
    simp
  rw [e1, e2, Nat.add_zero]

/-- The rank counts the pairs that precede (41_permutation.md R140: "exactly pos(i) pairs precede"). -/
theorem sortRank_eq_countP (k : List Byte) (i : Nat) (h : i < k.length) :
    sortRank k i = (List.range k.length).countP (fun j => precedes k j i) := by
  rw [sortRank, countP_range_of_le _ i k.length (Nat.le_of_lt h), countP_add_countP_of_disjoint]
  · rfl
  · intro j _ hj
    simp only [Bool.and_eq_true, decide_eq_true_eq] at hj
    have := hj.2.1
    rw [this] at hj
    omega

theorem precedes_trichotomy (k : List Byte) {i j : Nat} (h : i ≠ j) :
    precedes k i j = true ∨ precedes k j i = true := by
  simp only [precedes, Bool.or_eq_true, Bool.and_eq_true, decide_eq_true_eq]
  rcases Nat.lt_trichotomy (byteOf k i).toNat (byteOf k j).toNat with h1 | h1 | h1
  · exact .inl (.inl h1)
  · have e := BitVec.eq_of_toNat_eq h1
    rcases Nat.lt_or_gt_of_ne h with h2 | h2
    · exact .inl (.inr ⟨e, h2⟩)
    · exact .inr (.inr ⟨e.symm, h2⟩)
  · exact .inr (.inl h1)

theorem precedes_trans (k : List Byte) {a b c : Nat} (h1 : precedes k a b = true) (h2 : precedes k b c = true) :
    precedes k a c = true := by
  simp only [precedes, Bool.or_eq_true, Bool.and_eq_true, decide_eq_true_eq] at *
  rcases h1 with h1 | ⟨h1, h1'⟩ <;> rcases h2 with h2 | ⟨h2, h2'⟩
  · exact .inl (Nat.lt_trans h1 h2)
  · exact .inl (by rw [← h2]; exact h1)
  · exact .inl (by rw [h1]; exact h2)
  · exact .inr ⟨h1.trans h2, Nat.lt_trans h1' h2'⟩

@[simp] theorem precedes_irrefl (k : List Byte) (a : Nat) : precedes k a a = false := by simp [precedes]

/-- A pair that precedes another has the smaller rank. -/
theorem sortRank_lt_of_precedes (k : List Byte) {i j : Nat} (hi : i < k.length) (hj : j < k.length)
    (h : precedes k i j = true) : sortRank k i < sortRank k j := by
  rw [sortRank_eq_countP k i hi, sortRank_eq_countP k j hj]
  exact countP_lt_countP _ _ _ (fun x _ hx => precedes_trans k hx h)
    ⟨i, List.mem_range.2 hi, h, precedes_irrefl k i⟩

theorem sortRank_injective (k : List Byte) {i j : Nat} (hi : i < k.length) (hj : j < k.length)
    (h : sortRank k i = sortRank k j) : i = j := by
  by_contra hne
  rcases precedes_trichotomy k hne with h' | h'
  · have := sortRank_lt_of_precedes k hi hj h'; omega
  · have := sortRank_lt_of_precedes k hj hi h'; omega

theorem sortRank_lt_length (k : List Byte) {i : Nat} (hi : i < k.length) : sortRank k i < k.length := by
  rw [sortRank_eq_countP k i hi]
  have := countP_lt_countP (List.range k.length) (fun j => precedes k j i) (fun _ => true) (fun _ _ _ => rfl)
    ⟨i, List.mem_range.2 hi, rfl, precedes_irrefl k i⟩
  simpa using this

/-- The ranks of a byte sequence are a bijection of its indices. -/
theorem isBijection_ranks (k : List Byte) :
    isBijection ((List.range k.length).map (sortRank k)) k.length := by
  refine ⟨by simp, ?_, ?_⟩
  · intro e he
    obtain ⟨i, hi, rfl⟩ := List.mem_map.1 he
    exact sortRank_lt_length k (List.mem_range.1 hi)
  · rw [List.nodup_map_iff_inj_on List.nodup_range]
    intro i hi j hj h
    exact sortRank_injective k (List.mem_range.1 hi) (List.mem_range.1 hj) h

@[simp] theorem argsort_length (k : List Byte) : (argsort k).length = k.length := by simp [argsort]

@[simp] theorem invertTable_length (p : List Nat) : (invertTable p).length = p.length := by simp [invertTable]

@[simp] theorem reorder_length (a : List Byte) (t : List Nat) : (reorder a t).length = t.length := by simp [reorder]

theorem reorder_getD (a : List Byte) (t : List Nat) {i : Nat} (h : i < t.length) :
    byteOf (reorder a t) i = byteOf a (t.getD i 0) := by
  simp [reorder, byteOf, List.getD_eq_getElem?_getD, h]

theorem blend_getD (f : Byte → Byte → Byte) (a k : List Byte) {i : Nat} (ha : i < a.length) (hk : i < k.length) :
    byteOf (blend f a k) i = f (byteOf a i) (byteOf k i) := by
  simp [blend, byteOf, List.getD_eq_getElem?_getD, ha, hk]

@[simp] theorem blend_length (f : Byte → Byte → Byte) (a k : List Byte) :
    (blend f a k).length = min a.length k.length := by simp [blend]

@[simp] theorem ksBytes_length (r : F64) (n : Nat) (x : F64) : (ksBytes r n x).length = n := by
  induction n generalizing x with
  | zero => rfl
  | succ n ih => simp [ksBytes, ih]

@[simp] theorem keystream_length (s : State) : (keystream s).length = pixelCount s := by simp [keystream]

end Sys2Proof.Machine
end

