-- ==== Sys2Proof/Laws/State.lean ====
section
/-! SUPPORT. What every shared state update does to every field of State: one lemma per field per update, so that no later
proof unfolds a record update. -/

namespace Sys2Proof.Machine

/-! ### takeSnapshot -/

@[simp] theorem takeSnapshot_build (w : Word) (s : State) : (takeSnapshot w s).build = s.build := rfl
@[simp] theorem takeSnapshot_ctrl (w : Word) (s : State) : (takeSnapshot w s).ctrl = s.ctrl := rfl
@[simp] theorem takeSnapshot_status (w : Word) (s : State) : (takeSnapshot w s).status = busyStatus := rfl
@[simp] theorem takeSnapshot_x0Lo (w : Word) (s : State) : (takeSnapshot w s).x0Lo = s.x0Lo := rfl
@[simp] theorem takeSnapshot_x0Hi (w : Word) (s : State) : (takeSnapshot w s).x0Hi = s.x0Hi := rfl
@[simp] theorem takeSnapshot_rLo (w : Word) (s : State) : (takeSnapshot w s).rLo = s.rLo := rfl
@[simp] theorem takeSnapshot_rHi (w : Word) (s : State) : (takeSnapshot w s).rHi = s.rHi := rfl
@[simp] theorem takeSnapshot_height (w : Word) (s : State) : (takeSnapshot w s).height = s.height := rfl
@[simp] theorem takeSnapshot_width (w : Word) (s : State) : (takeSnapshot w s).width = s.width := rfl
@[simp] theorem takeSnapshot_xlastLo (w : Word) (s : State) : (takeSnapshot w s).xlastLo = s.xlastLo := rfl
@[simp] theorem takeSnapshot_xlastHi (w : Word) (s : State) : (takeSnapshot w s).xlastHi = s.xlastHi := rfl
@[simp] theorem takeSnapshot_errinfo (w : Word) (s : State) : (takeSnapshot w s).errinfo = s.errinfo := rfl
@[simp] theorem takeSnapshot_mem (w : Word) (s : State) : (takeSnapshot w s).mem = s.mem := rfl
@[simp] theorem takeSnapshot_curCmd (w : Word) (s : State) : (takeSnapshot w s).curCmd = w := rfl
@[simp] theorem takeSnapshot_curN (w : Word) (s : State) : (takeSnapshot w s).curN = shapeProduct s := rfl
@[simp] theorem takeSnapshot_curX0 (w : Word) (s : State) : (takeSnapshot w s).curX0 = seedX0 s := rfl
@[simp] theorem takeSnapshot_curR (w : Word) (s : State) : (takeSnapshot w s).curR = seedR s := rfl
@[simp] theorem takeSnapshot_host (w : Word) (s : State) : (takeSnapshot w s).host = s.host := rfl
@[simp] theorem takeSnapshot_resp (w : Word) (s : State) : (takeSnapshot w s).resp = s.resp := rfl
@[simp] theorem takeSnapshot_wait (w : Word) (s : State) : (takeSnapshot w s).wait = s.wait := rfl
@[simp] theorem takeSnapshot_draws (w : Word) (s : State) : (takeSnapshot w s).draws = s.draws := rfl

/-! ### accept -/

@[simp] theorem accept_build (w : Word) (s : State) : (accept w s).build = s.build := rfl
@[simp] theorem accept_ctrl (w : Word) (s : State) : (accept w s).ctrl = s.ctrl := rfl
@[simp] theorem accept_status (w : Word) (s : State) : (accept w s).status = busyStatus := rfl
@[simp] theorem accept_x0Lo (w : Word) (s : State) : (accept w s).x0Lo = s.x0Lo := rfl
@[simp] theorem accept_x0Hi (w : Word) (s : State) : (accept w s).x0Hi = s.x0Hi := rfl
@[simp] theorem accept_rLo (w : Word) (s : State) : (accept w s).rLo = s.rLo := rfl
@[simp] theorem accept_rHi (w : Word) (s : State) : (accept w s).rHi = s.rHi := rfl
@[simp] theorem accept_height (w : Word) (s : State) : (accept w s).height = s.height := rfl
@[simp] theorem accept_width (w : Word) (s : State) : (accept w s).width = s.width := rfl
@[simp] theorem accept_xlastLo (w : Word) (s : State) : (accept w s).xlastLo = s.xlastLo := rfl
@[simp] theorem accept_xlastHi (w : Word) (s : State) : (accept w s).xlastHi = s.xlastHi := rfl
@[simp] theorem accept_errinfo (w : Word) (s : State) : (accept w s).errinfo = s.errinfo := rfl
@[simp] theorem accept_mem (w : Word) (s : State) : (accept w s).mem = s.mem := rfl
@[simp] theorem accept_curCmd (w : Word) (s : State) : (accept w s).curCmd = w := rfl
@[simp] theorem accept_curN (w : Word) (s : State) : (accept w s).curN = shapeProduct s := rfl
@[simp] theorem accept_curX0 (w : Word) (s : State) : (accept w s).curX0 = seedX0 s := rfl
@[simp] theorem accept_curR (w : Word) (s : State) : (accept w s).curR = seedR s := rfl
@[simp] theorem accept_host (w : Word) (s : State) : (accept w s).host = s.host := rfl
@[simp] theorem accept_resp (w : Word) (s : State) : (accept w s).resp = s.resp := rfl
@[simp] theorem accept_wait (w : Word) (s : State) : (accept w s).wait = Config.latency s.draws := rfl
@[simp] theorem accept_draws (w : Word) (s : State) : (accept w s).draws = s.draws + 1 := rfl

/-! ### acceptedNow -/

@[simp] theorem acceptedNow_build (w : Word) (s : State) : (acceptedNow w s).build = s.build := rfl
@[simp] theorem acceptedNow_ctrl (w : Word) (s : State) : (acceptedNow w s).ctrl = s.ctrl := rfl
@[simp] theorem acceptedNow_status (w : Word) (s : State) : (acceptedNow w s).status = busyStatus := rfl
@[simp] theorem acceptedNow_x0Lo (w : Word) (s : State) : (acceptedNow w s).x0Lo = s.x0Lo := rfl
@[simp] theorem acceptedNow_x0Hi (w : Word) (s : State) : (acceptedNow w s).x0Hi = s.x0Hi := rfl
@[simp] theorem acceptedNow_rLo (w : Word) (s : State) : (acceptedNow w s).rLo = s.rLo := rfl
@[simp] theorem acceptedNow_rHi (w : Word) (s : State) : (acceptedNow w s).rHi = s.rHi := rfl
@[simp] theorem acceptedNow_height (w : Word) (s : State) : (acceptedNow w s).height = s.height := rfl
@[simp] theorem acceptedNow_width (w : Word) (s : State) : (acceptedNow w s).width = s.width := rfl
@[simp] theorem acceptedNow_xlastLo (w : Word) (s : State) : (acceptedNow w s).xlastLo = s.xlastLo := rfl
@[simp] theorem acceptedNow_xlastHi (w : Word) (s : State) : (acceptedNow w s).xlastHi = s.xlastHi := rfl
@[simp] theorem acceptedNow_errinfo (w : Word) (s : State) : (acceptedNow w s).errinfo = s.errinfo := rfl
@[simp] theorem acceptedNow_mem (w : Word) (s : State) : (acceptedNow w s).mem = s.mem := rfl
@[simp] theorem acceptedNow_curCmd (w : Word) (s : State) : (acceptedNow w s).curCmd = w := rfl
@[simp] theorem acceptedNow_curN (w : Word) (s : State) : (acceptedNow w s).curN = shapeProduct s := rfl
@[simp] theorem acceptedNow_curX0 (w : Word) (s : State) : (acceptedNow w s).curX0 = seedX0 s := rfl
@[simp] theorem acceptedNow_curR (w : Word) (s : State) : (acceptedNow w s).curR = seedR s := rfl
@[simp] theorem acceptedNow_host (w : Word) (s : State) : (acceptedNow w s).host = s.host := rfl
@[simp] theorem acceptedNow_resp (w : Word) (s : State) : (acceptedNow w s).resp = s.resp := rfl
@[simp] theorem acceptedNow_wait (w : Word) (s : State) : (acceptedNow w s).wait = 0 := rfl
@[simp] theorem acceptedNow_draws (w : Word) (s : State) : (acceptedNow w s).draws = s.draws := rfl

/-! ### completeError -/

@[simp] theorem completeError_build (c : ErrCode) (n : Word) (s : State) :
    (completeError c n s).build = s.build := rfl
@[simp] theorem completeError_ctrl (c : ErrCode) (n : Word) (s : State) : (completeError c n s).ctrl = s.ctrl := rfl
@[simp] theorem completeError_status (c : ErrCode) (n : Word) (s : State) :
    (completeError c n s).status = errorStatus c := rfl
@[simp] theorem completeError_x0Lo (c : ErrCode) (n : Word) (s : State) : (completeError c n s).x0Lo = s.x0Lo := rfl
@[simp] theorem completeError_x0Hi (c : ErrCode) (n : Word) (s : State) : (completeError c n s).x0Hi = s.x0Hi := rfl
@[simp] theorem completeError_rLo (c : ErrCode) (n : Word) (s : State) : (completeError c n s).rLo = s.rLo := rfl
@[simp] theorem completeError_rHi (c : ErrCode) (n : Word) (s : State) : (completeError c n s).rHi = s.rHi := rfl
@[simp] theorem completeError_height (c : ErrCode) (n : Word) (s : State) :
    (completeError c n s).height = s.height := rfl
@[simp] theorem completeError_width (c : ErrCode) (n : Word) (s : State) :
    (completeError c n s).width = s.width := rfl
@[simp] theorem completeError_xlastLo (c : ErrCode) (n : Word) (s : State) :
    (completeError c n s).xlastLo = s.xlastLo := rfl
@[simp] theorem completeError_xlastHi (c : ErrCode) (n : Word) (s : State) :
    (completeError c n s).xlastHi = s.xlastHi := rfl
@[simp] theorem completeError_errinfo (c : ErrCode) (n : Word) (s : State) : (completeError c n s).errinfo = n := rfl
@[simp] theorem completeError_mem (c : ErrCode) (n : Word) (s : State) : (completeError c n s).mem = s.mem := rfl
@[simp] theorem completeError_curCmd (c : ErrCode) (n : Word) (s : State) :
    (completeError c n s).curCmd = s.curCmd := rfl
@[simp] theorem completeError_curN (c : ErrCode) (n : Word) (s : State) : (completeError c n s).curN = s.curN := rfl
@[simp] theorem completeError_curX0 (c : ErrCode) (n : Word) (s : State) :
    (completeError c n s).curX0 = s.curX0 := rfl
@[simp] theorem completeError_curR (c : ErrCode) (n : Word) (s : State) : (completeError c n s).curR = s.curR := rfl
@[simp] theorem completeError_host (c : ErrCode) (n : Word) (s : State) : (completeError c n s).host = s.host := rfl
@[simp] theorem completeError_resp (c : ErrCode) (n : Word) (s : State) : (completeError c n s).resp = s.resp := rfl
@[simp] theorem completeError_wait (c : ErrCode) (n : Word) (s : State) : (completeError c n s).wait = s.wait := rfl
@[simp] theorem completeError_draws (c : ErrCode) (n : Word) (s : State) :
    (completeError c n s).draws = s.draws := rfl

/-! ### completeOk -/

@[simp] theorem completeOk_build (ws : List BufWrite) (b : Bool) (x : Option F64) (s : State) :
    (completeOk ws b x s).build = s.build := by
  cases x <;> rfl
@[simp] theorem completeOk_ctrl (ws : List BufWrite) (b : Bool) (x : Option F64) (s : State) :
    (completeOk ws b x s).ctrl = s.ctrl := by
  cases x <;> rfl
@[simp] theorem completeOk_status (ws : List BufWrite) (b : Bool) (x : Option F64) (s : State) :
    (completeOk ws b x s).status = doneStatus b := rfl
@[simp] theorem completeOk_x0Lo (ws : List BufWrite) (b : Bool) (x : Option F64) (s : State) :
    (completeOk ws b x s).x0Lo = s.x0Lo := by
  cases x <;> rfl
@[simp] theorem completeOk_x0Hi (ws : List BufWrite) (b : Bool) (x : Option F64) (s : State) :
    (completeOk ws b x s).x0Hi = s.x0Hi := by
  cases x <;> rfl
@[simp] theorem completeOk_rLo (ws : List BufWrite) (b : Bool) (x : Option F64) (s : State) :
    (completeOk ws b x s).rLo = s.rLo := by
  cases x <;> rfl
@[simp] theorem completeOk_rHi (ws : List BufWrite) (b : Bool) (x : Option F64) (s : State) :
    (completeOk ws b x s).rHi = s.rHi := by
  cases x <;> rfl
@[simp] theorem completeOk_height (ws : List BufWrite) (b : Bool) (x : Option F64) (s : State) :
    (completeOk ws b x s).height = s.height := by
  cases x <;> rfl
@[simp] theorem completeOk_width (ws : List BufWrite) (b : Bool) (x : Option F64) (s : State) :
    (completeOk ws b x s).width = s.width := by
  cases x <;> rfl
@[simp] theorem completeOk_xlastLo_some (ws : List BufWrite) (b : Bool) (v : F64) (s : State) :
    (completeOk ws b (some v) s).xlastLo = loWord v := rfl
@[simp] theorem completeOk_xlastLo_none (ws : List BufWrite) (b : Bool) (s : State) :
    (completeOk ws b none s).xlastLo = s.xlastLo := rfl
@[simp] theorem completeOk_xlastHi_some (ws : List BufWrite) (b : Bool) (v : F64) (s : State) :
    (completeOk ws b (some v) s).xlastHi = hiWord v := rfl
@[simp] theorem completeOk_xlastHi_none (ws : List BufWrite) (b : Bool) (s : State) :
    (completeOk ws b none s).xlastHi = s.xlastHi := rfl
@[simp] theorem completeOk_errinfo (ws : List BufWrite) (b : Bool) (x : Option F64) (s : State) :
    (completeOk ws b x s).errinfo = 0#32 := rfl
@[simp] theorem completeOk_mem (ws : List BufWrite) (b : Bool) (x : Option F64) (s : State) :
    (completeOk ws b x s).mem = applyWrites s.mem ws := rfl
@[simp] theorem completeOk_curCmd (ws : List BufWrite) (b : Bool) (x : Option F64) (s : State) :
    (completeOk ws b x s).curCmd = s.curCmd := by
  cases x <;> rfl
@[simp] theorem completeOk_curN (ws : List BufWrite) (b : Bool) (x : Option F64) (s : State) :
    (completeOk ws b x s).curN = s.curN := by
  cases x <;> rfl
@[simp] theorem completeOk_curX0 (ws : List BufWrite) (b : Bool) (x : Option F64) (s : State) :
    (completeOk ws b x s).curX0 = s.curX0 := by
  cases x <;> rfl
@[simp] theorem completeOk_curR (ws : List BufWrite) (b : Bool) (x : Option F64) (s : State) :
    (completeOk ws b x s).curR = s.curR := by
  cases x <;> rfl
@[simp] theorem completeOk_host (ws : List BufWrite) (b : Bool) (x : Option F64) (s : State) :
    (completeOk ws b x s).host = s.host := by
  cases x <;> rfl
@[simp] theorem completeOk_resp (ws : List BufWrite) (b : Bool) (x : Option F64) (s : State) :
    (completeOk ws b x s).resp = s.resp := by
  cases x <;> rfl
@[simp] theorem completeOk_wait (ws : List BufWrite) (b : Bool) (x : Option F64) (s : State) :
    (completeOk ws b x s).wait = s.wait := by
  cases x <;> rfl
@[simp] theorem completeOk_draws (ws : List BufWrite) (b : Bool) (x : Option F64) (s : State) :
    (completeOk ws b x s).draws = s.draws := by
  cases x <;> rfl

/-! ### writeStatus -/

@[simp] theorem writeStatus_build (v : Word) (s : State) : (writeStatus v s).build = s.build := rfl
@[simp] theorem writeStatus_ctrl (v : Word) (s : State) : (writeStatus v s).ctrl = s.ctrl := rfl
@[simp] theorem writeStatus_status (v : Word) (s : State) :
    (writeStatus v s).status = s.status &&& ~~~ clearMask v := rfl
@[simp] theorem writeStatus_x0Lo (v : Word) (s : State) : (writeStatus v s).x0Lo = s.x0Lo := rfl
@[simp] theorem writeStatus_x0Hi (v : Word) (s : State) : (writeStatus v s).x0Hi = s.x0Hi := rfl
@[simp] theorem writeStatus_rLo (v : Word) (s : State) : (writeStatus v s).rLo = s.rLo := rfl
@[simp] theorem writeStatus_rHi (v : Word) (s : State) : (writeStatus v s).rHi = s.rHi := rfl
@[simp] theorem writeStatus_height (v : Word) (s : State) : (writeStatus v s).height = s.height := rfl
@[simp] theorem writeStatus_width (v : Word) (s : State) : (writeStatus v s).width = s.width := rfl
@[simp] theorem writeStatus_xlastLo (v : Word) (s : State) : (writeStatus v s).xlastLo = s.xlastLo := rfl
@[simp] theorem writeStatus_xlastHi (v : Word) (s : State) : (writeStatus v s).xlastHi = s.xlastHi := rfl
@[simp] theorem writeStatus_errinfo (v : Word) (s : State) : (writeStatus v s).errinfo = s.errinfo := rfl
@[simp] theorem writeStatus_mem (v : Word) (s : State) : (writeStatus v s).mem = s.mem := rfl
@[simp] theorem writeStatus_curCmd (v : Word) (s : State) : (writeStatus v s).curCmd = s.curCmd := rfl
@[simp] theorem writeStatus_curN (v : Word) (s : State) : (writeStatus v s).curN = s.curN := rfl
@[simp] theorem writeStatus_curX0 (v : Word) (s : State) : (writeStatus v s).curX0 = s.curX0 := rfl
@[simp] theorem writeStatus_curR (v : Word) (s : State) : (writeStatus v s).curR = s.curR := rfl
@[simp] theorem writeStatus_host (v : Word) (s : State) : (writeStatus v s).host = s.host := rfl
@[simp] theorem writeStatus_resp (v : Word) (s : State) : (writeStatus v s).resp = s.resp := rfl
@[simp] theorem writeStatus_wait (v : Word) (s : State) : (writeStatus v s).wait = s.wait := rfl
@[simp] theorem writeStatus_draws (v : Word) (s : State) : (writeStatus v s).draws = s.draws := rfl

/-! ### resetRegisters -/

@[simp] theorem resetRegisters_build (s : State) : (resetRegisters s).build = s.build := rfl
@[simp] theorem resetRegisters_ctrl (s : State) : (resetRegisters s).ctrl = 0#32 := rfl
@[simp] theorem resetRegisters_status (s : State) : (resetRegisters s).status = 0#32 := rfl
@[simp] theorem resetRegisters_x0Lo (s : State) : (resetRegisters s).x0Lo = 0#32 := rfl
@[simp] theorem resetRegisters_x0Hi (s : State) : (resetRegisters s).x0Hi = 0#32 := rfl
@[simp] theorem resetRegisters_rLo (s : State) : (resetRegisters s).rLo = 0#32 := rfl
@[simp] theorem resetRegisters_rHi (s : State) : (resetRegisters s).rHi = 0#32 := rfl
@[simp] theorem resetRegisters_height (s : State) : (resetRegisters s).height = 0#32 := rfl
@[simp] theorem resetRegisters_width (s : State) : (resetRegisters s).width = 0#32 := rfl
@[simp] theorem resetRegisters_xlastLo (s : State) : (resetRegisters s).xlastLo = 0#32 := rfl
@[simp] theorem resetRegisters_xlastHi (s : State) : (resetRegisters s).xlastHi = 0#32 := rfl
@[simp] theorem resetRegisters_errinfo (s : State) : (resetRegisters s).errinfo = 0#32 := rfl
@[simp] theorem resetRegisters_mem (s : State) : (resetRegisters s).mem = s.mem := rfl
@[simp] theorem resetRegisters_curCmd (s : State) : (resetRegisters s).curCmd = s.curCmd := rfl
@[simp] theorem resetRegisters_curN (s : State) : (resetRegisters s).curN = s.curN := rfl
@[simp] theorem resetRegisters_curX0 (s : State) : (resetRegisters s).curX0 = s.curX0 := rfl
@[simp] theorem resetRegisters_curR (s : State) : (resetRegisters s).curR = s.curR := rfl
@[simp] theorem resetRegisters_host (s : State) : (resetRegisters s).host = s.host := rfl
@[simp] theorem resetRegisters_resp (s : State) : (resetRegisters s).resp = s.resp := rfl
@[simp] theorem resetRegisters_wait (s : State) : (resetRegisters s).wait = s.wait := rfl
@[simp] theorem resetRegisters_draws (s : State) : (resetRegisters s).draws = s.draws := rfl

/-! ### hardwareReset -/

@[simp] theorem hardwareReset_build (s : State) : (hardwareReset s).build = s.build := rfl
@[simp] theorem hardwareReset_ctrl (s : State) : (hardwareReset s).ctrl = 0#32 := rfl
@[simp] theorem hardwareReset_status (s : State) : (hardwareReset s).status = 0#32 := rfl
@[simp] theorem hardwareReset_x0Lo (s : State) : (hardwareReset s).x0Lo = 0#32 := rfl
@[simp] theorem hardwareReset_x0Hi (s : State) : (hardwareReset s).x0Hi = 0#32 := rfl
@[simp] theorem hardwareReset_rLo (s : State) : (hardwareReset s).rLo = 0#32 := rfl
@[simp] theorem hardwareReset_rHi (s : State) : (hardwareReset s).rHi = 0#32 := rfl
@[simp] theorem hardwareReset_height (s : State) : (hardwareReset s).height = 0#32 := rfl
@[simp] theorem hardwareReset_width (s : State) : (hardwareReset s).width = 0#32 := rfl
@[simp] theorem hardwareReset_xlastLo (s : State) : (hardwareReset s).xlastLo = 0#32 := rfl
@[simp] theorem hardwareReset_xlastHi (s : State) : (hardwareReset s).xlastHi = 0#32 := rfl
@[simp] theorem hardwareReset_errinfo (s : State) : (hardwareReset s).errinfo = 0#32 := rfl
@[simp] theorem hardwareReset_mem (s : State) :
    (hardwareReset s).mem = applyWrites s.mem ((pendingWrites s).map (scrapWrite s.draws)) := rfl
@[simp] theorem hardwareReset_curCmd (s : State) : (hardwareReset s).curCmd = s.curCmd := rfl
@[simp] theorem hardwareReset_curN (s : State) : (hardwareReset s).curN = s.curN := rfl
@[simp] theorem hardwareReset_curX0 (s : State) : (hardwareReset s).curX0 = s.curX0 := rfl
@[simp] theorem hardwareReset_curR (s : State) : (hardwareReset s).curR = s.curR := rfl
@[simp] theorem hardwareReset_host (s : State) : (hardwareReset s).host = s.host := rfl
@[simp] theorem hardwareReset_resp (s : State) : (hardwareReset s).resp = .none := rfl
@[simp] theorem hardwareReset_wait (s : State) : (hardwareReset s).wait = s.wait := rfl
@[simp] theorem hardwareReset_draws (s : State) : (hardwareReset s).draws = s.draws + 1 := rfl

end Sys2Proof.Machine
end

