-- ==== Sys2Proof/Laws/Ops.lean ====
section
/-! SUPPORT. What the shared operations can do, once each: STATUS's bits after each of its writes, a completion, the
checks, and what a command's run answers. -/

namespace Sys2Proof.Machine

/-! ### STATUS -/

theorem busyStatus_bits : busyStatus.getLsbD 0 = true ∧ busyStatus.getLsbD 1 = false ∧
    busyStatus.getLsbD 2 = false ∧ busyStatus.getLsbD 3 = false := by decide

theorem doneStatus_bits (w : Bool) : (doneStatus w).getLsbD 0 = false ∧ (doneStatus w).getLsbD 1 = true ∧
    (doneStatus w).getLsbD 2 = false ∧ (doneStatus w).getLsbD 3 = w ∧
    (doneStatus w).extractLsb' 8 4 = 0#4 ∧ doneStatus w &&& 0xFFFFF0F0#32 = 0#32 := by
  cases w <;> decide

theorem errorStatus_bits (c : ErrCode) : (errorStatus c).getLsbD 0 = false ∧ (errorStatus c).getLsbD 1 = false ∧
    (errorStatus c).getLsbD 2 = true ∧ (errorStatus c).getLsbD 3 = false ∧
    (errorStatus c).extractLsb' 8 4 = errNumber c ∧ errorStatus c &&& 0xFFFFF0F0#32 = 0#32 := by
  cases c <;> decide

theorem errNumber_range (c : ErrCode) : 1 ≤ (errNumber c).toNat ∧ (errNumber c).toNat ≤ 5 := by
  cases c <;> decide

/-- A W1C write clears bit by bit (44_control.md R211). -/
theorem clearMask_getLsbD (v : Word) (i : Nat) : (clearMask v).getLsbD i =
    ((v.getLsbD 1 && decide (i = 1)) || (v.getLsbD 3 && decide (i = 3)) ||
      (v.getLsbD 2 && (decide (i = 2) || decide (8 ≤ i ∧ i < 12)))) := by
  unfold clearMask
  by_cases hi : i < 32
  · interval_cases i <;> cases v.getLsbD 1 <;> cases v.getLsbD 2 <;> cases v.getLsbD 3 <;> rfl
  · rw [BitVec.getLsbD_of_ge _ _ (by omega)]
    have h1 : ¬ i = 1 := by omega
    have h2 : ¬ i = 2 := by omega
    have h3 : ¬ i = 3 := by omega
    have h4 : ¬ (8 ≤ i ∧ i < 12) := by omega
    simp [h1, h2, h3, h4]

theorem writeStatus_getLsbD (v : Word) (s : State) {i : Nat} (hi : i < 32) :
    (writeStatus v s).status.getLsbD i = (s.status.getLsbD i && !(clearMask v).getLsbD i) := by
  simp [writeStatus, hi]

@[simp] theorem busy_writeStatus (v : Word) (s : State) : busy (writeStatus v s) = busy s := by
  rw [busy, busy, writeStatus_getLsbD v s (by omega), clearMask_getLsbD]
  cases s.status.getLsbD 0 <;> cases v.getLsbD 1 <;> cases v.getLsbD 2 <;> cases v.getLsbD 3 <;> rfl

@[simp] theorem done_writeStatus (v : Word) (s : State) :
    done (writeStatus v s) = (done s && !v.getLsbD 1) := by
  rw [done, done, writeStatus_getLsbD v s (by omega), clearMask_getLsbD]
  cases s.status.getLsbD 1 <;> cases v.getLsbD 1 <;> cases v.getLsbD 2 <;> cases v.getLsbD 3 <;> rfl

@[simp] theorem err_writeStatus (v : Word) (s : State) : err (writeStatus v s) = (err s && !v.getLsbD 2) := by
  rw [err, err, writeStatus_getLsbD v s (by omega), clearMask_getLsbD]
  cases s.status.getLsbD 2 <;> cases v.getLsbD 1 <;> cases v.getLsbD 2 <;> cases v.getLsbD 3 <;> rfl

@[simp] theorem warn_writeStatus (v : Word) (s : State) : warn (writeStatus v s) = (warn s && !v.getLsbD 3) := by
  rw [warn, warn, writeStatus_getLsbD v s (by omega), clearMask_getLsbD]
  cases s.status.getLsbD 3 <;> cases v.getLsbD 1 <;> cases v.getLsbD 2 <;> cases v.getLsbD 3 <;> rfl

@[simp] theorem errCode_writeStatus (v : Word) (s : State) :
    errCode (writeStatus v s) = if v.getLsbD 2 then 0#4 else errCode s := by
  apply BitVec.eq_of_getLsbD_eq
  intro i hi
  have h : 8 + i < 32 := by omega
  have h1 : ¬ 8 + i = 1 := by omega
  have h2 : ¬ 8 + i = 2 := by omega
  have h3 : ¬ 8 + i = 3 := by omega
  have h4 : 8 ≤ 8 + i ∧ 8 + i < 12 := by omega
  simp only [errCode, BitVec.getLsbD_extractLsb', hi, decide_true, Bool.true_and]
  rw [writeStatus_getLsbD v s h, clearMask_getLsbD]
  cases hv : v.getLsbD 2 <;> simp [h1, h2, h3, h4, hi]

theorem writeStatus_reserved (v : Word) (s : State) :
    (writeStatus v s).status &&& 0xFFFFF0F0#32 = s.status &&& 0xFFFFF0F0#32 := by
  apply BitVec.eq_of_getLsbD_eq
  intro i hi
  rw [BitVec.getLsbD_and, BitVec.getLsbD_and, writeStatus_getLsbD v s hi, clearMask_getLsbD]
  interval_cases i <;> simp

theorem busyStatus_clear (v : Word) : busyStatus &&& ~~~ clearMask v = busyStatus := by
  apply BitVec.eq_of_getLsbD_eq
  intro i hi
  rw [BitVec.getLsbD_and, BitVec.getLsbD_not, clearMask_getLsbD]
  interval_cases i <;> simp [busyStatus]

/-! ### STATUS after a completion, an acceptance and a reset -/

@[simp] theorem busy_completeOk (ws : List BufWrite) (b : Bool) (x : Option F64) (s : State) :
    busy (completeOk ws b x s) = false := by
  rw [busy, completeOk_status]; exact (doneStatus_bits b).1

@[simp] theorem done_completeOk (ws : List BufWrite) (b : Bool) (x : Option F64) (s : State) :
    done (completeOk ws b x s) = true := by
  rw [done, completeOk_status]; exact (doneStatus_bits b).2.1

@[simp] theorem err_completeOk (ws : List BufWrite) (b : Bool) (x : Option F64) (s : State) :
    err (completeOk ws b x s) = false := by
  rw [err, completeOk_status]; exact (doneStatus_bits b).2.2.1

@[simp] theorem warn_completeOk (ws : List BufWrite) (b : Bool) (x : Option F64) (s : State) :
    warn (completeOk ws b x s) = b := by
  rw [warn, completeOk_status]; exact (doneStatus_bits b).2.2.2.1

@[simp] theorem errCode_completeOk (ws : List BufWrite) (b : Bool) (x : Option F64) (s : State) :
    errCode (completeOk ws b x s) = 0#4 := by
  rw [errCode, completeOk_status]; exact (doneStatus_bits b).2.2.2.2.1

@[simp] theorem busy_completeError (c : ErrCode) (n : Word) (s : State) : busy (completeError c n s) = false := by
  rw [busy, completeError_status]; exact (errorStatus_bits c).1

@[simp] theorem done_completeError (c : ErrCode) (n : Word) (s : State) : done (completeError c n s) = false := by
  rw [done, completeError_status]; exact (errorStatus_bits c).2.1

@[simp] theorem err_completeError (c : ErrCode) (n : Word) (s : State) : err (completeError c n s) = true := by
  rw [err, completeError_status]; exact (errorStatus_bits c).2.2.1

@[simp] theorem warn_completeError (c : ErrCode) (n : Word) (s : State) : warn (completeError c n s) = false := by
  rw [warn, completeError_status]; exact (errorStatus_bits c).2.2.2.1

@[simp] theorem errCode_completeError (c : ErrCode) (n : Word) (s : State) :
    errCode (completeError c n s) = errNumber c := by
  rw [errCode, completeError_status]; exact (errorStatus_bits c).2.2.2.2.1

@[simp] theorem busy_accept (w : Word) (s : State) : busy (accept w s) = true := by simp [busy, busyStatus]

@[simp] theorem busy_resetRegisters (s : State) : busy (resetRegisters s) = false := by simp [busy]

@[simp] theorem busy_hardwareReset (s : State) : busy (hardwareReset s) = false := by simp [busy]

/-- The product of two registers does not wrap in 64 bits (10_state.md R32). -/
theorem shapeProduct_toNat (s : State) : (shapeProduct s).toNat = s.height.toNat * s.width.toNat := by
  have h1 := s.height.isLt
  have h2 := s.width.isLt
  have h : s.height.toNat * s.width.toNat < 2 ^ 64 := by nlinarith
  simpa [shapeProduct] using h

@[simp] theorem pixelCount_accept (w : Word) (s : State) : pixelCount (accept w s) = shapeCount s :=
  shapeProduct_toNat s

/-! ### Completion -/

/-- A completion is the state it started from with STATUS, ERRINFO, and on success the memory and XLAST, replaced. -/
theorem complete_eq (r : RunResult) (s : State) :
    complete r s = { s with
      mem := (complete r s).mem, status := (complete r s).status, errinfo := (complete r s).errinfo,
      xlastLo := (complete r s).xlastLo, xlastHi := (complete r s).xlastHi } := by
  cases r with
  | error c n => rfl
  | ok ws b x => cases x <;> rfl

/-- Every arm of exec completes the command with the outcome of its run (30_encoding.md R102). -/
theorem exec_eq (i : Instr) (s : State) : exec i s = .next (complete (runOf i s) s) := by
  cases i <;> rfl

theorem exec_next {i : Instr} {s t : State} (h : exec i s = .next t) : t = complete (runOf i s) s := by
  rw [exec_eq] at h
  exact (Host.Outcome.next.inj h).symm

theorem completeOk_none (ws : List BufWrite) (s : State) :
    completeOk ws false none s = doneKeep (applyWrites s.mem ws) s := rfl

theorem completeOk_some (ws : List BufWrite) (b : Bool) (x : F64) (s : State) :
    completeOk ws b (some x) s = doneWith (applyWrites s.mem ws) b x s := rfl

/-! ### The checks -/

theorem checkShape_of_le {s : State} (h : pixelCount s ≤ s.build.nMax) (r : RunResult) : checkShape s r = r := by
  rw [checkShape, if_neg (by omega)]

theorem checkShape_of_gt {s : State} (h : s.build.nMax < pixelCount s) (r : RunResult) :
    checkShape s r = .error .shapeMismatch 0#32 := by
  rw [checkShape, if_pos h]

theorem checkSeed_of_ok {s : State} (h : seedOk s.curX0 s.curR = true) (r : RunResult) : checkSeed s r = r := by
  rw [checkSeed, if_pos h]

theorem checkSeed_of_bad {s : State} (h : seedOk s.curX0 s.curR = false) (r : RunResult) :
    checkSeed s r = .error .invalidSeedRange 0#32 := by
  rw [checkSeed, if_neg (by simp [h])]

/-- What the checks can answer: their error, or the rest with the check passed. -/
theorem checkShape_ok {s : State} {r : RunResult} {ws : List BufWrite} {b : Bool} {x : Option F64}
    (h : checkShape s r = .ok ws b x) : pixelCount s ≤ s.build.nMax ∧ r = .ok ws b x := by
  unfold checkShape at h
  split at h
  · cases h
  · exact ⟨by omega, h⟩

theorem checkSeed_ok {s : State} {r : RunResult} {ws : List BufWrite} {b : Bool} {x : Option F64}
    (h : checkSeed s r = .ok ws b x) : seedOk s.curX0 s.curR = true ∧ r = .ok ws b x := by
  unfold checkSeed at h
  split at h
  · exact ⟨by assumption, h⟩
  · cases h

theorem firstOutOfRange_eq_none {n : Nat} {t : List Nat} : firstOutOfRange n t = none ↔ ∀ e ∈ t, e < n := by
  simp [firstOutOfRange, List.findIdx?_eq_none_iff]

theorem firstOutOfRange_eq_some {n : Nat} {t : List Nat} {i : Nat} (hi : i < t.length)
    (hge : n ≤ t.getD i 0) (hlt : ∀ j < i, t.getD j 0 < n) : firstOutOfRange n t = some i := by
  rw [firstOutOfRange, List.findIdx?_eq_some_iff_getElem]
  refine ⟨hi, ?_, ?_⟩
  · rw [List.getD_eq_getElem _ _ hi] at hge
    simpa using hge
  · intro j hj
    have := hlt j hj
    rw [List.getD_eq_getElem _ _ (by omega)] at this
    simpa using this

theorem checkRange_ok {n : Nat} {t : List Nat} {r : RunResult} {ws : List BufWrite} {b : Bool} {x : Option F64}
    (h : checkRange n t r = .ok ws b x) : (∀ e ∈ t, e < n) ∧ r = .ok ws b x := by
  unfold checkRange at h
  split at h
  · cases h
  · exact ⟨firstOutOfRange_eq_none.1 (by assumption), h⟩

theorem checkRange_of_lt {n : Nat} {t : List Nat} (h : ∀ e ∈ t, e < n) (r : RunResult) : checkRange n t r = r := by
  rw [checkRange, firstOutOfRange_eq_none.2 h]

theorem firstRepeatAfter_eq_none {seen : List Nat} {i : Nat} {t : List Nat} :
    firstRepeatAfter seen i t = none ↔ t.Nodup ∧ ∀ e ∈ t, e ∉ seen := by
  induction t generalizing seen i with
  | nil => simp [firstRepeatAfter]
  | cons e t ih =>
    unfold firstRepeatAfter
    split
    · rename_i h
      have h' : e ∈ seen := by simpa using h
      simp only [reduceCtorEq, false_iff, not_and]
      intro _ hall
      exact hall e List.mem_cons_self h'
    · rename_i h
      have h' : e ∉ seen := by simpa using h
      rw [ih]
      simp only [List.nodup_cons, List.mem_cons, not_or, forall_eq_or_imp]
      constructor
      · rintro ⟨hn, hall⟩
        exact ⟨⟨fun he => (hall e he).1 rfl, hn⟩, h', fun x hx => (hall x hx).2⟩
      · rintro ⟨⟨he, hn⟩, _, hall⟩
        exact ⟨hn, fun x hx => ⟨fun hxe => he (hxe ▸ hx), hall x hx⟩⟩

/-- The smallest index whose entry stands earlier. -/
theorem firstRepeatAfter_eq_some {seen : List Nat} {i : Nat} {t : List Nat} {k : Nat} (hk : k < t.length)
    (hrep : t.getD k 0 ∈ seen ∨ ∃ j < k, t.getD j 0 = t.getD k 0)
    (hfirst : ∀ n < k, t.getD n 0 ∉ seen ∧ ∀ j < n, t.getD j 0 ≠ t.getD n 0) :
    firstRepeatAfter seen i t = some (i + k) := by
  induction t generalizing seen i k with
  | nil => simp at hk
  | cons e t ih =>
    unfold firstRepeatAfter
    cases k with
    | zero =>
      have : e ∈ seen := by
        rcases hrep with h | ⟨j, hj, _⟩
        · exact h
        · omega
      rw [if_pos (by simpa using this)]; rfl
    | succ k =>
      have h0 := (hfirst 0 (by omega)).1
      rw [List.getD_cons_zero] at h0
      rw [if_neg (by simpa using h0), ih (k := k) (by simpa using hk)]
      · congr 1; omega
      · rw [List.getD_cons_succ] at hrep
        rcases hrep with h | ⟨j, hj, h⟩
        · exact .inl (List.mem_cons_of_mem _ h)
        · cases j with
          | zero => left; rw [List.getD_cons_zero] at h; rw [← h]; exact List.mem_cons_self
          | succ j => right; rw [List.getD_cons_succ] at h; exact ⟨j, by omega, h⟩
      · intro n hn
        have h1 := hfirst (n + 1) (by omega)
        rw [List.getD_cons_succ] at h1
        refine ⟨?_, ?_⟩
        · rw [List.mem_cons, not_or]
          refine ⟨?_, h1.1⟩
          have := h1.2 0 (by omega)
          rw [List.getD_cons_zero] at this
          exact Ne.symm this
        · intro j hj
          have := h1.2 (j + 1) (by omega)
          rwa [List.getD_cons_succ] at this

theorem checkDistinct_ok {t : List Nat} {r : RunResult} {ws : List BufWrite} {b : Bool} {x : Option F64}
    (h : checkDistinct t r = .ok ws b x) : t.Nodup ∧ r = .ok ws b x := by
  unfold checkDistinct at h
  split at h
  · cases h
  · exact ⟨(firstRepeatAfter_eq_none.1 (by assumption)).1, h⟩

theorem checkDistinct_of_nodup {t : List Nat} (h : t.Nodup) (r : RunResult) : checkDistinct t r = r := by
  rw [checkDistinct, firstRepeatAfter_eq_none.2 ⟨h, by simp⟩]

theorem checkBlendAdd_ok {s : State} {r : RunResult} {ws : List BufWrite} {b : Bool} {x : Option F64}
    (h : checkBlendAdd s r = .ok ws b x) : s.build.blendAdd = true ∧ r = .ok ws b x := by
  unfold checkBlendAdd at h
  split at h
  · exact ⟨by assumption, h⟩
  · cases h

/-- The entries of a table, when each is below n. -/
theorem indexElems_lt {s : State} {b : Buf} {n : Nat} (h : ∀ i < n, (wordElem s b i).toNat < n) :
    ∀ e ∈ indexElems s b n, e < n := by
  intro e he
  simp only [indexElems, List.mem_map, List.mem_range] at he
  obtain ⟨i, hi, rfl⟩ := he
  exact h i hi

/-- A table with every entry below n and no two equal is a bijection (41_permutation.md R144). -/
theorem indexElems_bijection {s : State} {b : Buf} {n : Nat} (h1 : ∀ i < n, (wordElem s b i).toNat < n)
    (h2 : ∀ j < n, ∀ i < j, wordElem s b i ≠ wordElem s b j) : isBijection (indexElems s b n) n := by
  refine ⟨by simp, indexElems_lt h1, ?_⟩
  rw [indexElems, List.nodup_map_iff_inj_on List.nodup_range]
  intro i hi j hj h
  rw [List.mem_range] at hi hj
  have h := BitVec.eq_of_toNat_eq h
  by_contra hne
  rcases Nat.lt_or_gt_of_ne hne with hl | hl
  · exact h2 j hj i hl h
  · exact h2 i hi j hl h.symm

/-- The range check on a table of the state, at its smallest offending index. -/
theorem checkRange_first {s : State} {b : Buf} {n i : Nat} (hi : i < n)
    (h1 : ∀ j < i, (wordElem s b j).toNat < n) (h2 : n ≤ (wordElem s b i).toNat) (r : RunResult) :
    checkRange n (indexElems s b n) r = .error .permIndexRange (BitVec.ofNat 32 i) := by
  rw [checkRange, firstOutOfRange_eq_some (i := i) (by simpa using hi)]
  · rw [indexElems_getD _ _ _ _ hi]; exact h2
  · intro j hj; rw [indexElems_getD _ _ _ _ (by omega)]; exact h1 j hj

/-! ### What a run answers -/

@[simp] theorem writeBytes_buf (b : Buf) (bs : List Byte) : (writeBytes b bs).buf = b := rfl

@[simp] theorem writeBytes_bytes (b : Buf) (bs : List Byte) : (writeBytes b bs).bytes = bs := rfl

@[simp] theorem writeIndices_buf (b : Buf) (is : List Nat) : (writeIndices b is).buf = b := rfl

@[simp] theorem writeIndices_bytes (b : Buf) (is : List Nat) :
    (writeIndices b is).bytes = is.flatMap (leBytes 4) := rfl

/-- A write of a run covers elements 0 to N - 1 of one of the command's buffers. -/
def coversElems (i : Instr) (n : Nat) (w : BufWrite) : Prop :=
  w.buf ∈ writesTo i ∧ w.bytes.length = w.buf.elemBytes * n

theorem coversElems.touches {i : Instr} {n : Nat} {w : BufWrite} (h : coversElems i n w) (a : Nat) :
    w.touches a ↔ inElems w.buf n a := by
  simp only [BufWrite.touches, inElems, h.2]

/-- A run that answers without error wrote nothing (NOP) or passed the shape check, and each of its writes covers
elements 0 to N - 1 of one of the command's buffers (10_state.md R43). It warns and answers a last iterate only for the
commands that read the seed. -/
theorem runOf_ok {i : Instr} {s : State} {ws : List BufWrite} {b : Bool} {x : Option F64}
    (h : runOf i s = .ok ws b x) :
    (∀ w ∈ ws, pixelCount s ≤ s.build.nMax ∧ coversElems i (pixelCount s) w) ∧
    (((i = .gen ∨ i = .encrypt ∨ i = .decrypt) ∧ b = degenerate s.curX0 ∧ x = some (lastIterate s)) ∨
      (¬ (i = .gen ∨ i = .encrypt ∨ i = .decrypt) ∧ b = false ∧ x = none)) := by
  cases i with
  | nop =>
    simp only [runOf, runNop, RunResult.ok.injEq] at h
    obtain ⟨rfl, rfl, rfl⟩ := h
    simp
  | gen =>
    obtain ⟨hn, h⟩ := checkShape_ok h
    obtain ⟨_, h⟩ := checkSeed_ok h
    simp only [RunResult.ok.injEq] at h
    obtain ⟨rfl, rfl, rfl⟩ := h
    simp [hn, coversElems, writesTo, writeBytes, Buf.elemBytes]
  | derivePerm =>
    obtain ⟨hn, h⟩ := checkShape_ok h
    simp only [RunResult.ok.injEq] at h
    obtain ⟨rfl, rfl, rfl⟩ := h
    simp [hn, coversElems, writesTo, writeIndices, Buf.elemBytes, Nat.mul_comm]
  | invertPerm =>
    obtain ⟨hn, h⟩ := checkShape_ok h
    obtain ⟨_, h⟩ := checkRange_ok h
    obtain ⟨_, h⟩ := checkDistinct_ok h
    simp only [RunResult.ok.injEq] at h
    obtain ⟨rfl, rfl, rfl⟩ := h
    simp [hn, coversElems, writesTo, writeIndices, Buf.elemBytes, Nat.mul_comm]
  | gather sel dir =>
    obtain ⟨hn, h⟩ := checkShape_ok h
    obtain ⟨_, h⟩ := checkRange_ok h
    simp only [RunResult.ok.injEq] at h
    obtain ⟨rfl, rfl, rfl⟩ := h
    cases dir <;> simp [hn, coversElems, writesTo, writeBytes, destBuf, Buf.elemBytes]
  | maskXor dir =>
    obtain ⟨hn, h⟩ := checkShape_ok h
    simp only [RunResult.ok.injEq] at h
    obtain ⟨rfl, rfl, rfl⟩ := h
    cases dir <;> simp [hn, coversElems, writesTo, writeBytes, destBuf, Buf.elemBytes]
  | maskAdd dir =>
    obtain ⟨_, h⟩ := checkBlendAdd_ok h
    obtain ⟨hn, h⟩ := checkShape_ok h
    simp only [RunResult.ok.injEq] at h
    obtain ⟨rfl, rfl, rfl⟩ := h
    cases dir <;> simp [hn, coversElems, writesTo, writeBytes, destBuf, Buf.elemBytes]
  | maskSub dir =>
    obtain ⟨_, h⟩ := checkBlendAdd_ok h
    obtain ⟨hn, h⟩ := checkShape_ok h
    simp only [RunResult.ok.injEq] at h
    obtain ⟨rfl, rfl, rfl⟩ := h
    cases dir <;> simp [hn, coversElems, writesTo, writeBytes, destBuf, Buf.elemBytes]
  | encrypt =>
    obtain ⟨hn, h⟩ := checkShape_ok h
    obtain ⟨_, h⟩ := checkSeed_ok h
    simp only [RunResult.ok.injEq] at h
    obtain ⟨rfl, rfl, rfl⟩ := h
    simp [hn, coversElems, writesTo, writeBytes, writeIndices, encryptBytes, Buf.elemBytes, Nat.mul_comm]
  | decrypt =>
    obtain ⟨hn, h⟩ := checkShape_ok h
    obtain ⟨_, h⟩ := checkSeed_ok h
    simp only [RunResult.ok.injEq] at h
    obtain ⟨rfl, rfl, rfl⟩ := h
    simp [hn, coversElems, writesTo, writeBytes, writeIndices, decryptBytes, Buf.elemBytes, Nat.mul_comm]

/-! ### Elements after a write -/

/-- A write of elements 0 to n - 1 of a buffer changes no other byte. -/
theorem storeBytes_frame {m : Memory} {b : Buf} {bs : List Byte} {n a : Nat} (hl : bs.length = b.elemBytes * n)
    (ha : ¬ inElems b n a) : byteAt (storeBytes m b.base bs) a = byteAt m a := by
  rw [byteAt_storeBytes, if_neg]
  rw [hl]; exact ha

/-- Element i of a byte buffer after the bytes of elements 0, 1, … were written to it. -/
theorem byteAt_storeBytes_elem (m : Memory) (b : Buf) (bs : List Byte) {i : Nat} (h : i < bs.length) :
    byteAt (storeBytes m b.base bs) (b.base + i) = byteOf bs i := by
  rw [byteAt_storeBytes, if_pos ⟨by omega, by omega⟩, Nat.add_sub_cancel_left, byteOf]

/-- Element i of a table after indices were written to elements 0, 1, … of it. -/
theorem wordElem_storeIndices (m : Memory) (s : State) (b : Buf) (is : List Nat)
    (hs : s.mem = storeBytes m b.base (is.flatMap (leBytes 4))) {i : Nat} (h : i < is.length) :
    wordElem s b i = BitVec.ofNat 32 (is.getD i 0) := by
  refine wordElem_of_bytes _ s b i _ hs (fun k hk => ?_)
  rw [byteAt_storeBytes, if_pos ⟨by omega, by rw [flatMap_leBytes_length]; omega⟩]
  rw [show b.base + 4 * i + k - b.base = 4 * i + k by omega, flatMap_leBytes_getD _ _ _ h hk]

/-- Writes to different buffers, each inside its window, touch no byte in common (20_memory.md R62). -/
theorem touches_disjoint {v w : BufWrite} (h : v.buf ≠ w.buf) (hv : v.bytes.length ≤ 0x01000000)
    (hw : w.bytes.length ≤ 0x01000000) (a : Nat) : ¬ (v.touches a ∧ w.touches a) := by
  rintro ⟨⟨h1, h2⟩, h3, h4⟩
  obtain ⟨vb, vs⟩ := v
  obtain ⟨wb, ws⟩ := w
  simp only at h h1 h2 h3 h4 hv hw
  cases vb <;> cases wb <;> simp only [Buf.base] at h1 h2 h3 h4 <;> first | exact h rfl | omega

/-- The byte that a list of writes to different buffers leaves where one of them touches. -/
theorem byteAt_applyWrites_of_mem {m : Memory} {ws : List BufWrite} {w : BufWrite} {a : Nat} (hw : w ∈ ws)
    (hp : ws.Pairwise (fun v w => v.buf ≠ w.buf)) (hl : ∀ w ∈ ws, w.bytes.length ≤ 0x01000000)
    (ha : w.touches a) : byteAt (applyWrites m ws) a = byteOf w.bytes (a - w.buf.base) := by
  induction ws generalizing m with
  | nil => simp at hw
  | cons v ws ih =>
    have hp' := List.pairwise_cons.1 hp
    rw [applyWrites]
    rcases List.mem_cons.1 hw with rfl | hw'
    · rw [byteAt_applyWrites_frame, byteAt_storeBytes, if_pos (show _ ∧ _ from ha), byteOf]
      intro u hu hta
      exact touches_disjoint (hp'.1 u hu) (hl _ List.mem_cons_self) (hl u (List.mem_cons_of_mem _ hu)) a ⟨ha, hta⟩
    · exact ih hw' hp'.2 (fun u hu => hl u (List.mem_cons_of_mem _ hu))

/-- Writes inside the windows of other buffers keep every byte of a buffer's window (20_memory.md R62). -/
theorem byteAt_applyWrites_other {m : Memory} {ws : List BufWrite} {b : Buf} (hb : ∀ w ∈ ws, w.buf ≠ b)
    (hl : ∀ w ∈ ws, w.bytes.length ≤ 0x01000000) {k : Nat} (hk : k < 0x01000000) :
    byteAt (applyWrites m ws) (b.base + k) = byteAt m (b.base + k) := by
  apply byteAt_applyWrites_frame
  intro w hw ht
  have h1 := hl w hw
  have h2 := hb w hw
  obtain ⟨wb, bs⟩ := w
  simp only [BufWrite.touches] at ht h1 h2
  cases wb <;> cases b <;> simp only [Buf.base] at ht <;> first | exact h2 rfl | omega

/-- A byte element of a buffer that the writes leave alone. -/
theorem byteElem_applyWrites_other {s t : State} {ws : List BufWrite} {b : Buf} (hs : t.mem = applyWrites s.mem ws)
    (hb : ∀ w ∈ ws, w.buf ≠ b) (hl : ∀ w ∈ ws, w.bytes.length ≤ 0x01000000) {i : Nat} (hi : i < 0x01000000) :
    byteElem t b i = byteElem s b i := by
  rw [byteElem, hs, byteAt_applyWrites_other hb hl hi, byteElem]

/-- A table element of a buffer that the writes leave alone. -/
theorem wordElem_applyWrites_other {s t : State} {ws : List BufWrite} {b : Buf} (hs : t.mem = applyWrites s.mem ws)
    (hb : ∀ w ∈ ws, w.buf ≠ b) (hl : ∀ w ∈ ws, w.bytes.length ≤ 0x01000000) {i : Nat} (hi : i < 4194304) :
    wordElem t b i = wordElem s b i := by
  rw [wordElem, wordElem, hs, bytesAt_congr (fun a h1 h2 => ?_)]
  rw [show a = b.base + (a - b.base) by omega]
  exact byteAt_applyWrites_other hb hl (by omega)

/-- Element i of a byte buffer after a list of writes to different buffers. -/
theorem byteElem_applyWrites {m : Memory} {s : State} {ws : List BufWrite} {b : Buf} {bs : List Byte} {i : Nat}
    (hs : s.mem = applyWrites m ws) (hw : writeBytes b bs ∈ ws) (hp : ws.Pairwise (fun v w => v.buf ≠ w.buf))
    (hl : ∀ w ∈ ws, w.bytes.length ≤ 0x01000000) (hi : i < bs.length) : byteElem s b i = byteOf bs i := by
  rw [byteElem, hs, byteAt_applyWrites_of_mem hw hp hl ⟨by simp, by simpa using hi⟩]
  simp

/-- Element i of a table after a list of writes to different buffers. -/
theorem wordElem_applyWrites {m : Memory} {s : State} {ws : List BufWrite} {b : Buf} {is : List Nat} {i : Nat}
    (hs : s.mem = applyWrites m ws) (hw : writeIndices b is ∈ ws) (hp : ws.Pairwise (fun v w => v.buf ≠ w.buf))
    (hl : ∀ w ∈ ws, w.bytes.length ≤ 0x01000000) (hi : i < is.length) :
    wordElem s b i = BitVec.ofNat 32 (is.getD i 0) := by
  refine wordElem_of_bytes _ s b i _ hs (fun k hk => ?_)
  have hlen := flatMap_leBytes_length is
  rw [byteAt_applyWrites_of_mem hw hp hl
    ⟨by rw [writeIndices_buf]; omega, by rw [writeIndices_buf, writeIndices_bytes]; omega⟩]
  rw [writeIndices_buf, writeIndices_bytes, show b.base + 4 * i + k - b.base = 4 * i + k by omega, byteOf,
    flatMap_leBytes_getD _ _ _ hi hk]

/-- A table element depends on its four bytes alone. -/
theorem wordElem_congr {s t : State} {b : Buf} {i : Nat}
    (h : ∀ a, b.base + 4 * i ≤ a → a < b.base + 4 * i + 4 → byteAt t.mem a = byteAt s.mem a) :
    wordElem t b i = wordElem s b i := by
  rw [wordElem, wordElem, bytesAt_congr h]

/-- A buffer's bytes as a list, from its elements. -/
theorem byteElems_eq {s : State} {b : Buf} {bs : List Byte} {n : Nat} (hn : bs.length = n)
    (h : ∀ i < n, byteElem s b i = byteOf bs i) : byteElems s b n = bs := by
  refine List.ext_getElem (by simp [hn]) (fun i h1 h2 => ?_)
  have := h i (by omega)
  rw [byteOf, List.getD_eq_getElem _ _ h2] at this
  simpa [byteElems] using this

/-- A table's indices as a list, from its elements. -/
theorem indexElems_eq {s : State} {b : Buf} {is : List Nat} {n : Nat} (hn : is.length = n)
    (hlt : ∀ e ∈ is, e < 2 ^ 32) (h : ∀ i < n, wordElem s b i = BitVec.ofNat 32 (is.getD i 0)) :
    indexElems s b n = is := by
  refine List.ext_getElem (by simp [hn]) (fun i h1 h2 => ?_)
  have := h i (by omega)
  rw [List.getD_eq_getElem _ _ h2] at this
  simp only [indexElems, List.getElem_map, List.getElem_range, this, BitVec.toNat_ofNat]
  exact Nat.mod_eq_of_lt (hlt _ (List.getElem_mem h2))

end Sys2Proof.Machine
end

