-- ==== Sys2Proof/Laws/Bus.lean ====
section
/-! SUPPORT. What a bus access can do, once each: which targets are legal, what a read and a write answer, what an event
of the host leaves. -/

namespace Sys2Proof.Machine

/-! ### The address map -/

/-- The offset of a register (10_state.md R20). -/
def regOffset : Reg → Nat
  | .id => 0x000
  | .caps => 0x004
  | .nmax => 0x008
  | .ctrl => 0x00C
  | .status => 0x010
  | .cmd => 0x014
  | .x0Lo => 0x018
  | .x0Hi => 0x01C
  | .rLo => 0x020
  | .rHi => 0x024
  | .height => 0x028
  | .width => 0x02C
  | .xlastLo => 0x030
  | .xlastHi => 0x034
  | .errinfo => 0x038

@[simp] theorem regAt_regOffset (r : Reg) : regAt (regOffset r) = some r := by cases r <;> rfl

theorem regAt_eq_some {a : Nat} {r : Reg} : regAt a = some r ↔ a = regOffset r := by
  constructor
  · intro h
    unfold regAt at h
    split at h <;> first | (cases h; rfl) | cases h
  · rintro rfl
    exact regAt_regOffset r

theorem regOffset_le (r : Reg) : regOffset r ≤ 0x038 ∧ regOffset r % 4 = 0 := by cases r <;> decide

/-- The fifteen offsets are the multiples of 4 up to 0x038 (20_memory.md R66). -/
theorem regAt_isSome {a : Nat} (h4 : a % 4 = 0) (hle : a ≤ 0x038) : ∃ r, regAt a = some r := by
  interval_cases a <;> first | exact ⟨_, rfl⟩ | simp at h4

theorem bufAt_eq_some {a : Nat} {b : Buf} : bufAt a = some b ↔ b.base ≤ a ∧ a < b.base + 0x01000000 := by
  unfold bufAt
  constructor
  · intro h
    split at h <;> first | (cases h; simp only [Buf.base]; omega) | cases h
  · cases b <;> simp only [Buf.base] <;> intro h
    · simp only [show a / 0x01000000 = 1 by omega]
    · simp only [show a / 0x01000000 = 2 by omega]
    · simp only [show a / 0x01000000 = 3 by omega]
    · simp only [show a / 0x01000000 = 4 by omega]
    · simp only [show a / 0x01000000 = 5 by omega]

/-- Every buffer fits its window in a build that exists (20_memory.md R62). -/
theorem Build.window {b : Build} (h : b.wf = true) (t : Buf) : t.elemBytes * b.nMax ≤ 0x01000000 := by
  simp only [Build.wf, Bool.and_eq_true, decide_eq_true_eq] at h
  cases t <;> simp only [Buf.elemBytes] <;> omega

/-! ### Legal accesses -/

theorem Width.bytes_cases (w : Width) : w.bytes = 1 ∨ w.bytes = 2 ∨ w.bytes = 4 := by cases w <;> simp [Width.bytes]

theorem Width.bytes_eq_four {w : Width} : w.bytes = 4 ↔ w = .w4 := by cases w <;> simp [Width.bytes]

/-- What a legal access in the register window addresses. -/
theorem regTarget_eq_ok {a : Nat} {w : Width} {iw : Bool} {t : Target} : regTarget a w iw = .ok t ↔
    w = .w4 ∧ a % 4 = 0 ∧ ∃ r, regAt a = some r ∧ t = .reg r ∧ (iw = true → readOnlyReg r = false) := by
  unfold regTarget
  split
  · rename_i h
    simp only [reduceCtorEq, false_iff, not_and]
    intro hw
    exact absurd (Width.bytes_eq_four.2 hw) h
  · rename_i h
    have hw : w = .w4 := Width.bytes_eq_four.1 (not_not.1 h)
    split
    · rename_i h4
      simp only [reduceCtorEq, false_iff, not_and]
      intro _ h; exact absurd h h4
    · rename_i h4
      rw [not_not] at h4
      split
      · rename_i hr; simp [hr]
      · rename_i r hr
        constructor
        · intro hok
          split at hok
          · cases hok
          · rename_i hro
            refine ⟨hw, h4, r, hr, (Except.ok.inj hok).symm, fun hi => ?_⟩
            simpa [hi] using hro
        · rintro ⟨_, _, r', hr', rfl, hro⟩
          rw [hr] at hr'
          cases hr'
          cases iw with
          | false => rfl
          | true => simp [hro rfl]

/-- What a legal access outside the register window addresses. -/
theorem bufTarget_eq_ok {b : Build} {a : Nat} {w : Width} {t : Target} : bufTarget b a w = .ok t ↔
    ∃ u, bufAt a = some u ∧ t = .buf u ∧ a % w.bytes = 0 ∧ a + w.bytes ≤ u.base + u.elemBytes * b.nMax := by
  unfold bufTarget
  split
  · rename_i h; simp [h]
  · rename_i u h
    split
    · rename_i hm
      simp only [reduceCtorEq, false_iff, not_exists, not_and]
      intro _ _ _ h; exact absurd h hm
    · rename_i hm
      rw [not_not] at hm
      split
      · rename_i hle; simp [h, hm, hle, eq_comm]
      · rename_i hle
        simp only [reduceCtorEq, false_iff, not_exists, not_and]
        intro v hv _ _ hle'
        rw [h] at hv
        cases hv
        exact hle hle'

theorem access_eq_ok {s : State} {a : Nat} {w : Width} {iw : Bool} {t : Target} :
    access s a w iw = .ok t ↔ target s.build a w iw = .ok t ∧ lockedOut s t iw = false := by
  unfold access
  split
  · rename_i h; simp [h]
  · rename_i u h
    split
    · rename_i hl
      simp only [reduceCtorEq, h, Except.ok.injEq, false_iff, not_and]
      rintro rfl; simp [hl]
    · rename_i hl
      simp only [h, Except.ok.injEq]
      constructor
      · rintro rfl; exact ⟨rfl, by simpa using hl⟩
      · rintro ⟨rfl, _⟩; rfl

/-- An access that is answered OKAY is a register access or a buffer access, and what BUSY lets pass. -/
theorem access_ok_cases {s : State} {a : Nat} {w : Width} {iw : Bool} {t : Target} (h : access s a w iw = .ok t) :
    (∃ r, t = .reg r ∧ a = regOffset r ∧ w = .w4 ∧ (iw = true → readOnlyReg r = false) ∧
      (busy s = true → iw = true → r = .status)) ∨
    (∃ u, t = .buf u ∧ busy s = false ∧ 0x00010000 ≤ a ∧ a % w.bytes = 0 ∧ u.base ≤ a ∧
      a + w.bytes ≤ u.base + u.elemBytes * s.build.nMax) := by
  obtain ⟨ht, hl⟩ := access_eq_ok.1 h
  unfold target at ht
  split at ht
  · obtain ⟨hw, _, r, hr, rfl, hro⟩ := regTarget_eq_ok.1 ht
    refine .inl ⟨r, rfl, regAt_eq_some.1 hr, hw, hro, fun hb hi => ?_⟩
    simpa [lockedOut, hb, hi] using hl
  · obtain ⟨u, hu, rfl, hm, hle⟩ := bufTarget_eq_ok.1 ht
    refine .inr ⟨u, rfl, ?_, by omega, hm, (bufAt_eq_some.1 hu).1, hle⟩
    simpa [lockedOut] using hl

/-- A register access that is aligned, wide enough, and allowed. -/
theorem access_reg {s : State} (r : Reg) {iw : Bool} (hro : iw = true → readOnlyReg r = false)
    (hb : busy s = true → iw = true → r = .status) : access s (regOffset r) .w4 iw = .ok (.reg r) := by
  refine access_eq_ok.2 ⟨?_, ?_⟩
  · rw [target, if_pos (by have := regOffset_le r; omega)]
    exact regTarget_eq_ok.2 ⟨rfl, (regOffset_le r).2, r, regAt_regOffset r, rfl, hro⟩
  · cases hbs : busy s <;> cases iw <;> simp_all [lockedOut]

/-- A register write that BUSY locks out. -/
theorem access_reg_locked {s : State} (r : Reg) (hro : readOnlyReg r = false) (hb : busy s = true)
    (hr : r ≠ .status) : access s (regOffset r) .w4 true = .error .lockedOut := by
  have ht : target s.build (regOffset r) .w4 true = .ok (.reg r) := by
    rw [target, if_pos (by have := regOffset_le r; omega)]
    exact regTarget_eq_ok.2 ⟨rfl, (regOffset_le r).2, r, regAt_regOffset r, rfl, fun _ => hro⟩
  rw [access, ht]
  simp [lockedOut, hb, hr]

/-- A buffer access inside the used size, naturally aligned, while BUSY = 0. -/
theorem access_buf {s : State} {a : Nat} {w : Width} {iw : Bool} (u : Buf) (hwf : s.build.wf = true)
    (hb : busy s = false) (hm : a % w.bytes = 0) (hlo : u.base ≤ a)
    (hhi : a + w.bytes ≤ u.base + u.elemBytes * s.build.nMax) : access s a w iw = .ok (.buf u) := by
  have hwin := Build.window hwf u
  have hw := Width.bytes_cases w
  have hbase : 0x01000000 ≤ u.base := by cases u <;> simp [Buf.base]
  refine access_eq_ok.2 ⟨?_, by simp [lockedOut, hb]⟩
  rw [target, if_neg (by omega)]
  exact bufTarget_eq_ok.2 ⟨u, bufAt_eq_some.2 ⟨hlo, by omega⟩, rfl, hm, hhi⟩

/-! ### Reads and writes -/

theorem memRead_reg {s : State} {a : Word} (r : Reg) (ha : a.toNat = regOffset r) :
    memRead s a .w4 = .ok (readReg s r) := by
  rw [memRead, ha, access_reg r (by simp) (by simp)]

theorem memWrite_reg {s : State} {a : Word} (r : Reg) (v : Word) (ha : a.toNat = regOffset r)
    (hro : readOnlyReg r = false) (hb : busy s = true → r = .status) :
    memWrite s a .w4 v = .ok (writeReg v s r) := by
  rw [memWrite, ha, access_reg r (fun _ => hro) (fun h _ => hb h)]

theorem memWrite_reg_locked {s : State} {a : Word} (r : Reg) (v : Word) (ha : a.toNat = regOffset r)
    (hro : readOnlyReg r = false) (hb : busy s = true) (hr : r ≠ .status) :
    memWrite s a .w4 v = .error .lockedOut := by
  rw [memWrite, ha, access_reg_locked r hro hb hr]

/-- What a write that is answered OKAY leaves: a register write, or the bytes stored in a buffer. -/
theorem memWrite_ok_cases {s t : State} {a : Word} {w : Width} {v : Word} (h : memWrite s a w v = .ok t) :
    (∃ r, a.toNat = regOffset r ∧ w = .w4 ∧ readOnlyReg r = false ∧ (busy s = true → r = .status) ∧
      t = writeReg v s r) ∨
    (∃ u : Buf, busy s = false ∧ 0x00010000 ≤ a.toNat ∧ a.toNat % w.bytes = 0 ∧ u.base ≤ a.toNat ∧
      a.toNat + w.bytes ≤ u.base + u.elemBytes * s.build.nMax ∧
      t = { s with mem := storeBytes s.mem a.toNat (leBytes w.bytes v.toNat) }) := by
  unfold memWrite at h
  split at h
  · cases h
  · rename_i r hacc
    rcases access_ok_cases hacc with ⟨r', hr, ha, hw, hro, hb⟩ | ⟨u, hu, _⟩
    · cases hr
      exact .inl ⟨r, ha, hw, hro rfl, fun h => hb h rfl, (Except.ok.inj h).symm⟩
    · cases hu
  · rename_i u hacc
    rcases access_ok_cases hacc with ⟨r', hr, _⟩ | ⟨u', hu, hb, h1, h2, h3, h4⟩
    · cases hr
    · cases hu
      exact .inr ⟨u, hb, h1, h2, h3, h4, (Except.ok.inj h).symm⟩

/-- What a read that is answered OKAY returns. -/
theorem memRead_ok_cases {s : State} {a : Word} {w : Width} {d : Word} (h : memRead s a w = .ok d) :
    (∃ r, a.toNat = regOffset r ∧ w = .w4 ∧ d = readReg s r) ∨
    (∃ u : Buf, busy s = false ∧ 0x00010000 ≤ a.toNat ∧ a.toNat % w.bytes = 0 ∧ u.base ≤ a.toNat ∧
      a.toNat + w.bytes ≤ u.base + u.elemBytes * s.build.nMax ∧
      d = BitVec.ofNat 32 (leValue (bytesAt s.mem a.toNat w.bytes))) := by
  unfold memRead at h
  split at h
  · cases h
  · rename_i r hacc
    rcases access_ok_cases hacc with ⟨r', hr, ha, hw, _⟩ | ⟨u, hu, _⟩
    · cases hr
      exact .inl ⟨r, ha, hw, (Except.ok.inj h).symm⟩
    · cases hu
  · rename_i u hacc
    rcases access_ok_cases hacc with ⟨r', hr, _⟩ | ⟨u', hu, hb, h1, h2, h3, h4⟩
    · cases hr
    · cases hu
      exact .inr ⟨u, hb, h1, h2, h3, h4, (Except.ok.inj h).symm⟩

/-- A buffer location that a write was answered OKAY at is readable while the build and BUSY stay. -/
theorem bufAccess_of_write {s t t' : State} {a : Word} {w : Width} {v : Word} (ha : 0x00010000 ≤ a.toNat)
    (h : memWrite s a w v = .ok t') (hbd : t.build = s.build) (hst : busy t = busy s) :
    ∃ u, access t a.toNat w false = .ok (.buf u) := by
  unfold memWrite at h
  split at h
  · cases h
  · rename_i r hacc
    rcases access_ok_cases hacc with ⟨r', _, ha', _⟩ | ⟨u, hu, _⟩
    · have := regOffset_le r'; omega
    · cases hu
  · rename_i u hacc
    obtain ⟨ht, hl⟩ := access_eq_ok.1 hacc
    refine ⟨u, access_eq_ok.2 ⟨?_, ?_⟩⟩
    · rw [hbd]
      unfold target at ht ⊢
      rw [if_neg (by omega)] at ht ⊢
      exact ht
    · simpa [lockedOut, hst] using hl

/-! ### The host's events -/

theorem serve_write_ok {s t : State} {a : Word} {w : Width} {v : Word} (h : memWrite s a w v = .ok t) :
    serve (.txn (.write a w v)) s = { t with resp := .writeOkay } := by
  simp [serve, serveTxn, h]

theorem serve_write_error {s : State} {a : Word} {w : Width} {v : Word} {f : Fault}
    (h : memWrite s a w v = .error f) : serve (.txn (.write a w v)) s = { s with resp := .busError f } := by
  simp [serve, serveTxn, h]

/-- When the unit moves (log 2). -/
theorem unitMoves_of {s : State} (hb : busy s = true) (h : s.host = [] ∨ s.wait = 0) : unitMoves s = true := by
  rcases h with h | h <;> simp [unitMoves, hb, h]

/-- A transaction leaves the state a write answered OKAY leaves, or the state it found, and a response. -/
theorem serveTxn_cases (x : Txn) (s : State) :
    (∃ r, serveTxn x s = { s with resp := r }) ∨
    (∃ a w v t, x = .write a w v ∧ memWrite s a w v = .ok t ∧ serveTxn x s = { t with resp := .writeOkay }) := by
  cases x with
  | read a w =>
    left
    cases h : memRead s a w with
    | ok d => exact ⟨.readOkay d, by simp [serveTxn, h]⟩
    | error f => exact ⟨.busError f, by simp [serveTxn, h]⟩
  | write a w v =>
    cases h : memWrite s a w v with
    | ok t => exact .inr ⟨a, w, v, t, rfl, h, by simp [serveTxn, h]⟩
    | error f => exact .inl ⟨.busError f, by simp [serveTxn, h]⟩

/-- The step is the unit's completion or the host's move. -/
theorem step_cases {s t : State} (h : step s = .next t) :
    (unitMoves s = true ∧ completeCurrent s = .next t) ∨ (unitMoves s = false ∧ t = hostMoves s) := by
  unfold step at h
  split at h
  · exact .inl ⟨by assumption, h⟩
  · exact .inr ⟨by simp_all, (Host.Outcome.next.inj h).symm⟩

/-- The unit's step completes the decoded command, or the illegal word, with a result. -/
theorem completeCurrent_next {s t : State} (h : completeCurrent s = .next t) :
    (∃ i, decode s.build.blendAdd s.curCmd = .ok i ∧ t = complete (runOf i s) s) ∨
    t = completeError .illegalCommand 0#32 s := by
  unfold completeCurrent at h
  split at h
  · exact .inl ⟨_, by assumption, exec_next h⟩
  · exact .inr (Host.Outcome.next.inj h).symm

end Sys2Proof.Machine
end

