-- ==== Sys2Proof/Laws/PerInstr.lean ====
section
/-! SUPPORT. What is said of every command as syntax, one lemma per constructor of Instr. -/

namespace Sys2Proof.Laws.RoundTrip

/-- The word the encoder writes for a command that the build has decodes to that command
(30_encoding.md R94, R98, R105). -/
def Statement (i : Instr) : Prop := ∀ blendAdd : Bool, i.wf blendAdd = true → decode blendAdd (encode i) = .ok i

theorem nop : Statement .nop := by intro b _; cases b <;> rfl

theorem gen : Statement .gen := by intro b _; cases b <;> rfl

theorem derivePerm : Statement .derivePerm := by intro b _; cases b <;> rfl

theorem invertPerm : Statement .invertPerm := by intro b _; cases b <;> rfl

theorem gather (sel : TableSel) (dir : Dir) : Statement (.gather sel dir) := by
  intro b _
  cases b <;> cases sel <;> cases dir <;> rfl

theorem maskXor (dir : Dir) : Statement (.maskXor dir) := by
  intro b _
  cases b <;> cases dir <;> rfl

theorem maskAdd (dir : Dir) : Statement (.maskAdd dir) := by
  intro b h
  cases b
  · cases h
  · cases dir <;> rfl

theorem maskSub (dir : Dir) : Statement (.maskSub dir) := by
  intro b h
  cases b
  · cases h
  · cases dir <;> rfl

theorem encrypt : Statement .encrypt := by intro b _; cases b <;> rfl

theorem decrypt : Statement .decrypt := by intro b _; cases b <;> rfl

end Sys2Proof.Laws.RoundTrip
end

