-- ==== Sys2Proof/Laws/Step.lean ====
section
/-! SUPPORT. What a step can do, once: the unit's completion, or one event of the host. -/

namespace Sys2Proof.Machine

/-- A run of k + 1 steps takes one step and runs on. -/
theorem core_run_succ {s t : State} {k : Nat} (h : step s = .next t) : core.run (k + 1) s = core.run k t := by
  have e : ∀ (M : Host.Core) (k : Nat) (s t : M.State), M.step s = .next t → M.run (k + 1) s = M.run k t := by
    intro M k s t h
    rw [Host.Core.run, h]
  exact e core k s t h

/-- An event of the host ends the command in flight by a hardware reset, or leaves it in flight, the same, with its
count (20_memory.md R69, 70_reset_and_hazards.md R270). -/
theorem serve_busy_cases {s : State} (e : HostEvent) (hb : busy s = true) :
    (busy (serve e s) = false ∧ ∃ cut, e = .hwReset cut) ∨
    (busy (serve e s) = true ∧ (serve e s).wait = s.wait ∧ (serve e s).host = s.host ∧
      (serve e s).curCmd = s.curCmd) := by
  cases e with
  | hwReset c => exact .inl ⟨by simp [serve], c, rfl⟩
  | txn x =>
    right
    rcases serveTxn_cases x s with ⟨r, hr⟩ | ⟨a, w, v, t', rfl, hw, hr⟩
    · rw [serve, hr]; exact ⟨hb, rfl, rfl, rfl⟩
    · rcases memWrite_ok_cases hw with ⟨r, ha, rfl, hro, hst, rfl⟩ | ⟨u, h, _⟩
      · have := hst hb; subst this
        rw [serve, hr]
        refine ⟨?_, rfl, rfl, rfl⟩
        show busy (writeStatus v s) = true
        simpa using hb
      · simp [hb] at h

end Sys2Proof.Machine
end

