-- ==== Sys2Proof/Tests/Slice0.lean ====
section
/-! SUPPORT. Tests on fixed values, from the vectors of 95_test_vectors.md (V<n>) and the examples of the rules, and for
every statement of Obligations.lean that has hypotheses a state and operands that meet them. -/

namespace Sys2Proof.Tests

open Sys2Proof.Machine

-- One test after another: many kernel evaluations waiting at once take a thread each.
set_option Elab.async false

/-! ### Well-formedness refuses what it must -/

theorem test_wf_nmax_zero : ({ nMax := 0, blendAdd := false } : Build).wf = false := by decide

theorem test_wf_nmax_too_large : ({ nMax := 4194305, blendAdd := true } : Build).wf = false := by decide

theorem test_wf_nmax_ends : ({ nMax := 1, blendAdd := false } : Build).wf = true ∧
    ({ nMax := 4194304, blendAdd := false } : Build).wf = true ∧ Config.referenceBuild.wf = true := by decide

theorem test_wf_add_absent : Instr.wf false (.maskAdd .s2d) = false := by decide

theorem test_wf_sub_absent : Instr.wf false (.maskSub .d2s) = false := by decide

theorem test_wf_xor_always : Instr.wf false (.maskXor .d2s) = true := by decide

/-! ### Words, bit by bit: reserved, BLEND, DIR, PSEL, OP (30_encoding.md R90, R94) -/

theorem test_decode_nop : decode false 0b00000000000000000000000000000000#32 = .ok .nop := by decide

theorem test_decode_gen : decode false 0b00000000000000000000000000000001#32 = .ok .gen := by decide

theorem test_decode_derive_perm : decode false 0b00000000000000000000000000000010#32 = .ok .derivePerm := by decide

theorem test_decode_invert_perm : decode false 0b00000000000000000000000000000011#32 = .ok .invertPerm := by decide

theorem test_decode_gather :
    decode false 0b00000000000000000000000000000100#32 = .ok (.gather .perm .s2d) ∧
    decode false 0b00000000000000000000000000010100#32 = .ok (.gather .pinv .s2d) ∧
    decode false 0b00000000000000000000000000100100#32 = .ok (.gather .perm .d2s) ∧
    decode false 0b00000000000000000000000000110100#32 = .ok (.gather .pinv .d2s) := by decide

theorem test_decode_mask_xor :
    decode false 0b00000000000000000000000000000101#32 = .ok (.maskXor .s2d) ∧
    decode false 0b00000000000000000000000000100101#32 = .ok (.maskXor .d2s) := by decide

theorem test_decode_mask_add :
    decode true 0b00000000000000000000000001000101#32 = .ok (.maskAdd .s2d) ∧
    decode true 0b00000000000000000000000001100101#32 = .ok (.maskAdd .d2s) := by decide

theorem test_decode_mask_sub :
    decode true 0b00000000000000000000000010000101#32 = .ok (.maskSub .s2d) ∧
    decode true 0b00000000000000000000000010100101#32 = .ok (.maskSub .d2s) := by decide

theorem test_decode_encrypt : decode false 0b00000000000000000000000000000110#32 = .ok .encrypt := by decide

theorem test_decode_decrypt : decode false 0b00000000000000000000000000000111#32 = .ok .decrypt := by decide

/-- The reads of a list of words. -/
def readings (blendAdd : Bool) (ws : List Word) : List (Option Instr) := ws.map (fun w => (decode blendAdd w).toOption)

/-- V18: the illegal words, without BLEND_ADD. -/
theorem test_illegal_words :
    readings false [0x08, 0x09, 0x0A, 0x0B, 0x0C, 0x0D, 0x0E, 0x0F, 0x104, 0x80000001, 0x11, 0x21, 0x41, 0x54, 0x15, 0x45,
      0x65, 0x85, 0xA5, 0xC5, 0xE5] = List.replicate 21 none := by decide +kernel

/-- V18: with BLEND_ADD only 0x45, 0x65, 0x85 and 0xA5 become legal. -/
theorem test_illegal_words_blend_add :
    readings true [0x08, 0x0F, 0x104, 0x80000001, 0x11, 0x21, 0x41, 0x54, 0x15, 0xC5, 0xE5] = List.replicate 11 none ∧
    (readings true [0x45, 0x65, 0x85, 0xA5]).all Option.isSome = true := by decide +kernel

/-- 20_memory.md R63: the first byte of a CMD write is bits 7:0. -/
theorem test_decode_bytes : decodeBytes false [0x34, 0, 0, 0] = .ok (.gather .pinv .d2s) ∧
    decodeBytes false [0, 0, 0, 0x34] = .error .reservedBits ∧ decodeBytes false [0x34] = .error .notFourBytes := by
  decide

theorem test_table_word : decodeTableWord 32 0x34 = some (.gather .pinv .d2s) ∧
    decodeTableWord 32 0x65 = some (.maskAdd .d2s) ∧ decodeTableWord 32 0x11 = none := by decide

/-! ### Small states -/

/-- A build with N_MAX = 4 and BLEND_ADD, after reset. -/
def tiny : State := { State.reset with build := { nMax := 4, blendAdd := true } }

/-- The same build with a shape, a seed and some memory. -/
def given (h w : Word) (x0 r : F64) (m : Memory) : State :=
  { tiny with height := h, width := w, x0Lo := loWord x0, x0Hi := hiWord x0, rLo := loWord r, rHi := hiWord r, mem := m }

/-- Bytes at a buffer's first elements. -/
def bytesIn (b : Buf) (bs : List Byte) (m : Memory) : Memory := storeBytes m b.base bs

/-- Indices at a table's first elements. -/
def indicesIn (b : Buf) (is : List Nat) (m : Memory) : Memory := storeBytes m b.base (is.flatMap (leBytes 4))

/-- The next state of an outcome, and the state itself where there is none. -/
def nextOr (s : State) : Host.Outcome State Fault Refusal → State
  | .next t => t
  | .fault _ => s
  | .refused _ => s

/-- The state after one step on a command's word. -/
def ran (w : Nat) (s : State) : State := nextOr s (step (s.withFetchWord 32 w))

/-- x0 = 0.5 and r = 3.99, the document's seed. -/
def xHalf : F64 := 0x3FE0000000000000#64

/-- r = 3.99. -/
def r399 : F64 := 0x400FEB851EB851EC#64

/-- The keystream, permutation and inverse of V1. -/
def v1Memory : Memory :=
  bytesIn .ks [255, 2, 10, 38] (indicesIn .perm [1, 2, 3, 0] (indicesIn .pinv [3, 0, 1, 2] []))

/-- V1's buffers with an image of four pixels in SRC and in DST. -/
def v1Image (src dst : List Byte) : State := given 1 4 xHalf r399 (bytesIn .src src (bytesIn .dst dst v1Memory))

/-! ### One step of each command -/

/-- V17: NOP completes whatever the shape. -/
theorem test_nop_ignores_shape : (ran 0x00 (given 1025 1024 0 0 [])).status = 0x00000002#32 := by decide +kernel

/-- V1. -/
theorem test_gen_v1 :
    byteElems (ran 0x01 (given 1 4 xHalf r399 [])) .ks 4 = [255, 2, 10, 38] ∧
    (ran 0x01 (given 1 4 xHalf r399 [])).xlastLo = 0x1203FA72#32 ∧
    (ran 0x01 (given 1 4 xHalf r399 [])).xlastHi = 0x3FC34902#32 := by decide +kernel

/-- V7, the row of -0.0: DONE and WARN, and the last iterate keeps its sign. -/
theorem test_gen_negative_zero :
    (ran 0x01 (given 1 4 0x8000000000000000#64 0x400D99999999999A#64 [])).status = 0x0000000A#32 ∧
    (ran 0x01 (given 1 4 0x8000000000000000#64 0x400D99999999999A#64 [])).xlastHi = 0x80000000#32 := by decide +kernel

/-- V14: KS = 3, 1, 2, 1 gives PERM = 1, 3, 2, 0, the tie in index order. -/
theorem test_derive_perm_tie :
    indexElems (ran 0x02 (given 2 2 0 0 (bytesIn .ks [3, 1, 2, 1] []))) .perm 4 = [1, 3, 2, 0] := by decide +kernel

/-- V14. -/
theorem test_invert_perm :
    indexElems (ran 0x03 (given 1 4 0 0 (indicesIn .perm [1, 2, 3, 0] []))) .pinv 4 = [3, 0, 1, 2] := by decide +kernel

/-- V14: the range of every entry is checked before any repeat. -/
theorem test_invert_perm_range_first :
    (ran 0x03 (given 1 3 0 0 (indicesIn .perm [1, 1, 5] []))).status = 0x00000404#32 ∧
    (ran 0x03 (given 1 3 0 0 (indicesIn .perm [1, 1, 5] []))).errinfo = 2#32 := by decide +kernel

/-- V16. -/
theorem test_gather_perm_s2d : byteElems (ran 0x04 (v1Image [10, 20, 30, 40] [])) .dst 4 = [20, 30, 40, 10] := by
  decide +kernel

/-- V16. -/
theorem test_gather_pinv_d2s : byteElems (ran 0x34 (v1Image [] [20, 30, 40, 10])) .src 4 = [10, 20, 30, 40] := by
  decide +kernel

/-- V15. -/
theorem test_mask_xor_s2d : byteElems (ran 0x05 (v1Image [20, 30, 40, 10] [])) .dst 4 = [235, 28, 34, 44] := by
  decide +kernel

/-- V15. -/
theorem test_mask_xor_d2s : byteElems (ran 0x25 (v1Image [] [235, 28, 34, 44])) .src 4 = [20, 30, 40, 10] := by
  decide +kernel

/-- V15: 20 + 255 wraps to 19. -/
theorem test_mask_add_s2d : byteElems (ran 0x45 (v1Image [20, 30, 40, 10] [])) .dst 4 = [19, 32, 50, 48] := by
  decide +kernel

/-- V15, without BLEND_ADD: IllegalCommand, from the reference build. -/
theorem test_mask_add_absent : (ran 0x45 State.reset).status = 0x00000304#32 := by decide +kernel

/-- V15. -/
theorem test_mask_sub_d2s : byteElems (ran 0xA5 (v1Image [] [19, 32, 50, 48])) .src 4 = [20, 30, 40, 10] := by
  decide +kernel

/-- V2. -/
theorem test_encrypt_v2 :
    byteElems (ran 0x06 (given 2 2 xHalf r399 (bytesIn .src [10, 20, 30, 40] []))) .dst 4 = [235, 28, 34, 44] ∧
    indexElems (ran 0x06 (given 2 2 xHalf r399 (bytesIn .src [10, 20, 30, 40] []))) .perm 4 = [1, 2, 3, 0] := by
  decide +kernel

/-- V17: a 32-bit product would give N = 0. -/
theorem test_encrypt_wide_shape : (ran 0x06 (given 0x10000 0x10000 xHalf r399 [])).status = 0x00000204#32 := by
  decide +kernel

/-- V3. -/
theorem test_decrypt_v3 :
    byteElems (ran 0x07 (given 2 2 xHalf r399 (bytesIn .src [235, 28, 34, 44] []))) .dst 4 = [10, 20, 30, 40] := by
  decide +kernel

/-- V4: the wrong r. -/
theorem test_decrypt_wrong_seed :
    byteElems (ran 0x07 (given 2 2 xHalf 0x400FD70A3D70A3D7#64 (bytesIn .src [235, 28, 34, 44] []))) .dst 4 =
      [100, 21, 25, 49] := by decide +kernel

/-! ### Numerics and seeds -/

/-- V8: 3.99 × 64 units rounds to 255 units. -/
theorem test_iterate_subnormal :
    iterate r399 0x0000000000000040#64 = 0x00000000000000FF#64 := by decide +kernel

/-- V6: 4 · 0.5 · 0.5 is exactly 1, whose byte is 0. -/
theorem test_iterate_one : iterate rMax xHalf = f64One ∧ quantise f64One = 0#8 := by decide +kernel

/-- V13. -/
theorem test_seed_accepted : seedOk xHalf rMin = true ∧ seedOk xHalf rMax = true ∧
    seedOk 0x8000000000000000#64 r399 = true ∧ seedOk f64One r399 = true := by decide

/-- V13. -/
theorem test_seed_rejected : seedOk 0x3FF0000000000001#64 r399 = false ∧ seedOk 0x8000000000000001#64 r399 = false ∧
    seedOk xHalf 0x400BFFFFFFFFFFFF#64 = false ∧ seedOk xHalf 0x4010000000000001#64 = false ∧
    seedOk 0x7FF8000000000000#64 r399 = false ∧ seedOk xHalf 0x7FF8000000000000#64 = false ∧
    seedOk 0x7FF0000000000000#64 r399 = false ∧ seedOk xHalf 0 = false := by decide

/-! ### The host interface -/

/-- A state with a command in flight. -/
def inFlight (w : Word) (s : State) : State := acceptedNow w s

/-- V20, idle. -/
theorem test_bus_idle :
    memRead tiny 0x01000001#32 .w4 = .error .misaligned ∧ memWrite tiny 0x000#32 .w4 0 = .error .readOnly ∧
    memRead tiny 0x03C#32 .w4 = .error .unmapped ∧ memRead tiny 0x010#32 .w1 = .error .narrowRegister ∧
    memRead tiny 0x01000004#32 .w1 = .error .unmapped ∧ memRead tiny 0x06000000#32 .w4 = .error .unmapped := by decide

/-- V20, while BUSY = 1. -/
theorem test_bus_busy :
    memRead (inFlight 1 tiny) 0x010#32 .w4 = .ok 1 ∧ memRead (inFlight 1 tiny) 0x02000000#32 .w1 = .error .lockedOut ∧
    memWrite (inFlight 1 tiny) 0x028#32 .w4 5 = .error .lockedOut ∧
    memWrite (inFlight 1 tiny) 0x014#32 .w4 1 = .error .lockedOut ∧
    memWrite (inFlight 1 tiny) 0x010#32 .w4 0xE = .ok (inFlight 1 tiny) := by decide

/-- V20: the last entry of PERM is readable. -/
theorem test_bus_last_entry :
    memRead (given 1 4 0 0 (indicesIn .perm [1, 2, 3, 7] [])) 0x0400000C#32 .w4 = .ok 7 := by decide +kernel

/-- 20_memory.md R68: a 1-byte write of 0x07 at PERM offset 4i + 1 sets bits 15:8 of PERM[i]. -/
theorem test_bus_narrow_write :
    ((memWrite (given 1 4 0 0 (indicesIn .perm [0x11223344] [])) 0x04000001#32 .w1 7).toOption.map
      (fun t => wordElem t .perm 0)) = some 0x11220744#32 := by decide +kernel

/-- 44_control.md R211's examples. -/
theorem test_status_clear :
    (writeStatus 4 { tiny with status := 0x104 }).status = 0 ∧
    (writeStatus 2 { tiny with status := 0xA }).status = 8 := by
  decide

/-- 20_memory.md R63, 10_state.md R22: ID reads LMKG. -/
theorem test_read_id : memRead tiny 0x000#32 .w4 = .ok 0x4C4D4B47 ∧ memRead tiny 0x004#32 .w4 = .ok 0x101 ∧
    memRead tiny 0x008#32 .w4 = .ok 4 := by decide

/-- V19: the interrupt after GEN with IRQ_EN, and after the acknowledgement. -/
theorem test_irq_v19 :
    irq (ran 0x01 { given 1 4 xHalf r399 [] with ctrl := 1 }) = true ∧
    irq (writeStatus 2 (ran 0x01 { given 1 4 xHalf r399 [] with ctrl := 1 })) = false ∧
    irq (ran 0x01 (given 1 4 xHalf r399 [])) = false := by decide +kernel

/-! ### Witnesses: for each statement with hypotheses, values that meet them -/

/-- A command in flight with the shape, seed and memory of `given`, the unit next to move. -/
def taken (i : Instr) (h w : Word) (x0 r : F64) (m : Memory) : State := acceptedNow (encode i) (given h w x0 r m)

/-- The image and the tables of V1 in every buffer, a command in flight, N = N_MAX. -/
def takenV1 (i : Instr) : State :=
  acceptedNow (encode i) (v1Image [10, 20, 30, 40] [50, 60, 70, 80])

theorem witness_StepRunsDecodedCommand :
    (busy (takenV1 .gen) = true ∧ ((takenV1 .gen).host = [] ∨ (takenV1 .gen).wait = 0) ∧
      decode (takenV1 .gen).build.blendAdd (takenV1 .gen).curCmd = .ok .gen) ∧
    decode State.reset.build.blendAdd (BitVec.ofNat 32 (0x34 % 2 ^ 32)) = .ok (.gather .pinv .d2s) := by
  refine ⟨⟨by decide +kernel, .inl rfl, by decide +kernel⟩, by decide⟩

theorem witness_IllegalWordCompletesWithIllegalCommand :
    busy (acceptedNow 0x104 tiny) = true ∧ ((acceptedNow 0x104 tiny).host = [] ∨ (acceptedNow 0x104 tiny).wait = 0) ∧
    ¬ legalWord (acceptedNow 0x104 tiny).build.blendAdd (acceptedNow 0x104 tiny).curCmd := by
  refine ⟨by decide, .inl rfl, ?_⟩
  unfold legalWord
  decide

theorem witness_StepServesHostElseIdles :
    ({ tiny with host := [.hwReset none] } : State).host = .hwReset none :: [] ∧
    busy { tiny with host := [.hwReset none] } = false ∧
    ({ inFlight 1 tiny with host := [.hwReset none], wait := 1 } : State).wait ≠ 0 ∧
    tiny.host = [] ∧ busy tiny = false := by decide

theorem witness_CmdWriteIsAccepted : busy tiny = false ∧ busy (inFlight 1 tiny) = true := by decide

theorem witness_OnlyCmdWriteMakesBusy :
    ∃ t, busy { tiny with host := [.txn (.write 0x014 .w4 6)] } = false ∧
      step { tiny with host := [.txn (.write 0x014 .w4 6)] } = .next t ∧ busy t = true :=
  ⟨{ accept 6 tiny with resp := .writeOkay }, rfl, rfl, rfl⟩

theorem witness_CommandInFlightCompletesUnlessReset : busy { inFlight 1 tiny with wait := 3 } = true := by decide

/-- N = N_MAX, the largest the premise admits, with the document's seed. -/
theorem witness_GenWritesKeystream :
    pixelCount (takenV1 .gen) = (takenV1 .gen).build.nMax ∧
    seedOk (takenV1 .gen).curX0 (takenV1 .gen).curR = true := by decide +kernel

theorem witness_DerivePermWritesArgsort : pixelCount (takenV1 .derivePerm) ≤ (takenV1 .derivePerm).build.nMax := by
  decide +kernel

theorem witness_InvertPermWritesInverse :
    pixelCount (takenV1 .invertPerm) ≤ (takenV1 .invertPerm).build.nMax ∧
    (∀ i < pixelCount (takenV1 .invertPerm),
      (wordElem (takenV1 .invertPerm) .perm i).toNat < pixelCount (takenV1 .invertPerm)) ∧
    (∀ j < pixelCount (takenV1 .invertPerm), ∀ i < j,
      wordElem (takenV1 .invertPerm) .perm i ≠ wordElem (takenV1 .invertPerm) .perm j) := by decide +kernel

theorem witness_GatherReorders :
    pixelCount (takenV1 (.gather .pinv .d2s)) ≤ (takenV1 (.gather .pinv .d2s)).build.nMax ∧
    (∀ i < pixelCount (takenV1 (.gather .pinv .d2s)),
      (wordElem (takenV1 (.gather .pinv .d2s)) (selBuf .pinv) i).toNat < pixelCount (takenV1 (.gather .pinv .d2s))) := by
  decide +kernel

theorem witness_MaskBlends :
    pixelCount (takenV1 (.maskAdd .s2d)) ≤ (takenV1 (.maskAdd .s2d)).build.nMax ∧
    (takenV1 (.maskAdd .s2d)).build.blendAdd = true := by decide +kernel

theorem witness_EncryptWritesCiphertext :
    (takenV1 .encrypt).build.wf = true ∧ pixelCount (takenV1 .encrypt) ≤ (takenV1 .encrypt).build.nMax ∧
    seedOk (takenV1 .encrypt).curX0 (takenV1 .encrypt).curR = true := by decide +kernel

theorem witness_DecryptWritesPlaintext :
    (takenV1 .decrypt).build.wf = true ∧ pixelCount (takenV1 .decrypt) ≤ (takenV1 .decrypt).build.nMax ∧
    seedOk (takenV1 .decrypt).curX0 (takenV1 .decrypt).curR = true := by decide +kernel

theorem witness_EmptyImageCompletes :
    Instr.wf (taken .encrypt 0 5 xHalf r399 []).build.blendAdd .encrypt = true ∧
    pixelCount (taken .encrypt 0 5 xHalf r399 []) = 0 ∧
    seedOk (taken .encrypt 0 5 xHalf r399 []).curX0 (taken .encrypt 0 5 xHalf r399 []).curR = true := by decide +kernel

/-- N = N_MAX + 1. -/
theorem witness_TooLargeShapeIsShapeMismatch :
    Instr.gen ≠ .nop ∧ Instr.wf (taken .gen 1 5 xHalf r399 []).build.blendAdd .gen = true ∧
    pixelCount (taken .gen 1 5 xHalf r399 []) = (taken .gen 1 5 xHalf r399 []).build.nMax + 1 := by decide +kernel

theorem witness_BadSeedIsInvalidSeedRange :
    pixelCount (taken .decrypt 1 4 xHalf 0x4010000000000001#64 []) ≤
      (taken .decrypt 1 4 xHalf 0x4010000000000001#64 []).build.nMax ∧
    seedOk (taken .decrypt 1 4 xHalf 0x4010000000000001#64 []).curX0
      (taken .decrypt 1 4 xHalf 0x4010000000000001#64 []).curR = false := by decide +kernel

/-- V16: PERM = 0, 1, 4, 9 with N = 4: index 2 holds N itself. -/
def badTable (i : Instr) : State :=
  taken i 1 4 0 0 (indicesIn .perm [0, 1, 4, 9] (indicesIn .pinv [0, 1, 4, 9] []))

theorem witness_EntryOutOfRangeIsPermIndexRange :
    pixelCount (badTable .invertPerm) ≤ (badTable .invertPerm).build.nMax ∧ 2 < pixelCount (badTable .invertPerm) ∧
    (∀ j < 2, (wordElem (badTable .invertPerm) .perm j).toNat < pixelCount (badTable .invertPerm)) ∧
    pixelCount (badTable .invertPerm) ≤ (wordElem (badTable .invertPerm) .perm 2).toNat ∧
    (∀ j < 2, (wordElem (badTable .invertPerm) (selBuf .pinv) j).toNat < pixelCount (badTable .invertPerm)) ∧
    pixelCount (badTable .invertPerm) ≤ (wordElem (badTable .invertPerm) (selBuf .pinv) 2).toNat := by decide +kernel

/-- V14: PERM = 0, 2, 2 with N = 3: index 2 repeats index 1. -/
def repeatTable : State := taken .invertPerm 1 3 0 0 (indicesIn .perm [0, 2, 2] [])

theorem witness_RepeatedEntryIsPermNotBijective :
    pixelCount repeatTable ≤ repeatTable.build.nMax ∧
    (∀ n < pixelCount repeatTable, (wordElem repeatTable .perm n).toNat < pixelCount repeatTable) ∧
    2 < pixelCount repeatTable ∧ 1 < 2 ∧ wordElem repeatTable .perm 2 = wordElem repeatTable .perm 1 ∧
    (∀ n < 2, ∀ k < n, wordElem repeatTable .perm n ≠ wordElem repeatTable .perm k) := by decide +kernel

theorem witness_AdditiveBlendAbsentIsIllegalCommand : State.reset.build.blendAdd = false := by decide

theorem witness_CommandErrorsArePrecise : ∃ t, exec .invertPerm repeatTable = .next t ∧ err t = true :=
  ⟨complete (runInvertPerm repeatTable) repeatTable, rfl, by decide +kernel⟩

theorem witness_WarnExactlyOnDegenerateSeed :
    ∃ t, exec .gen (taken .gen 1 1 f64One r399 []) = .next t ∧ warn t = true :=
  ⟨complete (runGen (taken .gen 1 1 f64One r399 [])) (taken .gen 1 1 f64One r399 []), rfl, by decide +kernel⟩

/-- The STATUS of a command in flight is legal. -/
theorem busy_status_legal : StatusLegal (inFlight 1 tiny) :=
  ⟨by decide, by decide, by decide, by decide, by decide, by decide⟩

theorem witness_StatusWriteClearsByBit : StatusLegal (inFlight 1 tiny) ∧ busy (inFlight 1 tiny) = true :=
  ⟨busy_status_legal, by decide⟩

theorem witness_CtrlWriteSetsIrqEnable :
    busy tiny = false ∧ (1#32).getLsbD 1 = false ∧ busy (inFlight 1 tiny) = true := by decide

theorem witness_SoftResetClearsRegistersKeepsBuffers :
    (3#32).getLsbD 1 = true ∧ busy tiny = false ∧ busy (inFlight 1 tiny) = true := by decide

theorem witness_IrqFollowsStatusAndEnable :
    (∃ t, exec .nop (inFlight 0 tiny) = .next t) ∧ busy tiny = false ∧
    ((6#32).getLsbD 1 = true ∧ (6#32).getLsbD 2 = true) := ⟨⟨complete runNop (inFlight 0 tiny), rfl⟩, by decide⟩

/-- Idle, at the last register, past it, at the last byte of PERM, and past it. -/
theorem witness_AccessLegalExactlyByAddressMap :
    tiny.build.wf = true ∧ busy tiny = false ∧ legalRegAccess 0x038 .w4 false ∧ ¬ legalRegAccess 0x03C .w4 false ∧
    (∃ t : Buf, t.base ≤ 0x0400000F ∧ 0x0400000F + 1 ≤ t.base + t.elemBytes * tiny.build.nMax) ∧
    ¬ legalBufAccess tiny.build 0x04000010 .w1 := by
  refine ⟨by decide, by decide, ?_, ?_, ⟨.perm, by decide, by decide⟩, ?_⟩
  · unfold legalRegAccess; decide
  · unfold legalRegAccess; decide
  · rintro ⟨_, t, h1, h2⟩
    cases t <;> simp [Buf.base, Buf.elemBytes, tiny, Width.bytes] at h1 h2

theorem witness_BusErrorChangesNothing :
    (serveTxn (.read 0x06000000 .w4) tiny).resp = .busError .unmapped := by decide

theorem witness_BusyLocksOutAllElse :
    busy (inFlight 1 tiny) = true ∧ regAt (0x038#32).toNat = some .errinfo ∧
    memRead (inFlight 1 tiny) 0x000#32 .w4 = .ok 0x4C4D4B47 ∧
    memWrite (inFlight 1 tiny) 0x010#32 .w4 0xE = .ok (inFlight 1 tiny) ∧ StatusLegal (inFlight 1 tiny) ∧
    busy tiny = false := ⟨by decide, by decide, by decide, by decide, busy_status_legal, by decide⟩

/-- A write and a read of two bytes, the last ones of SRC, and the last element of SRC and of PERM. -/
theorem witness_BufferAccessesAreLittleEndian :
    (∃ t, 0x00010000 ≤ (0x01000002#32).toNat ∧ memWrite tiny 0x01000002#32 .w2 0xBEEF = .ok t) ∧
    (∃ d, memRead tiny 0x01000002#32 .w2 = .ok d) ∧
    tiny.build.wf = true ∧ busy tiny = false ∧ 3 < tiny.build.nMax ∧ Buf.src.elemBytes = 1 ∧ Buf.perm.elemBytes = 4 :=
  ⟨⟨{ tiny with mem := storeBytes tiny.mem 0x01000002 (leBytes 2 0xBEEF) }, by decide, rfl⟩, ⟨_, rfl⟩, by decide⟩

/-- The last byte of the last entry. -/
theorem witness_NarrowWriteKeepsOtherBytes :
    tiny.build.wf = true ∧ busy tiny = false ∧ 3 < tiny.build.nMax ∧ 3 < 4 := by decide

theorem witness_SeedAndShapeRegistersReadBack :
    busy tiny = false ∧ 0x018 ≤ (0x018#32).toNat ∧ (0x02C#32).toNat ≤ 0x02C ∧
    memWrite tiny 0x018#32 .w4 7 = .ok { tiny with x0Lo := 7 } ∧
    memWrite tiny 0x02C#32 .w4 7 = .ok { tiny with width := 7 } := by decide

/-- A state that each of the three resets leaves. -/
theorem witness_ResetLeavesRegistersZero :
    (2#32).getLsbD 1 = true ∧ busy tiny = false ∧ ∃ t, t = serve (.txn (.write 0x00C#32 .w4 2#32)) tiny :=
  ⟨by decide, by decide, _, rfl⟩

theorem witness_RegistersReadTheirValues : State.reset.build.wf = true := by decide

/-- Idle; an illegal word in flight; GEN in flight, and the first byte past KS[0 .. N-1]. -/
theorem witness_HardwareResetKeepsOtherBytes :
    busy tiny = false ∧
    (∀ i, decode (acceptedNow 8 tiny).build.blendAdd (acceptedNow 8 tiny).curCmd ≠ .ok i) ∧
    decode (takenV1 .gen).build.blendAdd (takenV1 .gen).curCmd = .ok .gen ∧
    (∀ b ∈ writesTo .gen, ¬ inElems b (pixelCount (takenV1 .gen)) 0x03000004) := by
  refine ⟨by decide, ?_, by decide +kernel, ?_⟩
  · intro i
    rw [show decode (acceptedNow 8 tiny).build.blendAdd (acceptedNow 8 tiny).curCmd = .error .reservedOp by decide]
    simp
  · rw [show pixelCount (takenV1 .gen) = 4 by decide +kernel]
    simp [writesTo, inElems, Buf.base, Buf.elemBytes]

/-- A command in flight with V1's buffers meets the invariant, and has a next state. -/
theorem witness_StepKeepsInvariant : Inv (taken .nop 1 4 xHalf r399 [(0x01000000, 10), (0x0500000F, 1)]) ∧
    ∃ t, step (taken .nop 1 4 xHalf r399 [(0x01000000, 10), (0x0500000F, 1)]) = .next t := by
  refine ⟨⟨by decide, by decide, ?_, by decide, ⟨by decide, by decide, by decide, by decide, by decide, by decide⟩,
    by decide +kernel⟩, _, rfl⟩
  intro c hc
  simp only [taken, acceptedNow, takeSnapshot, given, List.mem_cons, List.not_mem_nil, or_false] at hc
  rcases hc with rfl | rfl
  · exact ⟨.src, by decide, by decide⟩
  · exact ⟨.pinv, by decide, by decide⟩

/-- The largest finite value. -/
def f64Largest : F64 := 0x7FEFFFFFFFFFFFFF#64

/-- The largest finite value times 1.0 is below the overflow bound, times 3.99 above it. -/
theorem witness_FmulRoundsToNearestEven :
    f64Finite f64Largest ∧ f64Finite f64One ∧ f64Finite r399 ∧
    (f64Val f64Largest * f64Val f64One).natAbs < f64Overflow * 2 ^ 1074 ∧
    f64Overflow * 2 ^ 1074 ≤ (f64Val f64Largest * f64Val r399).natAbs := by
  unfold f64Finite
  decide +kernel

/-- -2^970 less the largest finite value is exactly the overflow bound below 0; 1.0 less it stays below the bound; the
zeros are equal. -/
theorem witness_FsubRoundsToNearestEven :
    f64Finite f64Largest ∧ f64Finite f64One ∧ f64Finite 0xFC90000000000000#64 ∧
    (f64Val f64One - f64Val f64Largest).natAbs < f64Overflow ∧
    (f64Val 0xFC90000000000000#64 - f64Val f64Largest).natAbs = f64Overflow ∧
    f64Val 0x8000000000000000#64 = f64Val f64Zero := by
  unfold f64Finite
  decide +kernel

/-- IEEE-754, at the bound: the tie goes to infinity, and one unit less in the last place of 2^970 does not. -/
theorem test_fsub_overflow : f64IsInf (fsub 0xFC90000000000000#64 f64Largest) = true ∧
    fsub 0xFC8FFFFFFFFFFFFF#64 f64Largest = 0xFFEFFFFFFFFFFFFF#64 ∧
    fsub 0x8000000000000000#64 f64Zero = 0x8000000000000000#64 := by decide +kernel

theorem witness_ComparisonsFollowRealValues :
    f64Finite 0x8000000000000000#64 ∧ f64Finite f64Zero ∧ f64IsNaN 0x7FF8000000000000#64 = true := by
  unfold f64Finite
  decide

/-- x0 = 1 and r = 4, the ends of the ranges, and byte 0 of a keystream of one byte. -/
theorem witness_IteratesStayInUnitInterval :
    inUnit f64One = true ∧ fle f64Zero rMax = true ∧ fle rMax rMax = true ∧ 0 < 1 := by decide

theorem witness_QuantiseIsFloorOf256x : inUnit f64One = true ∧ inUnit 0x8000000000000000#64 = true := by decide

theorem witness_KeystreamBytesAreQuantisedIterates : 4 ≤ 8 ∧ 3 < 4 := by decide

theorem witness_DegenerateSeedGivesZeroKeystream :
    seedOk f64One rMin = true ∧ degenerate f64One = true ∧ seedOk 0x8000000000000000#64 rMax = true ∧
    degenerate 0x8000000000000000#64 = true ∧ 0 < 1 := by decide

theorem witness_ArgsortIsTheStableAscendingSort :
    3 < ([3, 1, 2, 1] : List Byte).length ∧ 2 < 3 := by decide

theorem witness_InverseTableUndoesReorder :
    isBijection [1, 2, 3, 0] 4 ∧ ([10, 20, 30, 40] : List Byte).length = 4 ∧ 3 < [1, 2, 3, 0].length := by
  unfold isBijection
  decide

theorem witness_DerivedPermIsAccepted :
    (v1Image [] []).build.wf = true ∧ shapeCount (v1Image [] []) ≤ (v1Image [] []).build.nMax := by decide +kernel

theorem witness_GatherThereAndBackKeepsSource :
    (v1Image [10, 20, 30, 40] []).build.wf = true ∧
    shapeCount (v1Image [10, 20, 30, 40] []) ≤ (v1Image [10, 20, 30, 40] []).build.nMax ∧
    (∀ i < shapeCount (v1Image [10, 20, 30, 40] []),
      (wordElem (v1Image [10, 20, 30, 40] []) .perm i).toNat < shapeCount (v1Image [10, 20, 30, 40] [])) ∧
    (∀ i < shapeCount (v1Image [10, 20, 30, 40] []),
      wordElem (v1Image [10, 20, 30, 40] []) .pinv (wordElem (v1Image [10, 20, 30, 40] []) .perm i).toNat =
        BitVec.ofNat 32 i) := by decide +kernel

theorem witness_MaskThereAndBackKeepsSource :
    (v1Image [20, 30, 40, 10] []).build.wf = true ∧
    shapeCount (v1Image [20, 30, 40, 10] []) ≤ (v1Image [20, 30, 40, 10] []).build.nMax ∧
    (v1Image [20, 30, 40, 10] []).build.blendAdd = true := by decide +kernel

theorem witness_EncryptEqualsPrimitiveSequence :
    (v1Image [10, 20, 30, 40] []).build.wf = true ∧
    shapeCount (v1Image [10, 20, 30, 40] []) ≤ (v1Image [10, 20, 30, 40] []).build.nMax ∧
    seedOk (seedX0 (v1Image [10, 20, 30, 40] [])) (seedR (v1Image [10, 20, 30, 40] [])) = true := by decide +kernel

theorem witness_DecryptEqualsPrimitiveSequence :
    (v1Image [235, 28, 34, 44] []).build.wf = true ∧
    shapeCount (v1Image [235, 28, 34, 44] []) ≤ (v1Image [235, 28, 34, 44] []).build.nMax ∧
    seedOk (seedX0 (v1Image [235, 28, 34, 44] [])) (seedR (v1Image [235, 28, 34, 44] [])) = true := by decide +kernel

/-- V2's ciphertext copied into SRC. -/
def copied (t : State) : State := { t with mem := bytesIn .src (byteElems t .dst 4) t.mem }

theorem witness_DecryptUndoesEncrypt :
    (v1Image [10, 20, 30, 40] []).build.wf = true ∧ shapeCount (v1Image [10, 20, 30, 40] []) = 4 ∧
    shapeCount (v1Image [10, 20, 30, 40] []) ≤ (v1Image [10, 20, 30, 40] []).build.nMax ∧
    seedOk (seedX0 (v1Image [10, 20, 30, 40] [])) (seedR (v1Image [10, 20, 30, 40] [])) = true ∧
    ∃ t, runCommand .encrypt (v1Image [10, 20, 30, 40] []) = .next t ∧ sameSetup (v1Image [10, 20, 30, 40] []) (copied t) ∧
      ∀ i < 4, byteElem (copied t) .src i = byteElem t .dst i := by
  refine ⟨by decide +kernel, by decide +kernel, by decide +kernel, by decide +kernel,
    nextOr tiny (runCommand .encrypt (v1Image [10, 20, 30, 40] [])), rfl, ?_, by decide +kernel⟩
  unfold sameSetup
  decide +kernel

/-- V1's state in another build, with other bytes in KS. -/
def otherBuild : State :=
  { takenV1 .decrypt with build := ⟨5, false⟩, mem := bytesIn .ks [1, 1, 1, 1] (takenV1 .decrypt).mem }

/-- Two states of two builds that agree on SRC, seed and shape and on no other buffer. -/
theorem witness_PipelinesDependOnSeedShapeAndSource :
    (takenV1 .decrypt).build.wf = true ∧ otherBuild.build.wf = true ∧
    (pixelCount (takenV1 .decrypt) ≤ (takenV1 .decrypt).build.nMax ↔ pixelCount (takenV1 .decrypt) ≤ 5) ∧
    (∀ n < pixelCount (takenV1 .decrypt), byteElem otherBuild .src n = byteElem (takenV1 .decrypt) .src n) := by
  decide +kernel

end Sys2Proof.Tests
end

section
/-! SUPPORT. The order of the values and of the patterns' keys, and rounding a magnitude as the nearest binary64 value
(00_scope.md R13, 40_keystream.md R120). -/

namespace Sys2Proof.Machine

/-! ### A sign and a magnitude -/

/-- The integer of a sign and a magnitude. -/
def signedMag (s : Bool) (n : Nat) : Int := if s then -(n : Int) else (n : Int)

@[simp] theorem signedMag_true (n : Nat) : signedMag true n = -(n : Int) := rfl

@[simp] theorem signedMag_false (n : Nat) : signedMag false n = (n : Int) := rfl

@[simp] theorem natAbs_signedMag (s : Bool) (n : Nat) : (signedMag s n).natAbs = n := by
  cases s <;> simp

theorem signedMag_mul (s t : Bool) (m n : Nat) : signedMag s m * signedMag t n = signedMag (s != t) (m * n) := by
  cases s <;> cases t <;> simp

/-- An integer is its sign and its magnitude; a zero is either sign's. -/
theorem signedMag_natAbs {s : Bool} {v : Int} (h : v ≠ 0 → s = decide (v < 0)) : signedMag s v.natAbs = v := by
  by_cases hv : v = 0
  · subst hv; cases s <;> rfl
  · rw [h hv]
    by_cases hn : v < 0
    · simp only [hn, decide_true, signedMag_true]; omega
    · simp only [hn, decide_false, signedMag_false]; omega

theorem f64Val_eq_mag (a : F64) : f64Val a = signedMag (f64Sign a) (f64Mag a) := rfl

theorem f64Val_eq (a : F64) : f64Val a = signedMag (f64Sign a) (lowMag (f64Low a)) := by
  rw [f64Val_eq_mag, f64Mag_eq]

theorem f64Key_eq (a : F64) : f64Key a = signedMag (f64Sign a) (f64Low a) := rfl

/-! ### The order of keys is the order of values -/

/-- Magnitudes are ordered as lower bits are, and zero is kept, so the order holds with signs too. -/
theorem signedMag_lowMag_le (s t : Bool) (m n : Nat) :
    signedMag s (lowMag m) ≤ signedMag t (lowMag n) ↔ signedMag s m ≤ signedMag t n := by
  have hmn := @lowMag_le_lowMag m n
  have hnm := @lowMag_le_lowMag n m
  have hm0 := @lowMag_le_lowMag m 0
  have hn0 := @lowMag_le_lowMag n 0
  rw [lowMag_zero] at hm0 hn0
  cases s <;> cases t <;> simp only [signedMag_true, signedMag_false] <;> omega

theorem f64Val_le_iff (a b : F64) : f64Val a ≤ f64Val b ↔ f64Key a ≤ f64Key b := by
  rw [f64Val_eq, f64Val_eq, signedMag_lowMag_le, f64Key_eq, f64Key_eq]

theorem f64Val_eq_iff (a b : F64) : f64Val a = f64Val b ↔ f64Key a = f64Key b := by
  rw [le_antisymm_iff, f64Val_le_iff, f64Val_le_iff, ← le_antisymm_iff]

theorem f64IsNaN_of_finite {a : F64} (h : f64Finite a) : f64IsNaN a = false := by
  simp [f64IsNaN, show f64Exp a ≠ 2047 from h]

theorem f64IsInf_of_finite {a : F64} (h : f64Finite a) : f64IsInf a = false := by
  simp [f64IsInf, show f64Exp a ≠ 2047 from h]

/-- Settles O44: away from NaN the comparisons are those of the keys, which order patterns as their values. -/
theorem comparisonsFollowRealValues : Obligations.ComparisonsFollowRealValues := by
  intro a b
  constructor
  · intro ha hb
    simp [fle, feq, f64IsNaN_of_finite ha, f64IsNaN_of_finite hb, f64Val_le_iff, f64Val_eq_iff]
  · rintro (h | h) <;> simp [fle, feq, h]

/-! ### Rounding to the nearest integer -/

/-- A rounded quotient is at most half a place below the exact one, and the even one at half a place. -/
theorem roundShift_half_above (a d : Nat) :
    2 * a ≤ (2 * roundShift a d + 1) * 2 ^ d ∧
    (2 * a = (2 * roundShift a d + 1) * 2 ^ d → roundShift a d % 2 = 0) := by
  have hd := Nat.div_add_mod a (2 ^ d)
  have hm := Nat.mod_lt a (Nat.two_pow_pos d)
  unfold roundShift
  generalize a / 2 ^ d = y at *
  generalize a % 2 ^ d = r at *
  generalize 2 ^ d = x at *
  have h0 : (2 * y + 1) * x = 2 * (x * y) + x := by ring
  have h1 : (2 * (y + 1) + 1) * x = 2 * (x * y) + 3 * x := by ring
  split <;> omega

/-- A rounded quotient is at most half a place above the exact one, and the even one at half a place. -/
theorem roundShift_half_below (a d : Nat) :
    2 * roundShift a d * 2 ^ d ≤ 2 * a + 2 ^ d ∧
    (2 * roundShift a d * 2 ^ d = 2 * a + 2 ^ d → roundShift a d % 2 = 0) := by
  have hd := Nat.div_add_mod a (2 ^ d)
  have hm := Nat.mod_lt a (Nat.two_pow_pos d)
  unfold roundShift
  generalize a / 2 ^ d = y at *
  generalize a % 2 ^ d = r at *
  generalize 2 ^ d = x at *
  have h0 : 2 * y * x = 2 * (x * y) := by ring
  have h1 : 2 * (y + 1) * x = 2 * (x * y) + 2 * x := by ring
  split <;> omega

/-! ### A rounded magnitude lies within half a gap of the exact one -/

/-- The next magnitude after q places of 2^p is at least one place more. -/
theorem le_lowMag_succ_place {p q : Nat} (hq : q ≤ 2 ^ 53) (h : p = 0 ∨ 2 ^ 52 ≤ q) :
    (q + 1) * 2 ^ p ≤ lowMag (p * 2 ^ 52 + q + 1) := by
  rcases Nat.lt_or_eq_of_le hq with hlt | rfl
  · rw [Nat.add_assoc, lowMag_place (by omega) (by omega)]
  · have hn := lowMag_place (p := p + 1) (q := 2 ^ 52 + 1) (by omega) (by omega)
    rw [show p * 2 ^ 52 + 2 ^ 53 + 1 = (p + 1) * 2 ^ 52 + (2 ^ 52 + 1) by omega, hn, Nat.pow_succ]
    omega

/-- An exact magnitude is at most halfway from its rounding up to any greater one, and halfway only from an even one. -/
theorem roundBits_half_above {a d m : Nat} (h : roundBits a d < f64InfBits) (hm : roundBits a d < m) :
    2 * a ≤ (lowMag (roundBits a d) + lowMag m) * 2 ^ d ∧
    (2 * a = (lowMag (roundBits a d) + lowMag m) * 2 ^ d → roundBits a d % 2 = 0) := by
  obtain ⟨hn, hmag⟩ := lowMag_roundBits h
  obtain ⟨hle, hlo⟩ := roundSignificand_bounds a d
  have hhalf := roundShift_half_above a (d + keptPlace (a / 2 ^ d))
  generalize keptPlace (a / 2 ^ d) = p at *
  generalize roundShift a (d + p) = q at *
  have hnext : (q + 1) * 2 ^ p ≤ lowMag m :=
    Nat.le_trans (le_lowMag_succ_place hle hlo) (lowMag_le_lowMag.2 (by omega))
  have hgap : (2 * q + 1) * 2 ^ (d + p) ≤ (lowMag (roundBits a d) + lowMag m) * 2 ^ d := by
    calc (2 * q + 1) * 2 ^ (d + p) = (q * 2 ^ p + (q + 1) * 2 ^ p) * 2 ^ d := by rw [Nat.pow_add]; ring
      _ ≤ _ := Nat.mul_le_mul_right _ (by omega)
  refine ⟨by omega, fun heq => ?_⟩
  have := hhalf.2 (by omega)
  omega

/-- An exact magnitude is at least halfway from any smaller one up to its rounding, and halfway only to an even one. -/
theorem roundBits_half_below {a d m : Nat} (h : roundBits a d < f64InfBits) (hm : m < roundBits a d) :
    (lowMag m + lowMag (roundBits a d)) * 2 ^ d ≤ 2 * a ∧
    ((lowMag m + lowMag (roundBits a d)) * 2 ^ d = 2 * a → roundBits a d % 2 = 0) := by
  obtain ⟨hn, hmag⟩ := lowMag_roundBits h
  obtain ⟨hle, hlo⟩ := roundSignificand_bounds a d
  have hhalf := roundShift_half_below a (d + keptPlace (a / 2 ^ d))
  have hkept := @le_of_keptPlace (a / 2 ^ d)
  generalize keptPlace (a / 2 ^ d) = p at *
  generalize roundShift a (d + p) = q at *
  by_cases hleast : p ≠ 0 ∧ q = 2 ^ 52
  · -- the least significand of its place: rounding went down, and the gap below is the smaller one
    obtain ⟨hp, rfl⟩ := hleast
    have hdown : lowMag (roundBits a d) * 2 ^ d ≤ a := by
      rw [hmag, ← Nat.pow_add]
      exact (Nat.le_div_iff_mul_le (Nat.two_pow_pos d)).1 (hkept hp)
    have hlt : lowMag m * 2 ^ d < lowMag (roundBits a d) * 2 ^ d :=
      Nat.mul_lt_mul_of_pos_right (lowMag_lt_lowMag hm) (Nat.two_pow_pos d)
    rw [Nat.add_mul]
    omega
  · obtain ⟨r, rfl⟩ : ∃ r, q = r + 1 := ⟨q - 1, by omega⟩
    have hprev : lowMag m ≤ r * 2 ^ p := by
      rw [← lowMag_place (p := p) (q := r) (by omega) (by omega)]
      exact lowMag_le_lowMag.2 (by omega)
    have hgap : (lowMag m + lowMag (roundBits a d)) * 2 ^ d + 2 ^ (d + p) ≤ 2 * (r + 1) * 2 ^ (d + p) := by
      calc (lowMag m + lowMag (roundBits a d)) * 2 ^ d + 2 ^ (d + p)
          ≤ (r * 2 ^ p + (r + 1) * 2 ^ p) * 2 ^ d + 2 ^ (d + p) := by
            rw [hmag]; exact Nat.add_le_add_right (Nat.mul_le_mul_right _ (by omega)) _
        _ = _ := by rw [Nat.pow_add]; ring
    refine ⟨by omega, fun heq => ?_⟩
    have := hhalf.2 (by omega)
    omega

/-- No magnitude is nearer to the exact one than its rounding, and none as near unless the rounding is even. -/
theorem roundBits_nearest {a d : Nat} (h : roundBits a d < f64InfBits) (m : Nat) :
    ((a : Int) - (lowMag (roundBits a d) * 2 ^ d : Nat)).natAbs ≤ ((a : Int) - (lowMag m * 2 ^ d : Nat)).natAbs ∧
    (((a : Int) - (lowMag (roundBits a d) * 2 ^ d : Nat)).natAbs = ((a : Int) - (lowMag m * 2 ^ d : Nat)).natAbs →
      m ≠ roundBits a d → roundBits a d % 2 = 0) := by
  have hlt : ∀ {k n}, k < n → lowMag k * 2 ^ d < lowMag n * 2 ^ d := fun hkn =>
    Nat.mul_lt_mul_of_pos_right (lowMag_lt_lowMag hkn) (Nat.two_pow_pos d)
  rcases Nat.lt_trichotomy m (roundBits a d) with hm | rfl | hm
  · have hhalf := roundBits_half_below h hm
    have := hlt hm
    rw [Nat.add_mul] at hhalf
    omega
  · simp
  · have hhalf := roundBits_half_above h hm
    have := hlt hm
    rw [Nat.add_mul] at hhalf
    omega

/-! ### A rounded pattern -/

theorem roundBits_lt_two_pow (a d : Nat) : roundBits a d < 2 ^ 63 :=
  lt_of_le_of_lt (Nat.min_le_right _ _) f64InfBits_lt

theorem f64Val_pack (s : Bool) {n : Nat} (h : n < 2 ^ 63) : f64Val (f64Pack s n) = signedMag s (lowMag n) := by
  rw [f64Val_eq, f64Sign_pack s h, f64Low_pack s h]

/-- The last bit of a pattern is that of its lower bits. -/
theorem getLsbD_zero_pack (s : Bool) {n : Nat} (h : n < 2 ^ 63) : (f64Pack s n).getLsbD 0 = decide (n % 2 = 1) := by
  rw [BitVec.getLsbD, Nat.testBit_zero, f64Pack_toNat s h]
  cases s
  · simp
  · congr 1
    apply propext
    simp only [if_true]
    omega

/-- A signed magnitude is as far from one of its own sign as the magnitudes are apart. -/
theorem natAbs_signedMag_sub_same (s : Bool) (a m d : Nat) :
    (signedMag s a - signedMag s m * 2 ^ d).natAbs = ((a : Int) - (m * 2 ^ d : Nat)).natAbs := by
  cases s
  · simp
  · simp only [signedMag_true, Nat.cast_mul, Nat.cast_pow, Nat.cast_ofNat, Int.neg_mul]
    omega

/-- From one of the other sign it is the magnitudes' sum away. -/
theorem natAbs_signedMag_sub_not (s : Bool) (a m d : Nat) :
    (signedMag s a - signedMag (!s) m * 2 ^ d).natAbs = a + m * 2 ^ d := by
  have h : ((m * 2 ^ d : Nat) : Int) = (m : Int) * 2 ^ d := by push_cast; rfl
  cases s <;> simp only [Bool.not_true, Bool.not_false, signedMag_true, signedMag_false, Int.neg_mul, ← h] <;> omega

/-- Below the overflow bound a rounded pattern is the binary64 value nearest to its signed magnitude. A value of the
other sign is no nearer than zero, so the magnitudes of the same sign decide. -/
theorem nearestEven_pack_roundBits (s : Bool) {a d : Nat} (h : a < f64Overflow * 2 ^ d) :
    nearestEven (signedMag s a) d (f64Pack s (roundBits a d)) := by
  have hfin := roundBits_lt_inf.2 h
  have hlt := roundBits_lt_two_pow a d
  refine ⟨(f64Finite_iff _).2 (by rwa [f64Low_pack s hlt]), fun c _ => ?_⟩
  have hnear := roundBits_nearest hfin (f64Low c)
  have hzero := roundBits_nearest hfin 0
  rw [f64Val_pack s hlt, getLsbD_zero_pack s hlt, f64Val_eq c, natAbs_signedMag_sub_same]
  rcases Bool.eq_or_eq_not (f64Sign c) s with hs | hs
  · rw [hs, natAbs_signedMag_sub_same]
    refine ⟨hnear.1, fun heq hne => ?_⟩
    have := hnear.2 heq (fun hm => hne (by rw [hm]))
    simp [this]
  · rw [hs, natAbs_signedMag_sub_not]
    simp only [lowMag_zero, Nat.zero_mul] at hzero
    refine ⟨by omega, fun heq hne => ?_⟩
    have hc : lowMag (f64Low c) = 0 := by
      have : lowMag (f64Low c) * 2 ^ d = 0 := by omega
      simpa using this
    rw [hc] at heq hne
    have := hzero.2 (by omega) (fun hm => hne (by rw [← hm]; cases s <;> simp))
    simp [this]

/-- From the overflow bound on it is an infinity. -/
theorem f64IsInf_pack_roundBits (s : Bool) {a d : Nat} (h : f64Overflow * 2 ^ d ≤ a) :
    f64IsInf (f64Pack s (roundBits a d)) = true := by
  have hge : ¬ roundBits a d < f64InfBits := fun hlt => Nat.not_lt.2 h (roundBits_lt_inf.1 hlt)
  have hle : roundBits a d ≤ f64InfBits := Nat.min_le_right _ _
  rw [f64IsInf_eq, f64Low_pack s (roundBits_lt_two_pow a d), decide_eq_true_eq]
  omega

/-! ### The two operations on finite values -/

theorem fmul_of_finite {a b : F64} (ha : f64Finite a) (hb : f64Finite b) :
    fmul a b = f64Pack (f64Sign a != f64Sign b) (roundBits (f64Mag a * f64Mag b) 1074) := by
  simp [fmul, f64IsNaN_of_finite, f64IsInf_of_finite, ha, hb]

/-- The sign of a difference: that of the exact one, and a zero's is negative for -0.0 less +0.0 only. -/
def subSign (a b : F64) : Bool :=
  if f64Val a = f64Val b then f64Sign a && !f64Sign b else decide (f64Val a < f64Val b)

theorem subSign_of_ne {a b : F64} (h : f64Val a - f64Val b ≠ 0) : subSign a b = decide (f64Val a - f64Val b < 0) := by
  rw [subSign, if_neg (by omega), decide_eq_decide]
  omega

/-- Equal values with a negative and a positive sign are zeros, so fsub's test for a zero follows from the signs. -/
theorem zeroSign_of_val_eq {a b : F64} (h : f64Val a = f64Val b) :
    (decide (f64Mag a = 0) && f64Sign a && !f64Sign b) = (f64Sign a && !f64Sign b) := by
  rw [f64Val_eq_mag, f64Val_eq_mag] at h
  cases ha : f64Sign a with
  | false => simp
  | true =>
    cases hb : f64Sign b with
    | true => simp
    | false =>
      rw [ha, hb, signedMag_true, signedMag_false] at h
      have hz : f64Mag a = 0 := by omega
      simp [hz]

theorem fsub_of_finite {a b : F64} (ha : f64Finite a) (hb : f64Finite b) :
    fsub a b = f64Pack (subSign a b) (roundBits (f64Val a - f64Val b).natAbs 0) := by
  simp only [fsub, f64IsNaN_of_finite, f64IsInf_of_finite, ha, hb, Bool.or_self, Bool.false_eq_true, if_false, subSign]
  split
  · rename_i heq
    have hz : roundBits (f64Val a - f64Val b).natAbs 0 = 0 := by rw [heq, Int.sub_self]; decide
    rw [hz, zeroSign_of_val_eq heq]
  · rfl

/-- Settles O42: the exact product is the signed product of the magnitudes, and fmul packs its rounding. -/
theorem fmulRoundsToNearestEven : Obligations.FmulRoundsToNearestEven := by
  intro a b ha hb
  rw [fmul_of_finite ha hb, f64Val_eq_mag a, f64Val_eq_mag b, signedMag_mul, natAbs_signedMag]
  exact ⟨f64Sign_pack _ (roundBits_lt_two_pow _ _), nearestEven_pack_roundBits _, f64IsInf_pack_roundBits _⟩

/-- Settles O43: the exact difference is its sign and its magnitude, and fsub packs its rounding. -/
theorem fsubRoundsToNearestEven : Obligations.FsubRoundsToNearestEven := by
  intro a b ha hb
  have hbound : f64Overflow * 2 ^ 0 = f64Overflow := by rw [Nat.pow_zero, Nat.mul_one]
  have hnear := @nearestEven_pack_roundBits (subSign a b) (f64Val a - f64Val b).natAbs 0
  have hinf := @f64IsInf_pack_roundBits (subSign a b) (f64Val a - f64Val b).natAbs 0
  rw [signedMag_natAbs subSign_of_ne, hbound] at hnear
  rw [hbound] at hinf
  rw [fsub_of_finite ha hb]
  exact ⟨f64Sign_pack _ (roundBits_lt_two_pow _ _), hnear, hinf⟩

end Sys2Proof.Machine
end

section
/-! SUPPORT. What every step keeps: the storage inside the mapped bytes, a legal STATUS, the snapshot of a command in
flight and the build; and which step makes an idle unit busy (10_state.md R26, R27, R40, R52). -/

namespace Sys2Proof.Machine

/-! ### The storage stays canonical and inside the mapped bytes -/

/-- The invariant's part about the storage: canonical, and every written offset mapped (10_state.md R40, log 4). -/
def MemSound (b : Build) (m : Memory) : Prop := Memory.wf m ∧ ∀ c ∈ m, mappedByte b c.1

/-- Buffer writes that touch mapped bytes only. -/
def WritesMapped (b : Build) (ws : List BufWrite) : Prop := ∀ w ∈ ws, ∀ a, w.touches a → mappedByte b a

theorem Inv.memSound {s : State} (h : Inv s) : MemSound s.build s.mem := ⟨h.memCanonical, h.memMapped⟩

theorem MemSound.storeBytes {b : Build} {m : Memory} {a : Nat} {bs : List Byte} (h : MemSound b m)
    (hbs : ∀ x, a ≤ x → x < a + bs.length → mappedByte b x) : MemSound b (storeBytes m a bs) := by
  refine ⟨storeBytes_wf h.1 a bs, fun c hc => ?_⟩
  rcases key_of_mem_storeBytes hc with ⟨hlo, hhi⟩ | hc
  · exact hbs c.1 hlo hhi
  · exact h.2 c hc

theorem MemSound.applyWrites {b : Build} {m : Memory} {ws : List BufWrite} (h : MemSound b m)
    (hws : WritesMapped b ws) : MemSound b (applyWrites m ws) := by
  refine ⟨applyWrites_wf h.1 ws, fun c hc => ?_⟩
  rcases key_of_mem_applyWrites hc with ⟨w, hw, ht⟩ | hc
  · exact hws w hw c.1 ht
  · exact h.2 c hc

/-- The elements below N_MAX are mapped, so a run's writes are: they passed the shape check. -/
theorem writesMapped_of_runOf {i : Instr} {s : State} {ws : List BufWrite} {b : Bool} {x : Option F64}
    (h : runOf i s = .ok ws b x) : WritesMapped s.build ws := by
  intro w hw a ha
  obtain ⟨hn, hcov⟩ := (runOf_ok h).1 w hw
  obtain ⟨hlo, hhi⟩ := (hcov.touches a).1 ha
  exact ⟨w.buf, hlo, Nat.lt_of_lt_of_le hhi (Nat.add_le_add_left (Nat.mul_le_mul_left _ hn) _)⟩

theorem writesMapped_nil (b : Build) : WritesMapped b [] := by simp [WritesMapped]

theorem writesMapped_pendingWrites (s : State) : WritesMapped s.build (pendingWrites s) := by
  unfold pendingWrites
  split
  · split
    · exact writesMapped_nil _
    · split
      · exact writesMapped_nil _
      · rename_i hrun
        exact writesMapped_of_runOf hrun
  · exact writesMapped_nil _

theorem scrapWrite_touches (d : Nat) (w : BufWrite) (a : Nat) : (scrapWrite d w).touches a ↔ w.touches a := by
  simp [BufWrite.touches, scrapWrite]

theorem WritesMapped.map_scrapWrite {b : Build} {ws : List BufWrite} (h : WritesMapped b ws) (d : Nat) :
    WritesMapped b (ws.map (scrapWrite d)) := by
  intro v hv a ha
  obtain ⟨w, hw, rfl⟩ := List.mem_map.1 hv
  exact h w hw a ((scrapWrite_touches d w a).1 ha)

/-! ### STATUS stays legal -/

/-- Legality speaks of STATUS alone. -/
theorem StatusLegal.congr {s t : State} (h : StatusLegal s) (hst : t.status = s.status) : StatusLegal t := by
  obtain ⟨alone, reserved, notBoth, code, noCode, noWarn⟩ := h
  simp only [busy, done, err, warn, errCode, ← hst] at alone reserved notBoth code noCode noWarn
  exact ⟨alone, reserved, notBoth, code, noCode, noWarn⟩

theorem statusLegal_of_zero {s : State} (h : s.status = 0#32) : StatusLegal s := by
  constructor <;> simp [busy, done, err, warn, errCode, h]

theorem statusLegal_of_busyStatus {s : State} (h : s.status = busyStatus) : StatusLegal s := by
  constructor <;> simp [busy, done, err, warn, errCode, h, busyStatus]

theorem statusLegal_completeOk (ws : List BufWrite) (b : Bool) (x : Option F64) (s : State) :
    StatusLegal (completeOk ws b x s) := by
  obtain ⟨-, -, -, -, -, hreserved⟩ := doneStatus_bits b
  constructor <;> simp [hreserved]

theorem statusLegal_completeError (c : ErrCode) (n : Word) (s : State) : StatusLegal (completeError c n s) := by
  obtain ⟨-, -, -, -, -, hreserved⟩ := errorStatus_bits c
  constructor <;> simp [hreserved, errNumber_range c]

/-- A W1C write clears ERR and ERR_CODE together, and BUSY never (44_control.md R211). -/
theorem StatusLegal.writeStatus {s : State} (h : StatusLegal s) (v : Word) : StatusLegal (writeStatus v s) where
  busyAlone hb := by
    rw [writeStatus_status, h.busyAlone (by simpa using hb), busyStatus_clear]
  reservedZero := by rw [writeStatus_reserved, h.reservedZero]
  doneOrErr := by
    have := h.doneOrErr
    simp only [done_writeStatus, err_writeStatus]
    grind
  codeWithErr he := by
    rw [err_writeStatus, Bool.and_eq_true, Bool.not_eq_true'] at he
    rw [errCode_writeStatus, he.2]
    exact h.codeWithErr he.1
  noCodeWithoutErr he := by
    rw [err_writeStatus] at he
    rw [errCode_writeStatus]
    cases hv : v.getLsbD 2 with
    | true => rfl
    | false => exact h.noCodeWithoutErr (by rwa [hv, Bool.not_false, Bool.and_true] at he)
  warnWithoutErr := by
    have := h.warnWithoutErr
    simp only [warn_writeStatus, err_writeStatus]
    grind

/-! ### Ways to meet the invariant -/

/-- The snapshot agrees with the registers (20_memory.md R69). -/
def SnapshotAgrees (s : State) : Prop := s.curN = shapeProduct s ∧ s.curX0 = seedX0 s ∧ s.curR = seedR s

/-- The invariant says nothing of the snapshot while the unit is idle. -/
theorem Inv.of_idle {t : State} (hbuild : t.build.wf = true) (hmem : MemSound t.build t.mem)
    (hctrl : t.ctrl &&& 0xFFFFFFFE#32 = 0#32) (hst : StatusLegal t) (hb : busy t = false) : Inv t :=
  ⟨hbuild, hmem.1, hmem.2, hctrl, hst, by simp [hb]⟩

/-- The invariant reads the build, the storage, CTRL, STATUS, and while a command is in flight the snapshot and the
registers it was sampled from. -/
theorem Inv.congr {s t : State} (h : Inv s) (hbuild : t.build = s.build) (hmem : t.mem = s.mem)
    (hctrl : t.ctrl = s.ctrl) (hst : t.status = s.status) (hsnap : busy s = true → SnapshotAgrees t) : Inv t where
  buildExists := hbuild ▸ h.buildExists
  memCanonical := hmem ▸ h.memCanonical
  memMapped := by rw [hbuild, hmem]; exact h.memMapped
  ctrlReservedZero := hctrl ▸ h.ctrlReservedZero
  statusLegal := h.statusLegal.congr hst
  snapshotHeld hb := hsnap (by rwa [busy, hst] at hb)

/-- The host's script, its last response and the count of the latency are the model's own fields. -/
theorem Inv.withHost {s : State} (h : Inv s) (es : List HostEvent) (r : Response) (n : Nat) :
    Inv { s with host := es, resp := r, wait := n } :=
  h.congr rfl rfl rfl rfl h.snapshotHeld

/-! ### The unit's step -/

@[simp] theorem complete_build (r : RunResult) (s : State) : (complete r s).build = s.build := by
  rw [complete_eq]

theorem Inv.completeError {s : State} (h : Inv s) (c : ErrCode) (n : Word) : Inv (completeError c n s) :=
  .of_idle h.buildExists h.memSound h.ctrlReservedZero (statusLegal_completeError c n s) (by simp)

theorem Inv.completeOk {s : State} (h : Inv s) {ws : List BufWrite} (hws : WritesMapped s.build ws) (b : Bool)
    (x : Option F64) : Inv (completeOk ws b x s) :=
  .of_idle (by simpa using h.buildExists) (by simpa using h.memSound.applyWrites hws)
    (by simpa using h.ctrlReservedZero) (statusLegal_completeOk ws b x s) (by simp)

theorem Inv.complete_runOf {s : State} (h : Inv s) (i : Instr) : Inv (complete (runOf i s) s) := by
  cases hrun : runOf i s with
  | error c n => exact h.completeError c n
  | ok ws b x => exact h.completeOk (writesMapped_of_runOf hrun) b x

theorem completeCurrent_keeps_inv {s t : State} (hi : Inv s) (h : completeCurrent s = .next t) :
    Inv t ∧ t.build = s.build := by
  rcases completeCurrent_next h with ⟨i, -, rfl⟩ | rfl
  · exact ⟨hi.complete_runOf i, complete_build _ s⟩
  · exact ⟨hi.completeError _ _, rfl⟩

/-! ### The host's step -/

theorem Inv.hardwareReset {s : State} (h : Inv s) : Inv (hardwareReset s) :=
  .of_idle h.buildExists (h.memSound.applyWrites ((writesMapped_pendingWrites s).map_scrapWrite s.draws))
    (by simp) (statusLegal_of_zero rfl) (by simp)

theorem Inv.resetRegisters {s : State} (h : Inv s) : Inv (resetRegisters s) :=
  .of_idle h.buildExists h.memSound (by simp) (statusLegal_of_zero rfl) (by simp)

theorem Inv.writeStatus {s : State} (h : Inv s) (v : Word) : Inv (writeStatus v s) where
  buildExists := h.buildExists
  memCanonical := h.memCanonical
  memMapped := h.memMapped
  ctrlReservedZero := h.ctrlReservedZero
  statusLegal := h.statusLegal.writeStatus v
  snapshotHeld hb := h.snapshotHeld (by simpa using hb)

theorem Inv.accept {s : State} (h : Inv s) (w : Word) : Inv (accept w s) where
  buildExists := h.buildExists
  memCanonical := h.memCanonical
  memMapped := h.memMapped
  ctrlReservedZero := h.ctrlReservedZero
  statusLegal := statusLegal_of_busyStatus rfl
  snapshotHeld _ := ⟨rfl, rfl, rfl⟩

theorem writeCtrl_cases (v : Word) (s : State) : writeCtrl v s = resetRegisters s ∨
    writeCtrl v s = { s with ctrl := (BitVec.ofBool (v.getLsbD 0)).setWidth 32 } := by
  unfold writeCtrl
  split
  · exact .inl rfl
  · exact .inr rfl

@[simp] theorem writeCtrl_build (v : Word) (s : State) : (writeCtrl v s).build = s.build := by
  rcases writeCtrl_cases v s with e | e <;> simp [e]

/-- A CTRL write stores IRQ_EN alone (44_control.md R212). -/
theorem setWidth_ofBool_reservedZero (b : Bool) :
    (BitVec.ofBool b).setWidth 32 &&& 0xFFFFFFFE#32 = 0#32 := by
  cases b <;> rfl

theorem Inv.writeCtrl {s : State} (h : Inv s) (v : Word) : Inv (writeCtrl v s) := by
  rcases writeCtrl_cases v s with e | e <;> rw [e]
  · exact h.resetRegisters
  · exact ⟨h.buildExists, h.memCanonical, h.memMapped, setWidth_ofBool_reservedZero _, h.statusLegal.congr rfl,
      h.snapshotHeld⟩

theorem writeReg_build (v : Word) (s : State) (r : Reg) : (writeReg v s r).build = s.build := by
  cases r with
  | ctrl => exact writeCtrl_build v s
  | _ => rfl

/-- A register write keeps the invariant where BUSY lets it pass: a STATUS write always, any other while idle, so that
no snapshot loses its registers (20_memory.md R69). -/
theorem Inv.writeReg {s : State} (h : Inv s) (v : Word) {r : Reg} (hr : busy s = true → r = .status) :
    Inv (writeReg v s r) := by
  cases r with
  | status => exact h.writeStatus v
  | ctrl => exact h.writeCtrl v
  | cmd => exact h.accept v
  | x0Lo | x0Hi | rLo | rHi | height | width =>
    exact h.congr rfl rfl rfl rfl (fun hb => absurd (hr hb) (by decide))
  | id | caps | nmax | xlastLo | xlastHi | errinfo => exact h

theorem Inv.bufferWrite {s : State} (h : Inv s) (hb : busy s = false) {u : Buf} {a : Nat} {bs : List Byte}
    (hlo : u.base ≤ a) (hhi : a + bs.length ≤ u.base + u.elemBytes * s.build.nMax) :
    Inv { s with mem := storeBytes s.mem a bs } :=
  .of_idle h.buildExists (h.memSound.storeBytes fun _ h1 h2 => ⟨u, by omega, by omega⟩) h.ctrlReservedZero
    (h.statusLegal.congr rfl) hb

theorem memWrite_keeps_inv {s t : State} {a : Word} {w : Width} {v : Word} (hi : Inv s)
    (h : memWrite s a w v = .ok t) : Inv t ∧ t.build = s.build := by
  rcases memWrite_ok_cases h with ⟨r, -, -, -, hr, rfl⟩ | ⟨u, hb, -, -, hlo, hhi, rfl⟩
  · exact ⟨hi.writeReg v hr, writeReg_build v s r⟩
  · exact ⟨hi.bufferWrite hb hlo (by simpa using hhi), rfl⟩

theorem serveTxn_keeps_inv {s : State} (hi : Inv s) (x : Txn) :
    Inv (serveTxn x s) ∧ (serveTxn x s).build = s.build := by
  rcases serveTxn_cases x s with ⟨r, e⟩ | ⟨a, w, v, t, -, hw, e⟩ <;> rw [e]
  · exact ⟨hi.withHost _ r _, rfl⟩
  · obtain ⟨ht, hbuild⟩ := memWrite_keeps_inv hi hw
    exact ⟨ht.withHost _ _ _, hbuild⟩

theorem serve_keeps_inv {s : State} (hi : Inv s) (e : HostEvent) :
    Inv (serve e s) ∧ (serve e s).build = s.build := by
  cases e with
  | txn x => exact serveTxn_keeps_inv hi x
  | hwReset cut => exact ⟨hi.hardwareReset, rfl⟩

/-- The host's move does nothing without an event, and else serves the oldest in the state that has let it pass. -/
theorem hostMoves_cases (s : State) : (s.host = [] ∧ hostMoves s = s) ∨
    ∃ e es, s.host = e :: es ∧ hostMoves s = serve e { s with host := es, wait := s.wait - 1 } := by
  cases h : s.host with
  | nil => exact .inl ⟨rfl, by rw [hostMoves, h]⟩
  | cons e es => exact .inr ⟨e, es, rfl, by rw [hostMoves, h]⟩

theorem hostMoves_keeps_inv {s : State} (hi : Inv s) : Inv (hostMoves s) ∧ (hostMoves s).build = s.build := by
  rcases hostMoves_cases s with ⟨-, h⟩ | ⟨e, es, -, h⟩ <;> rw [h]
  · exact ⟨hi, rfl⟩
  · exact serve_keeps_inv (hi.withHost es s.resp (s.wait - 1)) e

/-- Settles O41: the unit's completion and the host's move each keep the invariant and the build. -/
theorem stepKeepsInvariant : Obligations.StepKeepsInvariant := by
  intro s t hi h
  rcases step_cases h with ⟨-, hc⟩ | ⟨-, rfl⟩
  · exact completeCurrent_keeps_inv hi hc
  · exact hostMoves_keeps_inv hi

/-! ### What makes an idle unit busy -/

theorem busy_writeCtrl {s : State} (hb : busy s = false) (v : Word) : busy (writeCtrl v s) = false := by
  rcases writeCtrl_cases v s with e | e <;> rw [e]
  · exact busy_resetRegisters s
  · exact hb

theorem busy_writeReg {s : State} (hb : busy s = false) (v : Word) {r : Reg} (hr : r ≠ .cmd) :
    busy (writeReg v s r) = false := by
  cases r with
  | cmd => exact absurd rfl hr
  | ctrl => exact busy_writeCtrl hb v
  | status => exact (busy_writeStatus v s).trans hb
  | _ => exact hb

theorem memWrite_makes_busy {s t : State} {a : Word} {w : Width} {v : Word} (hb : busy s = false)
    (h : memWrite s a w v = .ok t) (ht : busy t = true) : a = 0x014#32 ∧ w = .w4 ∧ t.curCmd = v := by
  rcases memWrite_ok_cases h with ⟨r, ha, hw, -, -, rfl⟩ | ⟨u, -, -, -, -, -, rfl⟩
  · by_cases hr : r = .cmd
    · subst hr
      exact ⟨BitVec.eq_of_toNat_eq ha, hw, rfl⟩
    · simp [busy_writeReg hb v hr] at ht
  · exact absurd (ht.symm.trans hb) (by decide)

theorem serve_makes_busy {s : State} (e : HostEvent) (h : busy (serve e s) = true) (hb : busy s = false) :
    ∃ v, e = .txn (.write 0x014#32 .w4 v) ∧ (serve e s).curCmd = v := by
  cases e with
  | hwReset cut => simp [serve] at h
  | txn x =>
    rw [serve] at h ⊢
    rcases serveTxn_cases x s with ⟨r, hs⟩ | ⟨a, w, v, t, rfl, hw, hs⟩ <;> rw [hs] at h ⊢
    · exact absurd (h.symm.trans hb) (by decide)
    · obtain ⟨rfl, rfl, hcmd⟩ := memWrite_makes_busy hb hw h
      exact ⟨v, rfl, hcmd⟩

/-- Settles O8: the idle unit does not move, and the host's event that makes it busy is a CMD write. -/
theorem onlyCmdWriteMakesBusy : Obligations.OnlyCmdWriteMakesBusy := by
  intro s t hb h ht
  rcases step_cases h with ⟨hu, -⟩ | ⟨-, rfl⟩
  · simp [unitMoves, hb] at hu
  · rcases hostMoves_cases s with ⟨-, hm⟩ | ⟨e, es, hhost, hm⟩ <;> rw [hm] at ht ⊢
    · exact absurd (ht.symm.trans hb) (by decide)
    · obtain ⟨v, rfl, hcmd⟩ := serve_makes_busy e ht hb
      exact ⟨v, es, hhost, hcmd⟩

end Sys2Proof.Machine
end

section
/-! SUPPORT. What the host reads from each register, and what it reads back from the seed and shape registers
(10_state.md R22 to R34). -/

namespace Sys2Proof.Machine

/-! ### Register reads -/

/-- The fifteen registers, in the order of their offsets (10_state.md R20). -/
def allRegs : List Reg :=
  [.id, .caps, .nmax, .ctrl, .status, .cmd, .x0Lo, .x0Hi, .rLo, .rHi, .height, .width, .xlastLo, .xlastHi, .errinfo]

/-- The address of a register. -/
def regAddr (r : Reg) : Word := BitVec.ofNat 32 (regOffset r)

theorem regAddr_toNat (r : Reg) : (regAddr r).toNat = regOffset r := by cases r <;> rfl

theorem memRead_regAddr (s : State) (r : Reg) : memRead s (regAddr r) .w4 = .ok (readReg s r) :=
  memRead_reg r (regAddr_toNat r)

theorem serve_read_ok {s : State} {a : Word} {w : Width} {d : Word} (h : memRead s a w = .ok d) :
    serve (.txn (.read a w)) s = { s with resp := .readOkay d } := by
  simp [serve, serveTxn, h]

/-- CAPS holds CMDSET = 1 in bits 15:8 and BLEND_ADD in bit 0 (10_state.md R23). -/
theorem capsWord_eq (b : Build) : capsWord b = if b.blendAdd then 0x00000101#32 else 0x00000100#32 := by
  unfold capsWord
  cases b.blendAdd <;> rfl

/-- CTRL reads as IRQ_EN alone (10_state.md R25). -/
theorem ctrlWord_eq (s : State) : ctrlWord s = if s.ctrl.getLsbD 0 then 1#32 else 0#32 := by
  unfold ctrlWord irqEn
  cases s.ctrl.getLsbD 0 <;> rfl

/-- N_MAX fits NMAX in a build that exists (00_scope.md R5). -/
theorem nMax_toNat {b : Build} (h : b.wf = true) : (BitVec.ofNat 32 b.nMax).toNat = b.nMax := by
  simp only [Build.wf, Bool.and_eq_true, decide_eq_true_eq] at h
  rw [BitVec.toNat_ofNat]
  omega

/-- Settles O36: the table is the fifteen registers, each at its address with what a read of it returns. -/
theorem registersReadTheirValues : Obligations.RegistersReadTheirValues := by
  intro s
  refine ⟨?_, nMax_toNat⟩
  have hread : ∀ p ∈ allRegs.map (fun r => (regAddr r, readReg s r)),
      memRead s p.1 .w4 = .ok p.2 ∧ serve (.txn (.read p.1 .w4)) s = { s with resp := .readOkay p.2 } := by
    rw [List.forall_mem_map]
    exact fun r _ => ⟨memRead_regAddr s r, serve_read_ok (memRead_regAddr s r)⟩
  rw [← capsWord_eq, ← ctrlWord_eq]
  exact hread

/-! ### The seed and shape registers -/

theorem memWrite_regAddr {s : State} (hb : busy s = false) (v : Word) {r : Reg} (hr : readOnlyReg r = false) :
    memWrite s (regAddr r) .w4 v = .ok (writeReg v s r) :=
  memWrite_reg r v (regAddr_toNat r) hr (by simp [hb])

/-- The registers from X0_LO to WIDTH hold the value written (10_state.md R29 to R32). -/
theorem readReg_writeReg_same (v : Word) (s : State) {r : Reg} (hlo : 0x018 ≤ regOffset r)
    (hhi : regOffset r ≤ 0x02C) : readReg (writeReg v s r) r = v := by
  cases r with
  | x0Lo | x0Hi | rLo | rHi | height | width => rfl
  | id | caps | nmax | ctrl | status | cmd | xlastLo | xlastHi | errinfo => simp [regOffset] at hlo hhi

theorem memRead_of_memWrite_seedOrShape {s t : State} {a v : Word} (hlo : 0x018 ≤ a.toNat) (hhi : a.toNat ≤ 0x02C)
    (h : memWrite s a .w4 v = .ok t) : memRead t a .w4 = .ok v := by
  rcases memWrite_ok_cases h with ⟨r, ha, -, -, -, rfl⟩ | ⟨u, -, hbuf, -⟩
  · rw [memRead_reg r ha, readReg_writeReg_same v s (ha ▸ hlo) (ha ▸ hhi)]
  · omega

/-- Settles O37: each of the six writes is its register's own rule, which a read returns. -/
theorem seedAndShapeRegistersReadBack : Obligations.SeedAndShapeRegistersReadBack := by
  intro s v hb
  exact ⟨memWrite_regAddr (r := .x0Lo) hb v rfl, memWrite_regAddr (r := .x0Hi) hb v rfl,
    memWrite_regAddr (r := .rLo) hb v rfl, memWrite_regAddr (r := .rHi) hb v rfl,
    memWrite_regAddr (r := .height) hb v rfl, memWrite_regAddr (r := .width) hb v rfl,
    fun _ _ => memRead_of_memWrite_seedOrShape⟩

end Sys2Proof.Machine
end

section
/-! SUPPORT. The host's accesses: which the address map and BUSY let pass, what they leave, and the bytes and elements
they see (20_memory.md R62 to R70); and which agent moves next (R75). -/

namespace Sys2Proof.Machine

/-! ### An access is answered OKAY, or is a bus error -/

/-- The read-only registers by their offsets (20_memory.md R66). -/
theorem readOnlyReg_eq_false_iff (r : Reg) : readOnlyReg r = false ↔
    regOffset r ≠ 0x000 ∧ regOffset r ≠ 0x004 ∧ regOffset r ≠ 0x008 ∧ regOffset r ≠ 0x030 ∧ regOffset r ≠ 0x034 ∧
      regOffset r ≠ 0x038 := by
  cases r <;> decide

theorem legalRegAccess_iff {a : Nat} {w : Width} {iw : Bool} : legalRegAccess a w iw ↔
    ∃ r, a = regOffset r ∧ w = .w4 ∧ (iw = true → readOnlyReg r = false) := by
  rw [legalRegAccess, Width.bytes_eq_four]
  constructor
  · rintro ⟨hw, h4, hle, hro⟩
    obtain ⟨r, hr⟩ := regAt_isSome h4 hle
    obtain rfl := regAt_eq_some.1 hr
    exact ⟨r, rfl, hw, fun hi => (readOnlyReg_eq_false_iff r).2 (hro hi)⟩
  · rintro ⟨r, rfl, hw, hro⟩
    obtain ⟨hle, h4⟩ := regOffset_le r
    exact ⟨hw, h4, hle, fun hi => (readOnlyReg_eq_false_iff r).1 (hro hi)⟩

/-- While idle the address map alone decides (20_memory.md R66). -/
theorem access_isOk_iff {s : State} {a : Nat} {w : Width} {iw : Bool} (hwf : s.build.wf = true)
    (hb : busy s = false) :
    (∃ t, access s a w iw = .ok t) ↔ legalRegAccess a w iw ∨ legalBufAccess s.build a w := by
  rw [legalRegAccess_iff]
  constructor
  · rintro ⟨t, h⟩
    rcases access_ok_cases h with ⟨r, -, ha, hw, hro, -⟩ | ⟨u, -, -, -, hm, hlo, hhi⟩
    · exact .inl ⟨r, ha, hw, hro⟩
    · exact .inr ⟨hm, u, hlo, hhi⟩
  · rintro (⟨r, rfl, rfl, hro⟩ | ⟨hm, u, hlo, hhi⟩)
    · exact ⟨.reg r, access_reg r hro (by simp [hb])⟩
    · exact ⟨.buf u, access_buf u hwf hb hm hlo hhi⟩

theorem memRead_isOk_iff {s : State} {a : Word} {w : Width} :
    (∃ d, memRead s a w = .ok d) ↔ ∃ t, access s a.toNat w false = .ok t := by
  unfold memRead
  rcases access s a.toNat w false with f | r | u <;> simp

theorem memWrite_isOk_iff {s : State} {a : Word} {w : Width} {v : Word} :
    (∃ t, memWrite s a w v = .ok t) ↔ ∃ t, access s a.toNat w true = .ok t := by
  unfold memWrite
  rcases access s a.toNat w true with f | r | u <;> simp

theorem memRead_eq_error_iff {s : State} {a : Word} {w : Width} {f : Fault} :
    memRead s a w = .error f ↔ access s a.toNat w false = .error f := by
  unfold memRead
  rcases access s a.toNat w false with f | r | u <;> simp

theorem memWrite_eq_error_iff {s : State} {a : Word} {w : Width} {v : Word} {f : Fault} :
    memWrite s a w v = .error f ↔ access s a.toNat w true = .error f := by
  unfold memWrite
  rcases access s a.toNat w true with f | r | u <;> simp

/-- Settles O31: while idle a read and a write are answered OKAY as their access is. -/
theorem accessLegalExactlyByAddressMap : Obligations.AccessLegalExactlyByAddressMap := by
  intro s a w hwf hb
  exact ⟨memRead_isOk_iff.trans (access_isOk_iff hwf hb), fun v => memWrite_isOk_iff.trans (access_isOk_iff hwf hb)⟩

/-! ### The lockout -/

theorem regTarget_ne_lockedOut (a : Nat) (w : Width) (iw : Bool) : regTarget a w iw ≠ .error .lockedOut := by
  unfold regTarget
  split
  · simp
  · split
    · simp
    · split
      · simp
      · split <;> simp

theorem bufTarget_ne_lockedOut (b : Build) (a : Nat) (w : Width) : bufTarget b a w ≠ .error .lockedOut := by
  unfold bufTarget
  split
  · simp
  · split
    · simp
    · split <;> simp

theorem target_ne_lockedOut (b : Build) (a : Nat) (w : Width) (iw : Bool) : target b a w iw ≠ .error .lockedOut := by
  unfold target
  split
  · exact regTarget_ne_lockedOut a w iw
  · exact bufTarget_ne_lockedOut b a w

theorem access_ne_lockedOut {s : State} (hb : busy s = false) (a : Nat) (w : Width) (iw : Bool) :
    access s a w iw ≠ .error .lockedOut := by
  have ht := target_ne_lockedOut s.build a w iw
  unfold access
  split
  · rename_i f hf
    rwa [hf] at ht
  · simp [lockedOut, hb]

/-- A read that BUSY lets pass is of a register (20_memory.md R69). -/
theorem memRead_ok_of_busy {s : State} (hb : busy s = true) {a : Word} {w : Width} {d : Word}
    (h : memRead s a w = .ok d) : w = .w4 ∧ ∃ r, regAt a.toNat = some r := by
  rcases memRead_ok_cases h with ⟨r, ha, hw, -⟩ | ⟨u, hidle, -⟩
  · exact ⟨hw, r, regAt_eq_some.2 ha⟩
  · simp [hb] at hidle

/-- A write that BUSY lets pass is to STATUS (20_memory.md R69). -/
theorem memWrite_ok_of_busy {s t : State} (hb : busy s = true) {a : Word} {w : Width} {v : Word}
    (h : memWrite s a w v = .ok t) : a = 0x010#32 ∧ w = .w4 := by
  rcases memWrite_ok_cases h with ⟨r, ha, hw, -, hr, -⟩ | ⟨u, hidle, -⟩
  · obtain rfl := hr hb
    exact ⟨BitVec.eq_of_toNat_eq ha, hw⟩
  · simp [hb] at hidle

/-- DONE, ERR and WARN are 0 while BUSY = 1, so there is nothing to clear (10_state.md R26, 20_memory.md R69). -/
theorem writeStatus_of_busy {s : State} (hs : StatusLegal s) (hb : busy s = true) (v : Word) :
    writeStatus v s = s := by
  have hst : s.status &&& ~~~ clearMask v = s.status := by rw [hs.busyAlone hb, busyStatus_clear]
  rw [writeStatus, hst]

/-- Settles O33: register reads and STATUS writes pass while BUSY = 1, and what passes is one of them. -/
theorem busyLocksOutAllElse : Obligations.BusyLocksOutAllElse := by
  intro s
  refine ⟨fun hb => ⟨?_, ?_, ?_, ?_⟩, fun hb a w v => ⟨?_, ?_⟩⟩
  · exact fun a r hr => memRead_reg r (regAt_eq_some.1 hr)
  · exact fun a w d => memRead_ok_of_busy hb
  · exact fun a w v t => memWrite_ok_of_busy hb
  · intro v hs
    rw [memWrite_reg .status v rfl rfl (fun _ => rfl), writeReg, writeStatus_of_busy hs hb]
  · exact fun h => access_ne_lockedOut hb _ _ _ (memRead_eq_error_iff.1 h)
  · exact fun h => access_ne_lockedOut hb _ _ _ (memWrite_eq_error_iff.1 h)

/-! ### Bytes and elements -/

/-- Byte k of a bus word (20_memory.md R63). -/
theorem ofNat_div_eq_extractLsb' (v : Word) (k : Nat) :
    BitVec.ofNat 8 (v.toNat / 256 ^ k) = v.extractLsb' (8 * k) 8 := by
  apply BitVec.eq_of_toNat_eq
  rw [BitVec.toNat_ofNat, BitVec.extractLsb'_toNat, Nat.shiftRight_eq_div_pow, Nat.pow_mul]

/-- The byte that a bus write leaves at an offset (20_memory.md R65). -/
theorem byteAt_storeBytes_leBytes (m : Memory) (a n : Nat) (v : Word) {k : Nat} (hk : k < n) :
    byteAt (storeBytes m a (leBytes n v.toNat)) (a + k) = v.extractLsb' (8 * k) 8 := by
  rw [byteAt_storeBytes, leBytes_length, if_pos ⟨by omega, by omega⟩, Nat.add_sub_cancel_left, leBytes_getD _ _ _ hk,
    ofNat_div_eq_extractLsb']

theorem byteAt_storeBytes_leBytes_frame (m : Memory) (a n v : Nat) {x : Nat} (hx : ¬ (a ≤ x ∧ x < a + n)) :
    byteAt (storeBytes m a (leBytes n v)) x = byteAt m x := by
  rw [byteAt_storeBytes, leBytes_length, if_neg hx]

/-- At most four bytes fit the data of a read, so nothing is cut off. -/
theorem leValue_bytesAt_lt (m : Memory) (a : Nat) (w : Width) : leValue (bytesAt m a w.bytes) < 2 ^ 32 := by
  have h := leValue_lt (bytesAt m a w.bytes)
  rw [bytesAt_length] at h
  rcases w.bytes_cases with hw | hw | hw <;> rw [hw] at h ⊢ <;> omega

/-- The sum of 20_memory.md R64. -/
theorem leValue_bytesAt_eq_sum (m : Memory) (a n : Nat) : leValue (bytesAt m a n) =
    ((List.range n).map (fun k => (byteAt m (a + k)).toNat <<< (8 * k))).sum := by
  rw [leValue_eq_sum, bytesAt_length]
  congr 1
  apply List.map_congr_left
  intro k hk
  rw [bytesAt_getD m a n k (List.mem_range.1 hk)]

/-- A read of a buffer while idle, at an offset inside the used size (20_memory.md R64, R66). -/
theorem memRead_buf {s : State} {a : Word} {w : Width} {n : Nat} (u : Buf) (ha : a.toNat = n)
    (hwf : s.build.wf = true) (hb : busy s = false) (hm : n % w.bytes = 0) (hlo : u.base ≤ n)
    (hhi : n + w.bytes ≤ u.base + u.elemBytes * s.build.nMax) :
    memRead s a w = .ok (BitVec.ofNat 32 (leValue (bytesAt s.mem n w.bytes))) := by
  rw [memRead, ha, access_buf u hwf hb hm hlo hhi]

/-- A write to a buffer while idle, at an offset inside the used size (20_memory.md R65, R66). -/
theorem memWrite_buf {s : State} {a : Word} {w : Width} {n : Nat} (u : Buf) (v : Word) (ha : a.toNat = n)
    (hwf : s.build.wf = true) (hb : busy s = false) (hm : n % w.bytes = 0) (hlo : u.base ≤ n)
    (hhi : n + w.bytes ≤ u.base + u.elemBytes * s.build.nMax) :
    memWrite s a w v = .ok { s with mem := storeBytes s.mem n (leBytes w.bytes v.toNat) } := by
  rw [memWrite, ha, access_buf u hwf hb hm hlo hhi]

/-- Every offset of a buffer's window is a bus address (20_memory.md R62). -/
theorem toNat_windowOffset (u : Buf) {k : Nat} (hk : k < 0x01000000) :
    (BitVec.ofNat 32 (u.base + k)).toNat = u.base + k := by
  rw [BitVec.toNat_ofNat]
  cases u <;> simp only [Buf.base] <;> omega

theorem Buf.base_mod_four (u : Buf) : u.base % 4 = 0 := by cases u <;> rfl

theorem Build.nMax_le {b : Build} (h : b.wf = true) : b.nMax ≤ 4194304 := by
  simp only [Build.wf, Bool.and_eq_true, decide_eq_true_eq] at h
  exact h.2

/-- What an OKAY buffer write leaves (20_memory.md R65). -/
theorem memWrite_ok_buf {s t : State} {a : Word} {w : Width} {v : Word} (ha : 0x00010000 ≤ a.toNat)
    (h : memWrite s a w v = .ok t) : t = { s with mem := storeBytes s.mem a.toNat (leBytes w.bytes v.toNat) } := by
  rcases memWrite_ok_cases h with ⟨r, hr, -⟩ | ⟨u, -, -, -, -, -, ht⟩
  · have := regOffset_le r
    omega
  · exact ht

/-- A buffer location reads back what an OKAY write stored there (20_memory.md R63, R65). -/
theorem memRead_of_memWrite_buf {s t : State} {a : Word} {w : Width} {v : Word} (ha : 0x00010000 ≤ a.toNat)
    (h : memWrite s a w v = .ok t) : memRead t a w = .ok (BitVec.ofNat 32 (v.toNat % 256 ^ w.bytes)) := by
  obtain rfl := memWrite_ok_buf ha h
  obtain ⟨u, hu⟩ := bufAccess_of_write (t := { s with mem := storeBytes s.mem a.toNat (leBytes w.bytes v.toNat) })
    ha h rfl rfl
  have hbytes := bytesAt_storeBytes_self s.mem a.toNat (leBytes w.bytes v.toNat)
  rw [leBytes_length] at hbytes
  simp only [memRead, hu, hbytes, leValue_leBytes]

theorem memRead_ok_buf {s : State} {a : Word} {w : Width} {d : Word} (ha : 0x00010000 ≤ a.toNat)
    (h : memRead s a w = .ok d) : d = BitVec.ofNat 32 (leValue (bytesAt s.mem a.toNat w.bytes)) := by
  rcases memRead_ok_cases h with ⟨r, hr, -⟩ | ⟨u, -, -, -, -, -, hd⟩
  · have := regOffset_le r
    omega
  · exact hd

theorem memRead_byteElem {s : State} {b : Buf} {i : Nat} (hwf : s.build.wf = true) (hb : busy s = false)
    (hi : i < s.build.nMax) (h1 : b.elemBytes = 1) :
    memRead s (BitVec.ofNat 32 (b.base + i)) .w1 = .ok ((byteElem s b i).setWidth 32) := by
  have hn := Build.nMax_le hwf
  rw [memRead_buf b (toNat_windowOffset b (by omega)) hwf hb (Nat.mod_one _) (by omega)
    (by simp only [Width.bytes, h1]; omega)]
  simp [Width.bytes, bytesAt, leValue, byteElem]

theorem memRead_wordElem {s : State} {b : Buf} {i : Nat} (hwf : s.build.wf = true) (hb : busy s = false)
    (hi : i < s.build.nMax) (h4 : b.elemBytes = 4) :
    memRead s (BitVec.ofNat 32 (b.base + 4 * i)) .w4 = .ok (wordElem s b i) := by
  have hn := Build.nMax_le hwf
  have hbase := b.base_mod_four
  exact memRead_buf b (toNat_windowOffset b (by omega)) hwf hb (by simp only [Width.bytes]; omega) (by omega)
    (by simp only [Width.bytes, h4]; omega)

/-- Settles O34: a write's bytes and frame and its read back, a read's sum, and an element as its own read. -/
theorem bufferAccessesAreLittleEndian : Obligations.BufferAccessesAreLittleEndian := by
  refine ⟨fun s t a w v ha h => ?_, fun s a w d ha h => ?_, fun s a w d => serve_read_ok,
    fun s b i hwf hb hi => ⟨memRead_byteElem hwf hb hi, memRead_wordElem hwf hb hi⟩⟩
  · have hread := memRead_of_memWrite_buf ha h
    obtain rfl := memWrite_ok_buf ha h
    exact ⟨rfl, fun k => byteAt_storeBytes_leBytes _ _ _ v, fun x => byteAt_storeBytes_leBytes_frame _ _ _ _, hread⟩
  · rw [memRead_ok_buf ha h, BitVec.toNat_ofNat, Nat.mod_eq_of_lt (leValue_bytesAt_lt _ _ w),
      leValue_bytesAt_eq_sum]

/-- Settles O35: the write stores one byte of the element, and every other byte of the table is in its frame. -/
theorem narrowWriteKeepsOtherBytes : Obligations.NarrowWriteKeepsOtherBytes := by
  intro s i k v hwf hb hi hk
  have hn := Build.nMax_le hwf
  have haddr : (BitVec.ofNat 32 (0x04000000 + 4 * i + k)).toNat = 0x04000000 + 4 * i + k := by
    rw [Nat.add_assoc]
    exact toNat_windowOffset .perm (by omega)
  have hwrite := memWrite_buf (w := .w1) .perm v haddr hwf hb (Nat.mod_one _) (by simp only [Buf.base]; omega)
    (by simp only [Buf.base, Buf.elemBytes, Width.bytes]; omega)
  refine ⟨_, hwrite, ?_, fun j hj hjk => ?_, fun n hni => ?_⟩
  · rw [wordElem_byte _ _ _ hk]
    exact byteAt_storeBytes_leBytes s.mem (0x04000000 + 4 * i + k) 1 v Nat.one_pos
  · rw [wordElem_byte _ _ _ hj, wordElem_byte _ _ _ hj]
    exact byteAt_storeBytes_leBytes_frame _ _ _ _ (by simp only [Buf.base, Width.bytes]; omega)
  · refine wordElem_congr fun a hlo hhi => byteAt_storeBytes_leBytes_frame _ _ _ _ ?_
    simp only [Buf.base, Width.bytes] at hlo hhi ⊢
    omega

/-! ### Which agent moves, and a bus error -/

/-- When the host moves (log 2). -/
theorem unitMoves_eq_false {s : State} (h : busy s = false ∨ s.host ≠ [] ∧ s.wait ≠ 0) : unitMoves s = false := by
  rcases h with hb | ⟨hhost, hwait⟩
  · simp [unitMoves, hb]
  · simp [unitMoves, hhost, hwait]

theorem step_of_not_unitMoves {s : State} (h : unitMoves s = false) : step s = .next (hostMoves s) := by
  simp [step, h]

/-- Settles O6: the unit does not move, and the host's move is its oldest event or nothing. -/
theorem stepServesHostElseIdles : Obligations.StepServesHostElseIdles := by
  refine ⟨fun s e es hhost h => ?_, fun s hhost hb => ?_⟩
  · have hu : unitMoves s = false := unitMoves_eq_false (h.imp_right fun hwait => ⟨by simp [hhost], hwait⟩)
    rw [step_of_not_unitMoves hu, hostMoves, hhost]
  · rw [step_of_not_unitMoves (unitMoves_eq_false (.inl hb)), hostMoves, hhost]

/-- A transaction answered with a bus error changes the response alone (20_memory.md R67). -/
theorem serveTxn_of_busError {x : Txn} {s : State} {f : Fault} (h : (serveTxn x s).resp = .busError f) :
    serveTxn x s = { s with resp := .busError f } := by
  rcases serveTxn_cases x s with ⟨r, e⟩ | ⟨a, w, v, t, -, -, e⟩ <;> rw [e] at h ⊢
  · obtain rfl : r = .busError f := h
    rfl
  · cases h

/-- Settles O32: only the response differs, and neither its data nor the interrupt output depends on more. -/
theorem busErrorChangesNothing : Obligations.BusErrorChangesNothing := by
  intro x s f h
  have hs := serveTxn_of_busError h
  refine ⟨hs, ?_, ?_⟩
  · rw [h, respData]
  · rw [hs]
    rfl

end Sys2Proof.Machine
end

section
/-! SUPPORT. The decoder and the encoder agree (30_encoding.md R94 to R107): the fields that a word is made of, which
fields the decoder accepts, and the word of each command by its fields. -/

namespace Sys2Proof

/-! ### A word and its fields -/

/-- The word with these operand fields and the reserved bits 0 (30_encoding.md R90). -/
def wordOfFields (op : BitVec 4) (psel dir : Bool) (blend : BitVec 2) : Word :=
  0#24 ++ blend ++ BitVec.ofBool dir ++ BitVec.ofBool psel ++ op

/-- A word is its five fields (30_encoding.md R90). -/
theorem append_fields (w : Word) :
    fieldReserved w ++ fieldBlend w ++ BitVec.ofBool (fieldDir w) ++ BitVec.ofBool (fieldPsel w) ++ fieldOp w = w := by
  apply BitVec.eq_of_getLsbD_eq
  intro i hi
  simp only [fieldReserved, fieldBlend, fieldDir, fieldPsel, fieldOp, BitVec.getLsbD_append, BitVec.getLsbD_ofBool,
    BitVec.getLsbD_extractLsb']
  interval_cases i <;> simp

theorem wordOfFields_fields {w : Word} (h : fieldReserved w = 0#24) :
    wordOfFields (fieldOp w) (fieldPsel w) (fieldDir w) (fieldBlend w) = w := by
  rw [wordOfFields, ← h, append_fields]

/-- Bits 7:4 are the three operand fields (30_encoding.md R90). -/
theorem operandBits_eq_zero_iff (w : Word) :
    w.extractLsb' 4 4 = 0#4 ↔ fieldPsel w = false ∧ fieldDir w = false ∧ fieldBlend w = 0#2 := by
  have hbits : w.extractLsb' 4 4 = fieldBlend w ++ BitVec.ofBool (fieldDir w) ++ BitVec.ofBool (fieldPsel w) := by
    apply BitVec.eq_of_getLsbD_eq
    intro i hi
    simp only [fieldBlend, fieldDir, fieldPsel, BitVec.getLsbD_append, BitVec.getLsbD_ofBool,
      BitVec.getLsbD_extractLsb']
    interval_cases i <;> simp
  rw [hbits]
  generalize fieldPsel w = p
  generalize fieldDir w = d
  generalize fieldBlend w = b
  revert p d b
  decide

/-! ### What each part of the decoder accepts -/

theorem plainCommand_eq_ok_iff {w : Word} {i j : Instr} :
    plainCommand w i = .ok j ↔ w.extractLsb' 4 4 = 0#4 ∧ i = j := by
  unfold plainCommand
  split <;> simp [*]

theorem decodeGather_eq_ok_iff {w : Word} {i : Instr} : decodeGather w = .ok i ↔
    fieldBlend w = 0#2 ∧ .gather (tableOfPsel (fieldPsel w)) (dirOfBit (fieldDir w)) = i := by
  unfold decodeGather
  split <;> simp [*]

theorem blendField_cases (b : BitVec 2) : b = 0#2 ∨ b = 1#2 ∨ b = 2#2 ∨ b = 3#2 := by
  revert b
  decide

theorem decodeMask_eq_ok_iff {blendAdd : Bool} {w : Word} {i : Instr} : decodeMask blendAdd w = .ok i ↔
    fieldPsel w = false ∧
      ((fieldBlend w = 0#2 ∧ .maskXor (dirOfBit (fieldDir w)) = i) ∨
       (blendAdd = true ∧ fieldBlend w = 1#2 ∧ .maskAdd (dirOfBit (fieldDir w)) = i) ∨
       (blendAdd = true ∧ fieldBlend w = 2#2 ∧ .maskSub (dirOfBit (fieldDir w)) = i)) := by
  unfold decodeMask
  cases fieldPsel w with
  | true => simp
  | false => rcases blendField_cases (fieldBlend w) with hb | hb | hb | hb <;> cases blendAdd <;> simp [hb]

/-- The commands without operand fields, by their OP (30_encoding.md R94). -/
def plainOf (op : BitVec 4) : Option Instr :=
  match op.toNat with
  | 0 => some .nop
  | 1 => some .gen
  | 2 => some .derivePerm
  | 3 => some .invertPerm
  | 6 => some .encrypt
  | 7 => some .decrypt
  | _ => none

/-- The decoder reads a command without operand fields, a GATHER or a MASK (30_encoding.md R98). -/
theorem decode_eq_ok_iff {blendAdd : Bool} {w : Word} {i : Instr} : decode blendAdd w = .ok i ↔
    fieldReserved w = 0#24 ∧
      ((plainOf (fieldOp w) = some i ∧ w.extractLsb' 4 4 = 0#4) ∨
       (fieldOp w = 4#4 ∧ decodeGather w = .ok i) ∨
       (fieldOp w = 5#4 ∧ decodeMask blendAdd w = .ok i)) := by
  unfold decode
  by_cases hres : fieldReserved w = 0#24
  · simp only [hres, if_true, true_and]
    generalize fieldOp w = op
    split <;> simp_all [plainOf, ← BitVec.toNat_inj, plainCommand_eq_ok_iff, and_comm]
  · simp [hres]

/-! ### Decoding and encoding agree -/

/-- A command without operand fields is its OP alone (30_encoding.md R94). -/
theorem encode_of_plainOf {op : BitVec 4} {i : Instr} (h : plainOf op = some i) (blendAdd : Bool) :
    i.wf blendAdd = true ∧ encode i = wordOfFields op false false 0#2 := by
  have hnat : BitVec.ofNat 4 op.toNat = op := by simp
  unfold plainOf at h
  split at h
  case h_7 => cases h
  all_goals
    rename_i hop
    rw [hop] at hnat
    subst hnat
    cases h
    exact ⟨rfl, rfl⟩

theorem encode_gather (psel dir : Bool) :
    encode (.gather (tableOfPsel psel) (dirOfBit dir)) = wordOfFields 4#4 psel dir 0#2 := by
  cases psel <;> cases dir <;> rfl

theorem encode_maskXor (dir : Bool) : encode (.maskXor (dirOfBit dir)) = wordOfFields 5#4 false dir 0#2 := by
  cases dir <;> rfl

theorem encode_maskAdd (dir : Bool) : encode (.maskAdd (dirOfBit dir)) = wordOfFields 5#4 false dir 1#2 := by
  cases dir <;> rfl

theorem encode_maskSub (dir : Bool) : encode (.maskSub (dirOfBit dir)) = wordOfFields 5#4 false dir 2#2 := by
  cases dir <;> rfl

/-- What the decoder reads is a command of the build, and the word is the one the encoder writes of it. -/
theorem encode_of_decode {blendAdd : Bool} {w : Word} {i : Instr} (h : decode blendAdd w = .ok i) :
    i.wf blendAdd = true ∧ encode i = w := by
  obtain ⟨hres, hcase⟩ := decode_eq_ok_iff.1 h
  have hw := wordOfFields_fields hres
  rcases hcase with ⟨hop, hbits⟩ | ⟨hop, hgather⟩ | ⟨hop, hmask⟩
  · obtain ⟨hpsel, hdir, hblend⟩ := (operandBits_eq_zero_iff w).1 hbits
    rw [hpsel, hdir, hblend] at hw
    exact hw ▸ encode_of_plainOf hop blendAdd
  · obtain ⟨hblend, rfl⟩ := decodeGather_eq_ok_iff.1 hgather
    rw [hop, hblend] at hw
    exact ⟨rfl, (encode_gather _ _).trans hw⟩
  · obtain ⟨hpsel, ⟨hblend, rfl⟩ | ⟨hadd, hblend, rfl⟩ | ⟨hadd, hblend, rfl⟩⟩ := decodeMask_eq_ok_iff.1 hmask <;>
      rw [hop, hpsel, hblend] at hw
    · exact ⟨rfl, (encode_maskXor _).trans hw⟩
    · exact ⟨hadd, (encode_maskAdd _).trans hw⟩
    · exact ⟨hadd, (encode_maskSub _).trans hw⟩

/-- The round trips of all commands (30_encoding.md R98). -/
theorem decode_encode (i : Instr) : Laws.RoundTrip.Statement i := by
  cases i with
  | nop => exact Laws.RoundTrip.nop
  | gen => exact Laws.RoundTrip.gen
  | derivePerm => exact Laws.RoundTrip.derivePerm
  | invertPerm => exact Laws.RoundTrip.invertPerm
  | gather sel dir => exact Laws.RoundTrip.gather sel dir
  | maskXor dir => exact Laws.RoundTrip.maskXor dir
  | maskAdd dir => exact Laws.RoundTrip.maskAdd dir
  | maskSub dir => exact Laws.RoundTrip.maskSub dir
  | encrypt => exact Laws.RoundTrip.encrypt
  | decrypt => exact Laws.RoundTrip.decrypt

/-- Settles O1: the decoded command's word is rebuilt from the fields the decoder read, and the converse is the round
trip of each command. -/
theorem decodeAgreesWithEncode : Obligations.DecodeAgreesWithEncode := by
  intro blendAdd w i
  constructor
  · exact encode_of_decode
  · rintro ⟨hwf, rfl⟩
    exact decode_encode i blendAdd hwf

/-! ### The decoder accepts the legal words -/

theorem exists_plainOf_iff (op : BitVec 4) : (∃ i, plainOf op = some i) ↔ op < 8#4 ∧ op ≠ 4#4 ∧ op ≠ 5#4 := by
  rw [← Option.isSome_iff_exists]
  revert op
  decide

theorem exists_decodeGather_iff (w : Word) : (∃ i, decodeGather w = .ok i) ↔ fieldBlend w = 0#2 := by
  simp [decodeGather_eq_ok_iff]

theorem exists_decodeMask_iff (blendAdd : Bool) (w : Word) : (∃ i, decodeMask blendAdd w = .ok i) ↔
    fieldPsel w = false ∧
      (fieldBlend w = 0#2 ∨ ((fieldBlend w = 1#2 ∨ fieldBlend w = 2#2) ∧ blendAdd = true)) := by
  simp only [decodeMask_eq_ok_iff, exists_and_left, exists_or, exists_eq', true_and, ← and_or_left, and_comm]

/-- Legality speaks of the decoder's fields (30_encoding.md R90, R95). -/
theorem legalWord_iff_fields (blendAdd : Bool) (w : Word) : Machine.legalWord blendAdd w ↔
    fieldReserved w = 0#24 ∧ fieldOp w < 8#4 ∧
      (fieldOp w ≠ 4#4 → fieldOp w ≠ 5#4 → w.extractLsb' 4 4 = 0#4) ∧
      (fieldOp w = 4#4 → fieldBlend w = 0#2) ∧
      (fieldOp w = 5#4 → fieldPsel w = false ∧
        (fieldBlend w = 0#2 ∨ ((fieldBlend w = 1#2 ∨ fieldBlend w = 2#2) ∧ blendAdd = true))) :=
  Iff.rfl

/-- The legal words of 30_encoding.md R95 by the row of R94 that they match. -/
theorem legalWord_iff (blendAdd : Bool) (w : Word) : Machine.legalWord blendAdd w ↔
    fieldReserved w = 0#24 ∧
      (((∃ i, plainOf (fieldOp w) = some i) ∧ w.extractLsb' 4 4 = 0#4) ∨
       (fieldOp w = 4#4 ∧ ∃ i, decodeGather w = .ok i) ∨
       (fieldOp w = 5#4 ∧ ∃ i, decodeMask blendAdd w = .ok i)) := by
  rw [exists_plainOf_iff, exists_decodeGather_iff, exists_decodeMask_iff]
  rw [legalWord_iff_fields]
  by_cases hgather : fieldOp w = 4#4
  · simp [hgather]
  · by_cases hmask : fieldOp w = 5#4
    · simp [hmask]
    · simp [hgather, hmask]

/-- Settles O3: row by row of the opcode map, the decoder has an answer exactly where the fields are legal. -/
theorem decoderAcceptsExactlyLegalWords : Obligations.DecoderAcceptsExactlyLegalWords := by
  intro blendAdd w
  rw [legalWord_iff]
  simp only [decode_eq_ok_iff, exists_and_left, exists_and_right, exists_or]

/-! ### The encoding examples -/

/-- Settles O2: the three legal words decode to their commands, and each illegal one for a reason of its own
(30_encoding.md R95, R96). -/
theorem encodingExamplesDecode : Obligations.EncodingExamplesDecode := by
  intro blendAdd
  have hreserved : decode blendAdd 0x00000104#32 = .error .reservedBits := rfl
  have hgatherBlend : decode blendAdd 0x00000054#32 = .error .unusedField := rfl
  have hmaskPsel : decode blendAdd 0x00000015#32 = .error .unusedField := rfl
  have hblend : decode blendAdd 0x000000C5#32 = .error .reservedBlend := rfl
  have hgenPsel : decode blendAdd 0x00000011#32 = .error .unusedField := rfl
  have hop : decode blendAdd 0x00000008#32 = .error .reservedOp := rfl
  refine ⟨rfl, rfl, rfl, fun i => ?_⟩
  simp [hreserved, hgatherBlend, hmaskPsel, hblend, hgenPsel, hop]

end Sys2Proof
end

section
/-! SUPPORT. The lifecycle of a command (30_encoding.md R101 to R103): what its acceptance and its completion leave, and
that a command in flight comes to its completion unless a hardware reset abandons it. -/

namespace Sys2Proof.Machine

/-! ### Completion -/

@[simp] theorem busy_complete (r : RunResult) (s : State) : busy (complete r s) = false := by
  cases r with
  | error c n => exact busy_completeError c n s
  | ok ws b x => exact busy_completeOk ws b x s

/-- A completion sets exactly one of DONE and ERR (30_encoding.md R102). -/
theorem done_complete (r : RunResult) (s : State) : done (complete r s) = !err (complete r s) := by
  cases r with
  | error c n => simp [complete]
  | ok ws b x => simp [complete]

/-- An error writes no byte, and a success only elements 0 to N - 1 of the command's buffers (10_state.md R43). -/
theorem byteAt_complete_runOf_frame {i : Instr} {s : State} {a : Nat}
    (ha : ∀ b ∈ writesTo i, ¬ inElems b (pixelCount s) a) :
    byteAt (complete (runOf i s) s).mem a = byteAt s.mem a := by
  cases hrun : runOf i s with
  | error c n => rfl
  | ok ws b x =>
    refine byteAt_applyWrites_frame s.mem ws a fun w hw ht => ?_
    obtain ⟨-, hcov⟩ := (runOf_ok hrun).1 w hw
    exact ha w.buf hcov.1 ((hcov.touches a).1 ht)

/-- Settles O9: exec completes the command with the outcome of its run. -/
theorem completionFrame : Obligations.CompletionFrame := by
  intro i s
  exact ⟨complete (runOf i s) s, exec_eq i s, complete_eq _ s, busy_complete _ s, done_complete _ s,
    fun _ ha => byteAt_complete_runOf_frame ha⟩

/-! ### The unit's step -/

theorem step_of_unitMoves {s : State} (h : unitMoves s = true) : step s = completeCurrent s := by
  rw [step, if_pos h]

theorem completeCurrent_of_decode {s : State} {i : Instr} (h : decode s.build.blendAdd s.curCmd = .ok i) :
    completeCurrent s = exec i s := by
  simp only [completeCurrent, h]

theorem unitMoves_withFetchWord (s : State) (nbits w : Nat) : unitMoves (s.withFetchWord nbits w) = true :=
  unitMoves_of (s := acceptedNow (tableWord nbits w) s) (busy_accept (tableWord nbits w) s) (.inr rfl)

/-- Settles O4: the unit moves, and its move is exec of the word in CUR_CMD. -/
theorem stepRunsDecodedCommand : Obligations.StepRunsDecodedCommand := by
  refine ⟨fun s i hb hnext hdec => ?_, fun s nbits w i hdec => ?_⟩
  · rw [step_of_unitMoves (unitMoves_of hb hnext), completeCurrent_of_decode hdec]
  · rw [step_of_unitMoves (unitMoves_withFetchWord s nbits w)]
    exact completeCurrent_of_decode hdec

/-- The unit's step is a completion, of a legal word or an illegal one (30_encoding.md R102). -/
theorem completeCurrent_completes (s : State) :
    ∃ t, completeCurrent s = .next t ∧ busy t = false ∧ done t = !err t := by
  cases h : decode s.build.blendAdd s.curCmd with
  | ok i =>
    refine ⟨complete (runOf i s) s, ?_, busy_complete _ s, done_complete _ s⟩
    rw [completeCurrent_of_decode h, exec_eq]
  | error e => exact ⟨completeError .illegalCommand 0#32 s, by simp only [completeCurrent, h], by simp, by simp⟩

/-! ### A command in flight -/

/-- A busy unit that does not move lets the host's oldest event pass, and its latency has one less to wait for
(log 2). -/
theorem step_of_busy_waiting {s : State} (hb : busy s = true) (h : unitMoves s = false) :
    ∃ e es n, s.host = e :: es ∧ s.wait = n + 1 ∧ step s = .next (serve e { s with host := es, wait := n }) := by
  have hnext : ¬ (s.host = [] ∨ s.wait = 0) := fun hnext => by simp [unitMoves_of hb hnext] at h
  rcases hostMoves_cases s with ⟨hhost, -⟩ | ⟨e, es, hhost, hmove⟩
  · exact absurd (.inl hhost) hnext
  · obtain ⟨n, hwait⟩ := Nat.exists_eq_succ_of_ne_zero (fun hwait => hnext (.inr hwait))
    refine ⟨e, es, n, hhost, hwait, ?_⟩
    rw [step_of_not_unitMoves h, hmove, hwait, Nat.succ_sub_one]

theorem step_completes_of_unitMoves {s : State} (h : unitMoves s = true) :
    ∃ t, step s = .next t ∧ busy t = false ∧ done t = !err t := by
  rw [step_of_unitMoves h]
  exact completeCurrent_completes s

/-- Settles O10, by induction on the latency left: the unit completes now, or the host's event ends the command by a
hardware reset or leaves it in flight with one event less to wait for. -/
theorem commandInFlightCompletesUnlessReset : Obligations.CommandInFlightCompletesUnlessReset := by
  intro s hb
  induction hn : s.wait generalizing s with
  | zero =>
    exact ⟨0, s, Nat.le_refl 0, rfl, .inr ⟨hb, rfl, step_completes_of_unitMoves (unitMoves_of hb (.inr hn))⟩⟩
  | succ n ih =>
    cases hu : unitMoves s with
    | true => exact ⟨0, s, Nat.zero_le _, rfl, .inr ⟨hb, rfl, step_completes_of_unitMoves hu⟩⟩
    | false =>
      obtain ⟨e, es, m, hhost, hwait, hstep⟩ := step_of_busy_waiting hb hu
      obtain rfl : m = n := by omega
      rcases serve_busy_cases (s := { s with host := es, wait := m }) e hb with
        ⟨hidle, cut, rfl⟩ | ⟨hbusy, hwait', hhost', hcmd⟩
      · refine ⟨1, _, by omega, core_run_succ hstep, .inl ⟨hidle, cut, ?_⟩⟩
        simp [hhost]
      · obtain ⟨k, u, hk, hrun, hend⟩ := ih _ hbusy hwait'
        refine ⟨k + 1, u, by omega, (core_run_succ hstep).trans hrun, ?_⟩
        rw [hhost', hcmd] at hend
        rw [hhost, List.take_succ_cons]
        exact hend.imp_left fun ⟨hidle, cut, hcut⟩ => ⟨hidle, cut, List.mem_cons_of_mem e hcut⟩

/-! ### Acceptance -/

/-- Settles O7: a write to CMD is the register's own rule while idle, and locked out while busy. -/
theorem cmdWriteIsAccepted : Obligations.CmdWriteIsAccepted := by
  intro s w
  refine ⟨fun hb => ?_, fun hb => ?_⟩
  · have hwrite : memWrite s 0x014#32 .w4 w = .ok (accept w s) := memWrite_regAddr (r := .cmd) hb w rfl
    exact ⟨Config.latency s.draws, s.draws + 1, shapeProduct s, serve_write_ok hwrite, shapeProduct_toNat s⟩
  · exact ⟨.lockedOut, serve_write_error (memWrite_reg_locked .cmd w rfl rfl hb (by decide))⟩

end Sys2Proof.Machine
end

section
/-! SUPPORT. The keystream generator (40_keystream.md R121 to R128): which seeds are accepted and which are degenerate,
one iterate step as two roundings of magnitudes and its bound, the quantisation, the keystream byte by byte, and GEN. -/

namespace Sys2Proof.Machine

/-! ### The values of the constants -/

/-- The magnitude of a power of two, from its lower bits. -/
theorem f64Mag_two_pow {a : F64} {n : Nat} (hn : 52 ≤ n) (hlow : f64Low a = (n - 51) * 2 ^ 52) :
    f64Mag a = 2 ^ n := by
  obtain ⟨e, rfl⟩ := Nat.exists_eq_add_of_le hn
  rw [f64Mag_eq, hlow, show 52 + e - 51 = e + 1 by omega, Nat.succ_mul, lowMag_place (by decide) (.inr (Nat.le_refl _)),
    Nat.pow_add]

@[simp] theorem f64Mag_zero : f64Mag f64Zero = 0 := by decide

theorem f64Mag_one : f64Mag f64One = 2 ^ 1074 := f64Mag_two_pow (by decide) (by decide)

theorem f64Mag_rMin : f64Mag rMin = 7 * 2 ^ 1073 := by
  rw [f64Mag_eq, show f64Low rMin = 1023 * 2 ^ 52 + 7 * 2 ^ 50 by decide, lowMag_place (by decide) (by decide),
    Nat.mul_assoc, Nat.pow_add 2 50 1023]

theorem f64Mag_two_pow_mul {a : F64} {k n : Nat} (hn : 52 ≤ n) (hlow : f64Low a = (k + n - 51) * 2 ^ 52) :
    f64Mag a = 2 ^ k * 2 ^ n := by
  rw [f64Mag_two_pow (n := k + n) (by omega) hlow, Nat.pow_add]

theorem f64Mag_rMax : f64Mag rMax = 2 ^ 2 * 2 ^ 1074 := f64Mag_two_pow_mul (by decide) (by decide)

theorem f64Mag_two56 : f64Mag f64Two56 = 2 ^ 8 * 2 ^ 1074 := f64Mag_two_pow_mul (by decide) (by decide)

theorem f64Val_of_pos {a : F64} (h : f64Sign a = false) : f64Val a = (f64Mag a : Int) := by
  rw [f64Val_eq_mag, h, signedMag_false]

@[simp] theorem f64Val_zero : f64Val f64Zero = 0 := by
  rw [f64Val_of_pos (by decide), f64Mag_zero, Nat.cast_zero]

theorem f64Val_one : f64Val f64One = 2 ^ 1074 := by
  rw [f64Val_of_pos (by decide), f64Mag_one, Nat.cast_pow, Nat.cast_ofNat]

theorem f64Val_rMin : f64Val rMin = 7 * 2 ^ 1073 := by
  rw [f64Val_of_pos (by decide), f64Mag_rMin, Nat.cast_mul, Nat.cast_pow, Nat.cast_ofNat, Nat.cast_ofNat]

theorem f64Val_rMax : f64Val rMax = 2 ^ 1076 := by
  rw [f64Val_of_pos (by decide), f64Mag_two_pow (n := 1076) (by decide) (by decide), Nat.cast_pow, Nat.cast_ofNat]

theorem finite_zero : f64Finite f64Zero := by unfold f64Finite; decide

theorem finite_one : f64Finite f64One := by unfold f64Finite; decide

theorem finite_rMin : f64Finite rMin := by unfold f64Finite; decide

theorem finite_rMax : f64Finite rMax := by unfold f64Finite; decide

theorem finite_two56 : f64Finite f64Two56 := by unfold f64Finite; decide

/-! ### The seed checks -/

theorem fle_iff_of_finite {a b : F64} (ha : f64Finite a) (hb : f64Finite b) :
    fle a b = true ↔ f64Val a ≤ f64Val b := by
  rw [((comparisonsFollowRealValues a b).1 ha hb).1, decide_eq_true_eq]

theorem f64Low_eq_natAbs_key (a : F64) : f64Low a = (f64Key a).natAbs := by
  rw [f64Key_eq, natAbs_signedMag]

theorem f64Key_le_of_fle {a b : F64} (h : fle a b = true) : f64Key a ≤ f64Key b := by
  rw [fle, Bool.and_eq_true, decide_eq_true_eq] at h
  exact h.2

/-- Between two finite bounds stands a finite value: a NaN fails the comparisons, and an infinity's key is past every
finite one. -/
theorem fle_fle_iff {lo hi : F64} (hlo : f64Finite lo) (hhi : f64Finite hi) (x : F64) :
    (fle lo x = true ∧ fle x hi = true) ↔ f64Finite x ∧ f64Val lo ≤ f64Val x ∧ f64Val x ≤ f64Val hi := by
  constructor
  · rintro ⟨h1, h2⟩
    have hx : f64Finite x := by
      have hlokey := f64Key_le_of_fle h1
      have hhikey := f64Key_le_of_fle h2
      rw [f64Finite_iff, f64InfBits, f64Low_eq_natAbs_key] at hlo hhi ⊢
      omega
    exact ⟨hx, (fle_iff_of_finite hlo hx).1 h1, (fle_iff_of_finite hx hhi).1 h2⟩
  · rintro ⟨hx, h1, h2⟩
    exact ⟨(fle_iff_of_finite hlo hx).2 h1, (fle_iff_of_finite hx hhi).2 h2⟩

theorem inUnit_iff (x : F64) : inUnit x = true ↔ f64Finite x ∧ 0 ≤ f64Val x ∧ f64Val x ≤ 2 ^ 1074 := by
  rw [inUnit, Bool.and_eq_true, fle_fle_iff finite_zero finite_one, f64Val_zero, f64Val_one]

/-- Settles O45: each half of the check is a value between two finite bounds. -/
theorem seedAcceptedExactlyInRange : Obligations.SeedAcceptedExactlyInRange := by
  intro x0 r
  have hx := inUnit_iff x0
  have hr := fle_fle_iff finite_rMin finite_rMax r
  rw [inUnit, Bool.and_eq_true] at hx
  rw [f64Val_rMin, f64Val_rMax] at hr
  rw [seedOk, Bool.and_eq_true, Bool.and_eq_true, Bool.and_eq_true, hx, and_assoc, hr]
  constructor
  · rintro ⟨⟨hx, h0, h1⟩, hr, hlo, hhi⟩
    exact ⟨hx, hr, h0, h1, hlo, hhi⟩
  · rintro ⟨hx, hr, h0, h1, hlo, hhi⟩
    exact ⟨⟨hx, h0, h1⟩, hr, hlo, hhi⟩

/-- -0.0. -/
def f64NegZero : F64 := 0x8000000000000000#64

theorem eq_of_sign_low {a b : F64} (hs : f64Sign a = f64Sign b) (hl : f64Low a = f64Low b) : a = b := by
  rw [← f64Pack_sign_low a, hs, hl, f64Pack_sign_low]

theorem f64Low_eq_zero_iff (x : F64) : f64Low x = 0 ↔ x = f64Zero ∨ x = f64NegZero := by
  constructor
  · intro h
    cases hs : f64Sign x with
    | false => exact .inl (eq_of_sign_low (hs.trans (by decide)) (h.trans (by decide)))
    | true => exact .inr (eq_of_sign_low (hs.trans (by decide)) (h.trans (by decide)))
  · rintro (rfl | rfl) <;> decide

/-- What equals a pattern of a finite value is that pattern, or a zero of either sign where that pattern is one. -/
theorem feq_iff (x : F64) {c : F64} (hc : f64Finite c) :
    feq x c = true ↔ f64Low x = f64Low c ∧ (f64Sign x = f64Sign c ∨ f64Low c = 0) := by
  have hlow := (f64Finite_iff c).1 hc
  rw [feq, f64IsNaN_of_finite hc, f64IsNaN_eq]
  simp only [Bool.and_eq_true, Bool.not_eq_true', decide_eq_false_iff_not, decide_eq_true_eq, Bool.not_false]
  rw [f64Key_eq, f64Key_eq]
  rw [f64InfBits] at hlow ⊢
  cases f64Sign x <;> cases f64Sign c <;> simp <;> omega

/-- Settles O46: the two comparisons fix the lower bits, and the one with 1.0 the sign. -/
theorem degenerateExactlyZeroOrOne : Obligations.DegenerateExactlyZeroOrOne := by
  intro x0
  have hzero : feq x0 f64Zero = true ↔ x0 = f64Zero ∨ x0 = f64NegZero := by
    rw [feq_iff x0 finite_zero, ← f64Low_eq_zero_iff]
    exact ⟨And.left, fun h => ⟨h, .inr (by decide)⟩⟩
  have hone : feq x0 f64One = true ↔ x0 = f64One := by
    rw [feq_iff x0 finite_one]
    constructor
    · rintro ⟨hl, hs | hl'⟩
      · exact eq_of_sign_low hs hl
      · exact absurd hl' (by decide)
    · rintro rfl
      exact ⟨rfl, .inl rfl⟩
  rw [degenerate, Bool.or_eq_true, hzero, hone, or_assoc]
  rfl

/-! ### Values between zero and a bound, by their lower bits -/

/-- Between 0 and a finite positive bound, lower bits are at most the bound's, and only a zero has a sign. -/
theorem fle_zero_fle_iff {hi : F64} (hhi : f64Finite hi) (hs : f64Sign hi = false) (x : F64) :
    (fle f64Zero x = true ∧ fle x hi = true) ↔ f64Low x ≤ f64Low hi ∧ (f64Sign x = false ∨ f64Low x = 0) := by
  have hlow := (f64Finite_iff hi).1 hhi
  rw [fle_fle_iff finite_zero hhi, f64Val_le_iff, f64Val_le_iff, f64Finite_iff, show f64Key f64Zero = 0 by decide,
    f64Key_eq, f64Key_eq, hs]
  rw [f64InfBits] at hlow ⊢
  cases f64Sign x <;> simp <;> omega

theorem inUnit_iff_low (x : F64) :
    inUnit x = true ↔ f64Low x ≤ f64Low f64One ∧ (f64Sign x = false ∨ f64Low x = 0) := by
  rw [inUnit, Bool.and_eq_true, fle_zero_fle_iff finite_one (by decide)]

theorem f64Mag_le_iff (a b : F64) : f64Mag a ≤ f64Mag b ↔ f64Low a ≤ f64Low b := by
  rw [f64Mag_eq, f64Mag_eq, lowMag_le_lowMag]

theorem f64Val_of_nonneg {x : F64} (h : f64Sign x = false ∨ f64Low x = 0) : f64Val x = (f64Mag x : Int) := by
  rcases h with h | h
  · exact f64Val_of_pos h
  · rw [f64Val_eq, f64Mag_eq, h, lowMag_zero]
    cases f64Sign x <;> rfl

theorem f64Finite_of_low_le {a b : F64} (hb : f64Finite b) (h : f64Low a ≤ f64Low b) : f64Finite a :=
  (f64Finite_iff a).2 (Nat.lt_of_le_of_lt h ((f64Finite_iff b).1 hb))

theorem f64Finite_pack (s : Bool) {n : Nat} (h : n < f64InfBits) : f64Finite (f64Pack s n) := by
  rwa [f64Finite_iff, f64Low_pack s (Nat.lt_trans h f64InfBits_lt)]

theorem f64Mag_pack (s : Bool) {n : Nat} (h : n < f64InfBits) : f64Mag (f64Pack s n) = lowMag n := by
  rw [f64Mag_eq, f64Low_pack s (Nat.lt_trans h f64InfBits_lt)]

@[simp] theorem roundBits_zero (d : Nat) : roundBits 0 d = 0 := by
  have h := roundBits_lowMag (n := 0) d (by decide)
  rwa [lowMag_zero, Nat.zero_mul] at h

/-- A magnitude up to 1.0, scaled by a small power of two, is representable. -/
theorem roundBits_scaled {x : F64} (hx : f64Low x ≤ f64Low f64One) {k : Nat} (hk : k ≤ 8) :
    roundBits (f64Mag x * 2 ^ k * 2 ^ 1074) 1074 < f64InfBits ∧
    lowMag (roundBits (f64Mag x * 2 ^ k * 2 ^ 1074) 1074) = f64Mag x * 2 ^ k := by
  obtain ⟨f, hf, hmag⟩ := lowMag_eq (f64Low x)
  rw [f64Mag_eq, hmag, Nat.mul_assoc f, ← Nat.pow_add]
  have hplace : f64Low x / 2 ^ 52 ≤ 1023 := by
    rw [show f64Low f64One = 1023 * 2 ^ 52 by decide] at hx
    omega
  exact roundBits_exact hf (by omega)

/-! ### Quantisation -/

theorem fmul_two56 {x : F64} (hx : inUnit x = true) :
    f64Finite (fmul x f64Two56) ∧ f64Val (fmul x f64Two56) = f64Val x * 256 := by
  obtain ⟨hlow, -⟩ := (inUnit_iff_low x).1 hx
  obtain ⟨hfin, hmag⟩ := roundBits_scaled hlow (k := 8) (by decide)
  rw [Nat.mul_assoc, ← f64Mag_two56] at hfin hmag
  rw [fmul_of_finite (f64Finite_of_low_le finite_one hlow) finite_two56]
  refine ⟨f64Finite_pack _ hfin, ?_⟩
  rw [f64Val_pack _ (roundBits_lt_two_pow _ _), hmag, show f64Sign f64Two56 = false by decide, ← signedMag_mul,
    ← f64Val_eq_mag]
  rfl

/-- The quantisation of an iterate in [0, 1] (40_keystream.md R122). -/
theorem quantise_toNat {x : F64} (hx : inUnit x = true) :
    ((quantise x).toNat : Int) = (f64Val x * 256 / 2 ^ 1074) % 256 := by
  obtain ⟨hfin, hval⟩ := fmul_two56 hx
  rw [quantise, if_neg hfin, floorMod256, hval, BitVec.toNat_ofNat]
  generalize f64Val x * 256 / 2 ^ 1074 = v
  omega

/-- Settles O48: the product with 256 is exact, and 1.0 is the case of 256 mod 256. -/
theorem quantiseIsFloorOf256x : Obligations.QuantiseIsFloorOf256x := by
  refine ⟨fun x => quantise_toNat, ?_⟩
  have h := quantise_toNat (x := f64One) (by decide)
  rw [f64Val_one, Int.mul_ediv_cancel_left _ (by positivity)] at h
  apply BitVec.eq_of_toNat_eq
  exact_mod_cast h

/-! ### One iterate step -/

/-- The lower bits of an iterate step, from the magnitudes of r and x: the three roundings of R121. -/
def iterateBits (r x : Nat) : Nat :=
  roundBits (lowMag (roundBits (r * x) 1074) * lowMag (roundBits (f64Mag f64One - x) 0)) 1074

/-- Rounding to 53 bits adds at most one part in 2^53. -/
theorem lowMag_roundBits_relative {w : Nat} (h : roundBits w 0 < f64InfBits) :
    2 ^ 53 * lowMag (roundBits w 0) ≤ (2 ^ 53 + 1) * w := by
  have hmag := (lowMag_roundBits h).2
  rw [Nat.pow_zero, Nat.div_one, Nat.zero_add] at hmag
  have hhalf := (roundShift_half_below w (keptPlace w)).1
  have hkept := @le_of_keptPlace w
  rw [Nat.mul_assoc, ← hmag] at hhalf
  generalize keptPlace w = p at *
  rcases Nat.eq_zero_or_pos p with rfl | hp
  · have hexact := roundShift_mul w 0
    rw [Nat.pow_zero, Nat.mul_one] at hexact hmag
    omega
  · have hplace := hkept (by omega)
    rw [Nat.pow_add] at hplace
    omega

/-- The exact product of an iterate step is at most halfway from 1 to the next value: 4x(1 - x) ≤ 1, and only the
rounding of 1 - x adds to that (40_keystream.md R124). -/
theorem four_mul_sub_le {x d u p : Nat} (hp : p ≤ x * 2 ^ 2) (hd : 2 ^ 53 * d ≤ (2 ^ 53 + 1) * (u - x))
    (hx : x ≤ u) : 2 ^ 53 * (p * d) ≤ (2 ^ 53 + 1) * (u * u) := by
  obtain ⟨y, rfl⟩ := Nat.exists_eq_add_of_le hx
  rw [Nat.add_sub_cancel_left] at hd
  have hquad : x * 2 ^ 2 * y ≤ (x + y) * (x + y) := by nlinarith [sq_nonneg ((x : Int) - y)]
  calc 2 ^ 53 * (p * d) = p * (2 ^ 53 * d) := by ring
    _ ≤ x * 2 ^ 2 * ((2 ^ 53 + 1) * y) := Nat.mul_le_mul hp hd
    _ = (2 ^ 53 + 1) * (x * 2 ^ 2 * y) := by ring
    _ ≤ _ := Nat.mul_le_mul_left _ hquad

/-- One part in 2^53 above 1 is halfway from 1 to the next value. -/
theorem tie_above_one : (2 ^ 53 + 1) * (f64Mag f64One * f64Mag f64One) = 2 ^ 53 * (2 ^ 2148 + 2 ^ 2095) := by
  decide +kernel

/-- That tie rounds to 1, the even one. -/
theorem roundBits_tie_above_one : roundBits (2 ^ 2148 + 2 ^ 2095) 1074 = f64Low f64One := by decide +kernel

/-- r·x rounded is finite and at most 4x. -/
theorem roundBits_fmul_le {r x : F64} (hr : f64Low r ≤ f64Low rMax) (hx : f64Low x ≤ f64Low f64One) :
    roundBits (f64Mag r * f64Mag x) 1074 < f64InfBits ∧
      lowMag (roundBits (f64Mag r * f64Mag x) 1074) ≤ f64Mag x * 2 ^ 2 := by
  obtain ⟨hfin, hmag⟩ := roundBits_scaled hx (k := 2) (by decide)
  have hle : roundBits (f64Mag r * f64Mag x) 1074 ≤ roundBits (f64Mag x * 2 ^ 2 * 2 ^ 1074) 1074 := by
    apply roundBits_mono
    rw [Nat.mul_assoc, ← f64Mag_rMax, Nat.mul_comm]
    exact Nat.mul_le_mul_left _ ((f64Mag_le_iff r rMax).2 hr)
  exact ⟨Nat.lt_of_le_of_lt hle hfin, hmag ▸ lowMag_le_lowMag.2 hle⟩

/-- 1 - x rounded is finite. -/
theorem roundBits_one_sub_lt_inf (x : F64) : roundBits (f64Mag f64One - f64Mag x) 0 < f64InfBits := by
  refine Nat.lt_of_le_of_lt (roundBits_le (n := f64Low f64One) (by decide) ?_) (by decide)
  rw [Nat.pow_zero, Nat.mul_one, ← f64Mag_eq]
  exact Nat.sub_le _ _

/-- 1 - x has no sign. -/
theorem fsub_one {x : F64} (hx : inUnit x = true) :
    fsub f64One x = f64Pack false (roundBits (f64Mag f64One - f64Mag x) 0) := by
  obtain ⟨hlow, hpos⟩ := (inUnit_iff_low x).1 hx
  have hle := (f64Mag_le_iff x f64One).2 hlow
  have hone := f64Val_of_pos (a := f64One) (by decide)
  have hval := f64Val_of_nonneg hpos
  have hsign : subSign f64One x = false := by
    rw [subSign, hone, hval, show f64Sign f64One = false by decide]
    split
    · rfl
    · exact decide_eq_false (by omega)
  have habs : (f64Val f64One - f64Val x).natAbs = f64Mag f64One - f64Mag x := by
    rw [hone, hval]
    omega
  rw [fsub_of_finite finite_one (f64Finite_of_low_le finite_one hlow), hsign, habs]

/-- One iterate step has the sign of r·x and the lower bits of the three roundings. -/
theorem iterate_eq {r x : F64} (hr : f64Low r ≤ f64Low rMax) (hx : inUnit x = true) :
    iterate r x = f64Pack (f64Sign r != f64Sign x) (iterateBits (f64Mag r) (f64Mag x)) := by
  obtain ⟨hlow, -⟩ := (inUnit_iff_low x).1 hx
  have hprod := (roundBits_fmul_le hr hlow).1
  have hdiff := roundBits_one_sub_lt_inf x
  rw [iterate, fsub_one hx, fmul_of_finite (f64Finite_of_low_le finite_rMax hr) (f64Finite_of_low_le finite_one hlow),
    fmul_of_finite (f64Finite_pack _ hprod) (f64Finite_pack _ hdiff), f64Mag_pack _ hprod, f64Mag_pack _ hdiff,
    f64Sign_pack _ (roundBits_lt_two_pow _ _), f64Sign_pack _ (roundBits_lt_two_pow _ _), Bool.bne_false, iterateBits]

/-- An iterate step does not exceed 1 (40_keystream.md R124). -/
theorem iterateBits_le {r x : F64} (hr : f64Low r ≤ f64Low rMax) (hx : f64Low x ≤ f64Low f64One) :
    iterateBits (f64Mag r) (f64Mag x) ≤ f64Low f64One := by
  have hbound := four_mul_sub_le (roundBits_fmul_le hr hx).2
    (lowMag_roundBits_relative (roundBits_one_sub_lt_inf x)) ((f64Mag_le_iff x f64One).2 hx)
  rw [tie_above_one] at hbound
  rw [← roundBits_tie_above_one]
  exact roundBits_mono 1074 (Nat.le_of_mul_le_mul_left hbound (Nat.two_pow_pos 53))

/-- A factor 0 gives an iterate 0. -/
theorem iterateBits_of_mul_eq_zero {r x : Nat} (h : r * x = 0) : iterateBits r x = 0 := by
  rw [iterateBits, h, roundBits_zero, lowMag_zero, Nat.zero_mul, roundBits_zero]

/-- The iterate bound (40_keystream.md R124). -/
theorem inUnit_iterate {r x : F64} (hr : fle f64Zero r = true) (hr' : fle r rMax = true) (hx : inUnit x = true) :
    inUnit (iterate r x) = true := by
  obtain ⟨hrlow, hrpos⟩ := (fle_zero_fle_iff finite_rMax (by decide) r).1 ⟨hr, hr'⟩
  obtain ⟨hlow, hpos⟩ := (inUnit_iff_low x).1 hx
  have hle := iterateBits_le hrlow hlow
  have hlt : iterateBits (f64Mag r) (f64Mag x) < 2 ^ 63 := roundBits_lt_two_pow _ _
  rw [iterate_eq hrlow hx, inUnit_iff_low, f64Low_pack _ hlt, f64Sign_pack _ hlt]
  refine ⟨hle, ?_⟩
  rcases hrpos with hrs | hr0
  · rcases hpos with hxs | hx0
    · exact .inl (by rw [hrs, hxs, bne_self_eq_false])
    · exact .inr (iterateBits_of_mul_eq_zero (by rw [f64Mag_eq x, hx0, lowMag_zero, Nat.mul_zero]))
  · exact .inr (iterateBits_of_mul_eq_zero (by rw [f64Mag_eq r, hr0, lowMag_zero, Nat.zero_mul]))

/-! ### The keystream, byte by byte -/

/-- The last iterate is one step on from the one before. -/
theorem ksLast_succ_last (r x : F64) (n : Nat) : ksLast r (n + 1) x = iterate r (ksLast r n x) := by
  induction n generalizing x with
  | zero => rfl
  | succ n ih => rw [ksLast_succ, ih, ksLast_succ]

/-- Byte k is the quantised iterate k + 1 (40_keystream.md R123). -/
theorem byteOf_ksBytes (r x : F64) {n k : Nat} (hk : k < n) :
    byteOf (ksBytes r n x) k = quantise (ksLast r (k + 1) x) := by
  induction n generalizing x k with
  | zero => omega
  | succ n ih =>
    cases k with
    | zero => rfl
    | succ k => exact ih (iterate r x) (by omega)

/-- A longer keystream begins with the shorter one (40_keystream.md R127). -/
theorem take_ksBytes (r x : F64) {n m : Nat} (h : n ≤ m) : (ksBytes r m x).take n = ksBytes r n x := by
  induction n generalizing x m with
  | zero => rfl
  | succ n ih =>
    obtain ⟨m, rfl⟩ : ∃ k, m = k + 1 := ⟨m - 1, by omega⟩
    rw [ksBytes_succ, ksBytes_succ, List.take_succ_cons, ih _ (by omega)]

/-- Settles O49: bytes, first bytes and iterates, each by its own induction. -/
theorem keystreamBytesAreQuantisedIterates : Obligations.KeystreamBytesAreQuantisedIterates := by
  intro x0 r n m h
  refine ⟨take_ksBytes r x0 h, ksBytes_length r n x0, rfl, fun k hk => ⟨byteOf_ksBytes r x0 hk, ?_⟩⟩
  rw [ksLast_succ_last, iterate]

theorem inUnit_ksLast {r x : F64} (hr : fle f64Zero r = true) (hr' : fle r rMax = true) (hx : inUnit x = true)
    (n : Nat) : inUnit (ksLast r n x) = true := by
  induction n with
  | zero => exact hx
  | succ n ih => rw [ksLast_succ_last]; exact inUnit_iterate hr hr' ih

/-- Below 1 the quantisation is floor(256 · x) itself, and 1.0 is the one iterate that the modulus changes. -/
theorem quantise_toNat_eq_ite {x : F64} (hx : inUnit x = true) : ((quantise x).toNat : Int) =
    if f64Val x = 2 ^ 1074 then 0 else f64Val x * 256 / 2 ^ 1074 := by
  obtain ⟨-, h0, h1⟩ := (inUnit_iff x).1 hx
  have hu : (0 : Int) < 2 ^ 1074 := by positivity
  rw [quantise_toNat hx]
  generalize (2 : Int) ^ 1074 = u at *
  split
  · rename_i h
    rw [h, Int.mul_ediv_cancel_left _ (by omega)]
    rfl
  · exact Int.emod_eq_of_lt (Int.ediv_nonneg (by omega) (by omega)) (Int.ediv_lt_of_lt_mul hu (by omega))

/-- Settles O47: every iterate is in [0, 1] by induction on the number of steps, and a byte quantises one of them. -/
theorem iteratesStayInUnitInterval : Obligations.IteratesStayInUnitInterval := by
  intro x0 r n hx hr hr'
  have hin := inUnit_ksLast hr hr' hx
  refine ⟨hin n, ((inUnit_iff _).1 (hin n)).1, fun k hk => ?_⟩
  rw [byteOf_ksBytes r x0 hk, quantise_toNat_eq_ite (hin (k + 1))]

/-! ### A degenerate seed -/

/-- The accepted r are at most 4 and have no sign. -/
theorem seedOk_r {x0 r : F64} (h : seedOk x0 r = true) : f64Low r ≤ f64Low rMax ∧ f64Sign r = false := by
  obtain ⟨-, -, -, -, hlo, hhi⟩ := (seedAcceptedExactlyInRange x0 r).1 h
  have hpos : (0 : Int) < 7 * 2 ^ 1073 := by positivity
  have hs : f64Sign r = false := by
    by_contra hs
    rw [f64Val_eq_mag, Bool.eq_true_of_not_eq_false hs, signedMag_true] at hlo
    generalize (7 : Int) * 2 ^ 1073 = b at *
    omega
  rw [← f64Val_rMax, f64Val_of_pos hs, f64Val_of_pos (a := rMax) (by decide)] at hhi
  exact ⟨(f64Mag_le_iff r rMax).1 (by omega), hs⟩

/-- The zero that a degenerate seed's iterates stay at: -0.0 from -0.0, else +0.0. -/
def degenerateLimit (x0 : F64) : F64 := if x0 = f64NegZero then f64NegZero else f64Zero

section
variable {r : F64} (hr : f64Low r ≤ f64Low rMax) (hs : f64Sign r = false)
include hr hs

/-- Each zero is a fixed point of the step. -/
theorem iterate_zero {z : F64} (hz : f64Low z = 0) : iterate r z = z := by
  have hin : inUnit z = true := (inUnit_iff_low z).2 ⟨by omega, .inr hz⟩
  rw [iterate_eq hr hin, iterateBits_of_mul_eq_zero (by rw [f64Mag_eq z, hz, lowMag_zero, Nat.mul_zero]), hs,
    Bool.false_bne, ← hz, f64Pack_sign_low]

/-- From 1.0 the step gives +0.0, since 1 - x is 0. -/
theorem iterate_one : iterate r f64One = f64Zero := by
  rw [iterate_eq hr (by decide), iterateBits, Nat.sub_self, roundBits_zero, lowMag_zero, Nat.mul_zero, roundBits_zero,
    hs, show f64Sign f64One = false by decide]
  rfl

theorem ksLast_zero_fixed {z : F64} (hz : f64Low z = 0) (n : Nat) : ksLast r n z = z := by
  induction n with
  | zero => rfl
  | succ n ih => rw [ksLast_succ, iterate_zero hr hs hz, ih]

theorem iterate_degenerate {x0 : F64} (hx : degenerate x0 = true) : iterate r x0 = degenerateLimit x0 := by
  rcases (degenerateExactlyZeroOrOne x0).1 hx with rfl | rfl | rfl
  · exact iterate_zero hr hs (by decide)
  · exact iterate_zero hr hs (by decide)
  · exact iterate_one hr hs

theorem ksLast_degenerate {x0 : F64} (hx : degenerate x0 = true) {n : Nat} (hn : 0 < n) :
    ksLast r n x0 = degenerateLimit x0 := by
  obtain ⟨k, rfl⟩ : ∃ k, n = k + 1 := ⟨n - 1, by omega⟩
  rw [ksLast_succ, iterate_degenerate hr hs hx, ksLast_zero_fixed hr hs]
  unfold degenerateLimit
  split <;> decide

end

theorem quantise_degenerateLimit (x0 : F64) : quantise (degenerateLimit x0) = 0#8 := by
  unfold degenerateLimit
  split <;> decide +kernel

/-- The argsort of equal bytes is the identity: no byte is smaller, and all earlier ones are equal. -/
theorem sortRank_replicate (b : Byte) {n i : Nat} (hi : i < n) : sortRank (List.replicate n b) i = i := by
  have hbyte : ∀ j < n, byteOf (List.replicate n b) j = b := fun j hj => by simp [byteOf, hj]
  have hless : (List.range n).countP
      (fun j => decide ((byteOf (List.replicate n b) j).toNat < (byteOf (List.replicate n b) i).toNat)) = 0 := by
    rw [List.countP_eq_zero]
    intro j hj
    simp [hbyte j (List.mem_range.1 hj), hbyte i hi]
  have hequal : (List.range i).countP
      (fun j => decide (byteOf (List.replicate n b) j = byteOf (List.replicate n b) i)) = (List.range i).length := by
    rw [List.countP_eq_length]
    intro j hj
    simp [hbyte j (Nat.lt_trans (List.mem_range.1 hj) hi), hbyte i hi]
  rw [sortRank, List.length_replicate, hless, hequal, List.length_range, Nat.zero_add]

theorem isBijection_range (n : Nat) : isBijection (List.range n) n :=
  ⟨List.length_range, fun _ => List.mem_range.1, List.nodup_range⟩

theorem scatter_range (n : Nat) : scatter (List.range n) = List.range n := by
  refine List.ext_getElem (by simp) (fun i h1 h2 => ?_)
  have hplace := scatter_getD_place (places := List.range n) (by simpa using isBijection_range n) h2
  rw [List.getD_eq_getElem _ _ h2, List.getElem_range, List.getD_eq_getElem _ _ h1] at hplace
  rw [hplace, List.getElem_range]

theorem argsort_replicate (n : Nat) (b : Byte) : argsort (List.replicate n b) = List.range n := by
  have hranks : (List.range n).map (sortRank (List.replicate n b)) = List.range n := by
    conv_rhs => rw [← List.map_id (List.range n)]
    exact List.map_congr_left fun i hi => sortRank_replicate b (List.mem_range.1 hi)
  rw [argsort, List.length_replicate, hranks, scatter_range]

/-- Settles O50: after one step a degenerate seed is at a zero, which every further step keeps. -/
theorem degenerateSeedGivesZeroKeystream : Obligations.DegenerateSeedGivesZeroKeystream := by
  intro x0 r n hok hdeg
  obtain ⟨hr, hs⟩ := seedOk_r hok
  have hbytes : ksBytes r n x0 = List.replicate n 0#8 := by
    refine List.ext_getElem (by simp) (fun k hk _ => ?_)
    have hbyte := byteOf_ksBytes r x0 (n := n) (k := k) (by simpa using hk)
    rw [ksLast_degenerate hr hs hdeg (by omega), quantise_degenerateLimit, byteOf, List.getD_eq_getElem _ _ hk] at hbyte
    rw [hbyte, List.getElem_replicate]
  exact ⟨hbytes, by rw [hbytes, argsort_replicate], ksLast_degenerate hr hs hdeg⟩

/-! ### GEN -/

/-- Settles O12: past its two checks GEN completes with the one write of the keystream's bytes. -/
theorem genWritesKeystream : Obligations.GenWritesKeystream := by
  intro s hn hok
  have hrun : runOf .gen s = .ok [writeBytes .ks (keystream s)] (degenerate s.curX0) (some (lastIterate s)) :=
    (checkShape_of_le hn _).trans (checkSeed_of_ok hok _)
  have hlen : (keystream s).length = pixelCount s := keystream_length s
  refine ⟨storeBytes s.mem Buf.ks.base (keystream s), ?_, fun i hi => ?_, fun a ha => ?_⟩
  · rw [exec_eq, hrun, complete, completeOk_some]
    rfl
  · exact byteAt_storeBytes_elem s.mem .ks (keystream s) (by omega)
  · exact storeBytes_frame (n := pixelCount s) (by rw [hlen]; exact (Nat.one_mul _).symm) ha

end Sys2Proof.Machine
end

section
/-! SUPPORT. The argsort and the inverse table as lists of indices (41_permutation.md R140, R141): ranks and places undo
each other, the counting sort puts every index at its rank, and a reorder by a bijection is undone by its inverse. -/

namespace Sys2Proof.Machine

/-! ### Ranks and places -/

theorem getD_ranks (k : List Byte) {i : Nat} (hi : i < k.length) :
    ((List.range k.length).map (sortRank k)).getD i 0 = sortRank k i := by
  simp [List.getD_eq_getElem?_getD, hi]

theorem isBijection_argsort (k : List Byte) : isBijection (argsort k) k.length := (isBijection_ranks k).scatter

/-- P[pos(i)] = i (41_permutation.md R140). -/
theorem argsort_getD_sortRank (k : List Byte) {i : Nat} (hi : i < k.length) :
    (argsort k).getD (sortRank k i) 0 = i := by
  have hplace := scatter_getD_place (places := (List.range k.length).map (sortRank k)) (j := i)
    (by simpa using isBijection_ranks k) (by simpa using hi)
  rwa [getD_ranks k hi] at hplace

/-- pos(P[a]) = a. -/
theorem sortRank_argsort_getD (k : List Byte) {a : Nat} (ha : a < k.length) :
    sortRank k ((argsort k).getD a 0) = a := by
  obtain ⟨hlt, hrank⟩ := getD_scatter_getD (isBijection_ranks k) ha
  rwa [getD_ranks k hlt] at hrank

/-- The ranks order the indices as their pairs (k[i], i) do. -/
theorem precedes_of_sortRank_lt {k : List Byte} {i j : Nat} (hi : i < k.length) (hj : j < k.length)
    (h : sortRank k i < sortRank k j) : precedes k i j = true := by
  have hne : i ≠ j := by rintro rfl; exact Nat.lt_irrefl _ h
  rcases precedes_trichotomy k hne with hij | hji
  · exact hij
  · exact absurd (sortRank_lt_of_precedes k hj hi hji) (Nat.lt_asymm h)

/-- Settles O51: the places of the argsort have their positions as ranks, and the ranks follow the pairs' order. -/
theorem argsortIsTheStableAscendingSort : Obligations.ArgsortIsTheStableAscendingSort := by
  intro k
  refine ⟨isBijection_argsort k, fun i => argsort_getD_sortRank k, fun a b hab hb => ?_⟩
  have ha : a < k.length := Nat.lt_trans hab hb
  have hprec : precedes k ((argsort k).getD a 0) ((argsort k).getD b 0) = true := by
    apply precedes_of_sortRank_lt ((isBijection_argsort k).getD_lt ha) ((isBijection_argsort k).getD_lt hb)
    rwa [sortRank_argsort_getD k ha, sortRank_argsort_getD k hb]
  simpa only [precedes, Bool.or_eq_true, Bool.and_eq_true, decide_eq_true_eq] using hprec

/-! ### The counting sort -/

theorem map_byteOf_range (k : List Byte) {n : Nat} (hn : n ≤ k.length) :
    (List.range n).map (byteOf k) = k.take n := by
  refine List.ext_getElem (by simp [hn]) fun i hi _ => ?_
  have hik : i < k.length := by simp at hi; omega
  simp [byteOf, hik]

theorem countBelow_eq_countP_range (k : List Byte) (v : Nat) :
    countBelow k v = (List.range k.length).countP (fun j => decide ((byteOf k j).toNat < v)) :=
  calc countBelow k v = countBelow ((List.range k.length).map (byteOf k)) v := by
        rw [map_byteOf_range k (Nat.le_refl _), List.take_length]
    _ = (List.range k.length).countP (fun j => decide ((byteOf k j).toNat < v)) := List.countP_map

/-- The rank as the counting sort finds it: the bytes below k[i], and the earlier ones equal to it. -/
theorem sortRank_eq_counts (k : List Byte) {i : Nat} (hi : i < k.length) :
    sortRank k i = countBelow k (byteOf k i).toNat + (k.take i).count (byteOf k i) := by
  have hequal : (k.take i).count (byteOf k i) = (List.range i).countP (fun j => decide (byteOf k j = byteOf k i)) := by
    rw [← map_byteOf_range k (Nat.le_of_lt hi), List.count, List.countP_map]
    rfl
  rw [sortRank, countBelow_eq_countP_range, hequal]

/-- The counting sort's invariant once the bytes `before` are placed: the next index with byte b goes after the bytes
below b and after the equal ones in `before`. -/
def NextPlaces (k before : List Byte) (start : List Nat) : Prop :=
  start.length = 256 ∧ ∀ b : Byte, start.getD b.toNat 0 = countBelow k b.toNat + before.count b

theorem nextPlaces_initial (k : List Byte) : NextPlaces k [] ((List.range 256).map (countBelow k)) := by
  refine ⟨by simp, fun b => ?_⟩
  have hb : b.toNat < 256 := b.isLt
  simp [List.getD_eq_getElem?_getD, hb]

theorem NextPlaces.advance {k before : List Byte} {start : List Nat} (h : NextPlaces k before start) (b : Byte) :
    NextPlaces k (before ++ [b]) (start.set b.toNat (start.getD b.toNat 0 + 1)) := by
  obtain ⟨hlen, hstart⟩ := h
  refine ⟨by simpa using hlen, fun c => ?_⟩
  rw [List.count_append, List.count_singleton, ← Nat.add_assoc, ← hstart c]
  have hb : b.toNat < start.length := by rw [hlen]; exact b.isLt
  by_cases hbc : b = c
  · subst hbc
    simp [List.getD_eq_getElem?_getD, hb]
  · have hne : b.toNat ≠ c.toNat := fun he => hbc (BitVec.eq_of_toNat_eq he)
    simp [List.getD_eq_getElem?_getD, List.getElem?_set_ne hne, hbc]

/-- With `before` placed, the counting sort scatters the remaining indices to their ranks. -/
theorem countingSortFrom_eq_scatterFrom {k : List Byte} (before rest : List Byte) {start : List Nat} (out : List Nat)
    (hk : k = before ++ rest) (h : NextPlaces k before start) :
    countingSortFrom k before.length rest start out =
      scatterFrom before.length ((List.range' before.length rest.length).map (sortRank k)) out := by
  induction rest generalizing before start out with
  | nil => rfl
  | cons b rest ih =>
    have hrank : start.getD b.toNat 0 = sortRank k before.length := by
      rw [sortRank_eq_counts k (by simp [hk]), h.2 b]
      simp [hk, byteOf]
    have hrest := ih (before ++ [b]) (out.set (sortRank k before.length) before.length) (by simp [hk]) (h.advance b)
    rw [List.length_append, List.length_singleton, hrank] at hrest
    rw [countingSortFrom, hrank, hrest, List.length_cons, List.range'_succ, List.map_cons, scatterFrom]

/-- Settles O52: both sorts scatter the indices to their ranks. -/
theorem countingSortGivesTheArgsort : Obligations.CountingSortGivesTheArgsort := by
  intro k
  have hscatter := countingSortFrom_eq_scatterFrom (k := k) [] k (List.replicate k.length 0) rfl (nextPlaces_initial k)
  rw [List.length_nil, ← List.range_eq_range'] at hscatter
  rw [countingSort, hscatter, argsort, scatter, List.length_map, List.length_range]

/-! ### The inverse table -/

/-- Q[P[i]] = i (41_permutation.md R141). -/
theorem invertTable_getD_getD {p : List Nat} {n : Nat} (h : isBijection p n) {i : Nat} (hi : i < n) :
    (invertTable p).getD (p.getD i 0) 0 = i := by
  obtain rfl := h.1
  exact scatter_getD_place h hi

theorem isBijection.invertTable {p : List Nat} {n : Nat} (h : isBijection p n) : isBijection (invertTable p) n :=
  h.scatter

theorem eq_of_byteOf_eq {a b : List Byte} (hlen : a.length = b.length)
    (h : ∀ i < a.length, byteOf a i = byteOf b i) : a = b := by
  refine List.ext_getElem hlen fun i hi hi' => ?_
  have hbyte := h i hi
  rwa [byteOf, byteOf, List.getD_eq_getElem _ _ hi, List.getD_eq_getElem _ _ hi'] at hbyte

/-- A reorder by S undoes one by T when T[S[i]] = i for every index. -/
theorem reorder_reorder_of_undo {a : List Byte} {t u : List Nat} (ht : isBijection t a.length)
    (hu : isBijection u a.length) (h : ∀ i < a.length, t.getD (u.getD i 0) 0 = i) : reorder (reorder a t) u = a := by
  refine eq_of_byteOf_eq (by rw [reorder_length, hu.1]) fun i hi => ?_
  rw [reorder_length, hu.1] at hi
  rw [reorder_getD _ _ (by rw [hu.1]; exact hi), reorder_getD _ _ (by rw [ht.1]; exact hu.getD_lt hi), h i hi]

/-- Settles O53: the inverse table is a bijection that undoes the table on either side. -/
theorem inverseTableUndoesReorder : Obligations.InverseTableUndoesReorder := by
  intro p n hp
  have hq : isBijection (invertTable p) n := hp.invertTable
  refine ⟨hq, fun i hi => invertTable_getD_getD hp hi, fun j hj => (getD_scatter_getD hp hj).2,
    fun a t i hi => reorder_getD a t hi, ?_⟩
  rintro a rfl
  exact ⟨reorder_reorder_of_undo hp hq fun j hj => (getD_scatter_getD hp hj).2,
    reorder_reorder_of_undo hq hp fun i hi => invertTable_getD_getD hp hi⟩

end Sys2Proof.Machine
end

section
/-! SUPPORT. What RUN of a command keeps and answers (30_encoding.md R106): the registers it keeps, its one outcome past
the checks, and the bytes outside its buffers. -/

namespace Sys2Proof.Machine

/-! ### One write -/

/-- A run with one write completes with that write, which leaves every other byte. -/
theorem exec_single_write {i : Instr} {s : State} {w : BufWrite} (hrun : runOf i s = .ok [w] false none) :
    exec i s = .next (doneKeep (storeBytes s.mem w.buf.base w.bytes) s) ∧
      ∀ a, ¬ inElems w.buf (pixelCount s) a → byteAt (storeBytes s.mem w.buf.base w.bytes) a = byteAt s.mem a := by
  refine ⟨by rw [exec_eq, hrun]; rfl, fun a ha => storeBytes_frame ?_ ha⟩
  obtain ⟨-, -, hlen⟩ := (runOf_ok hrun).1 w List.mem_cons_self
  exact hlen

@[simp] theorem err_doneKeep (m : Memory) (s : State) : err (doneKeep m s) = false := by
  obtain ⟨-, -, herr, -⟩ := doneStatus_bits false
  exact herr

/-! ### RUN -/

@[simp] theorem byteElem_accept (w : Word) (s : State) (b : Buf) (i : Nat) :
    byteElem (accept w s) b i = byteElem s b i := rfl

@[simp] theorem wordElem_accept (w : Word) (s : State) (b : Buf) (i : Nat) :
    wordElem (accept w s) b i = wordElem s b i := rfl

@[simp] theorem byteElems_accept (w : Word) (s : State) (b : Buf) (n : Nat) :
    byteElems (accept w s) b n = byteElems s b n := rfl

@[simp] theorem indexElems_accept (w : Word) (s : State) (b : Buf) (n : Nat) :
    indexElems (accept w s) b n = indexElems s b n := rfl

theorem runCommand_eq (i : Instr) (s : State) :
    runCommand i s = .next (complete (runOf i (accept (encode i) s)) (accept (encode i) s)) :=
  exec_eq i _

theorem runCommands_cons {i : Instr} {s t : State} (h : runCommand i s = .next t) (is : List Instr) :
    runCommands (i :: is) s = runCommands is t := by
  simp only [runCommands, h]

/-- No command writes a parameter or a register that a command reads. -/
theorem sameSetup_of_runCommand {i : Instr} {s t : State} (h : runCommand i s = .next t) : sameSetup s t := by
  rw [exec_next h, complete_eq]
  exact ⟨rfl, rfl, rfl, rfl, rfl, rfl, rfl⟩

theorem sameSetup.build_eq {s t : State} (h : sameSetup s t) : t.build = s.build := h.1

theorem sameSetup.shapeCount_eq {s t : State} (h : sameSetup s t) : shapeCount t = shapeCount s := by
  obtain ⟨-, -, -, -, -, hheight, hwidth⟩ := h
  rw [shapeCount, hheight, hwidth, shapeCount]

/-- A command that the shape check stops when N > N_MAX, and that otherwise succeeds, ends in ShapeMismatch or without
error. -/
theorem runCommand_shapeMismatch_or_ok {i : Instr} {s : State}
    (hgt : s.build.nMax < shapeCount s → runOf i (accept (encode i) s) = .error .shapeMismatch 0#32)
    (hle : shapeCount s ≤ s.build.nMax → ∃ ws b x, runOf i (accept (encode i) s) = .ok ws b x) :
    ∃ t, runCommand i s = .next t ∧ errCode t ≠ 4#4 ∧ errCode t ≠ 5#4 ∧
      (shapeCount s ≤ s.build.nMax → done t = true ∧ err t = false) := by
  refine ⟨_, runCommand_eq i s, ?_⟩
  rcases Nat.lt_or_ge s.build.nMax (shapeCount s) with hn | hn
  · rw [hgt hn, complete, errCode_completeError]
    exact ⟨by decide, by decide, fun hn' => absurd hn' (Nat.not_le.2 hn)⟩
  · obtain ⟨ws, b, x, hrun⟩ := hle hn
    rw [hrun, complete]
    simp

/-! ### Windows -/

/-- A byte in one buffer's window belongs to no element of another buffer (20_memory.md R62). -/
theorem not_inElems_of_window {bd : Build} (hwf : bd.wf = true) {b c : Buf} (hbc : b ≠ c) {n a : Nat}
    (hn : n ≤ bd.nMax) (hlo : b.base ≤ a) (hhi : a < b.base + 0x01000000) : ¬ inElems c n a := by
  rintro ⟨hlo', hhi'⟩
  have hsize : c.elemBytes * n ≤ 0x01000000 := (Nat.mul_le_mul_left _ hn).trans (Build.window hwf c)
  have hb : bufAt a = some b := bufAt_eq_some.2 ⟨hlo, hhi⟩
  rw [bufAt_eq_some.2 ⟨hlo', by omega⟩] at hb
  exact hbc (Option.some.inj hb).symm

end Sys2Proof.Machine
end

section
/-! SUPPORT. DERIVE_PERM, INVERT_PERM and GATHER (41_permutation.md R142 to R147): what each writes, that a derived table
passes the checks of the other two, and that a GATHER by a table is undone by a GATHER by its inverse. -/

namespace Sys2Proof.Machine

/-! ### The runs past their checks -/

theorem runOf_derivePerm {s : State} (hn : pixelCount s ≤ s.build.nMax) :
    runOf .derivePerm s = .ok [writeIndices .perm (argsort (byteElems s .ks (pixelCount s)))] false none :=
  checkShape_of_le hn _

theorem runOf_invertPerm {s : State} (hn : pixelCount s ≤ s.build.nMax)
    (hbij : isBijection (indexElems s .perm (pixelCount s)) (pixelCount s)) :
    runOf .invertPerm s =
      .ok [writeIndices .pinv (invertTable (indexElems s .perm (pixelCount s)))] false none := by
  obtain ⟨-, hlt, hnodup⟩ := hbij
  exact (checkShape_of_le hn _).trans ((checkRange_of_lt hlt _).trans (checkDistinct_of_nodup hnodup _))

theorem runOf_gather {s : State} {sel : TableSel} (dir : Dir) (hn : pixelCount s ≤ s.build.nMax)
    (hlt : ∀ e ∈ indexElems s (selBuf sel) (pixelCount s), e < pixelCount s) :
    runOf (.gather sel dir) s = .ok [writeBytes (destBuf dir)
      (reorder (byteElems s (sourceBuf dir) (pixelCount s)) (indexElems s (selBuf sel) (pixelCount s)))]
      false none :=
  (checkShape_of_le hn _).trans (checkRange_of_lt hlt _)

/-- Settles O13: element pos(i) of the stored argsort is i. -/
theorem derivePermWritesArgsort : Obligations.DerivePermWritesArgsort := by
  intro s hn
  obtain ⟨hexec, hframe⟩ := exec_single_write (runOf_derivePerm hn)
  refine ⟨_, hexec, fun i hi => ?_, hframe⟩
  have hks : i < (byteElems s .ks (pixelCount s)).length := by rwa [byteElems_length]
  rw [wordElem_storeIndices s.mem _ .perm _ rfl (by rw [argsort_length]; exact sortRank_lt_length _ hks),
    argsort_getD_sortRank _ hks]

/-- Settles O14: element PERM[i] of the stored inverse table is i. -/
theorem invertPermWritesInverse : Obligations.InvertPermWritesInverse := by
  intro s hn hlt hne
  have hbij : isBijection (indexElems s .perm (pixelCount s)) (pixelCount s) := indexElems_bijection hlt hne
  obtain ⟨hexec, hframe⟩ := exec_single_write (runOf_invertPerm hn hbij)
  refine ⟨_, hexec, fun i hi => ?_, hframe⟩
  have hplace := invertTable_getD_getD hbij hi
  rw [indexElems_getD _ _ _ _ hi] at hplace
  rw [wordElem_storeIndices s.mem _ .pinv _ rfl (by rw [invertTable_length, indexElems_length]; exact hlt i hi),
    hplace]

/-- Settles O15: byte i of the stored reorder is the source's byte at the table's entry i. -/
theorem gatherReorders : Obligations.GatherReorders := by
  intro sel dir s hn hlt
  obtain ⟨hexec, hframe⟩ := exec_single_write (runOf_gather dir hn (indexElems_lt hlt))
  refine ⟨_, hexec, fun i hi => ?_, hframe⟩
  have hlen : i < (indexElems s (selBuf sel) (pixelCount s)).length := by rwa [indexElems_length]
  rw [writeBytes_buf, writeBytes_bytes, byteAt_storeBytes_elem _ _ _ (by rwa [reorder_length]),
    reorder_getD _ _ hlen, indexElems_getD _ _ _ _ hi, byteOf, byteElems_getD _ _ _ _ (hlt i hi)]

/-! ### A derived table is accepted -/

/-- PERM after DERIVE_PERM holds the argsort of KS: no index is cut, as N ≤ 2^22. -/
theorem indexElems_of_runCommand_derivePerm {s t : State} (hwf : s.build.wf = true)
    (hn : shapeCount s ≤ s.build.nMax) (h : runCommand .derivePerm s = .next t) :
    indexElems t .perm (shapeCount s) = argsort (byteElems s .ks (shapeCount s)) := by
  have hbij := isBijection_argsort (byteElems s .ks (shapeCount s))
  rw [byteElems_length] at hbij
  have hrun := runOf_derivePerm (s := accept (encode .derivePerm) s) (by simpa using hn)
  have hexec : runCommand .derivePerm s = _ := (exec_single_write hrun).1
  rw [pixelCount_accept, byteElems_accept] at hexec
  obtain rfl := Host.Outcome.next.inj (h.symm.trans hexec)
  have hwindow : 4 * s.build.nMax ≤ 0x01000000 := Build.window hwf .perm
  refine indexElems_eq hbij.1 (fun e he => ?_) fun i hi => wordElem_storeIndices s.mem _ .perm _ rfl (by rwa [hbij.1])
  have := hbij.2.1 e he
  omega

theorem runCommand_invertPerm_of_bijection {s : State}
    (hbij : shapeCount s ≤ s.build.nMax → isBijection (indexElems s .perm (shapeCount s)) (shapeCount s)) :
    ∃ t, runCommand .invertPerm s = .next t ∧ errCode t ≠ 4#4 ∧ errCode t ≠ 5#4 ∧
      (shapeCount s ≤ s.build.nMax → done t = true ∧ err t = false) :=
  runCommand_shapeMismatch_or_ok (fun hn => checkShape_of_gt (by simpa using hn) _)
    fun hn => ⟨_, _, _, runOf_invertPerm (by simpa using hn) (by simpa using hbij hn)⟩

theorem runCommand_gather_of_lt {s : State} {sel : TableSel} (dir : Dir)
    (hlt : shapeCount s ≤ s.build.nMax → ∀ e ∈ indexElems s (selBuf sel) (shapeCount s), e < shapeCount s) :
    ∃ t, runCommand (.gather sel dir) s = .next t ∧ errCode t ≠ 4#4 ∧ errCode t ≠ 5#4 ∧
      (shapeCount s ≤ s.build.nMax → done t = true ∧ err t = false) :=
  runCommand_shapeMismatch_or_ok (fun hn => checkShape_of_gt (by simpa using hn) _)
    fun hn => ⟨_, _, _, runOf_gather dir (by simpa using hn) (by simpa using hlt hn)⟩

/-- Settles O54: with N ≤ N_MAX the table is the argsort, a bijection, and otherwise the shape check comes first. -/
theorem derivedPermIsAccepted : Obligations.DerivedPermIsAccepted := by
  intro s hwf
  obtain ⟨t, ht⟩ : ∃ t, runCommand .derivePerm s = .next t := ⟨_, runCommand_eq .derivePerm s⟩
  have hbuild : t.build = s.build := (sameSetup_of_runCommand ht).build_eq
  have hcount : shapeCount t = shapeCount s := (sameSetup_of_runCommand ht).shapeCount_eq
  have hbij : shapeCount t ≤ t.build.nMax → isBijection (indexElems t .perm (shapeCount t)) (shapeCount t) := by
    rw [hbuild, hcount]
    intro hn
    rw [indexElems_of_runCommand_derivePerm hwf hn ht]
    simpa using isBijection_argsort (byteElems s .ks (shapeCount s))
  rw [← hbuild, ← hcount]
  obtain ⟨u, hu, hrange, hdistinct, hok⟩ := runCommand_invertPerm_of_bijection hbij
  refine ⟨t, u, ht, hu, hrange, hdistinct, hok, fun dir => ?_⟩
  obtain ⟨v, hv, hrange, -, hok⟩ := runCommand_gather_of_lt (sel := .perm) dir fun hn => (hbij hn).2.1
  exact ⟨v, hv, hrange, hok⟩

/-! ### There and back -/

/-- What RUN of a GATHER leaves: no error, the destination reordered, and both tables and the registers as they were. -/
structure Gathered (sel : TableSel) (dir : Dir) (s t : State) : Prop where
  setup : sameSetup s t
  noErr : err t = false
  dest : ∀ i < shapeCount s,
    byteElem t (destBuf dir) i = byteElem s (sourceBuf dir) (wordElem s (selBuf sel) i).toNat
  tables : ∀ sel', ∀ i < shapeCount s, wordElem t (selBuf sel') i = wordElem s (selBuf sel') i

theorem selBuf_ne_destBuf (sel : TableSel) (dir : Dir) : selBuf sel ≠ destBuf dir := by
  cases sel <;> cases dir <;> decide

theorem runCommand_gather {sel : TableSel} (dir : Dir) {s : State} (hwf : s.build.wf = true)
    (hn : shapeCount s ≤ s.build.nMax)
    (hlt : ∀ i < shapeCount s, (wordElem s (selBuf sel) i).toNat < shapeCount s) :
    ∃ t, runCommand (.gather sel dir) s = .next t ∧ Gathered sel dir s t := by
  obtain ⟨m, hexec, hdest, hframe⟩ :=
    gatherReorders sel dir (accept (encode (.gather sel dir)) s) (by simpa using hn) (by simpa using hlt)
  rw [pixelCount_accept] at hdest hframe
  refine ⟨_, hexec, sameSetup_of_runCommand hexec, err_doneKeep m _, hdest, fun sel' i hi => ?_⟩
  refine wordElem_congr fun a hlo hhi => hframe a ?_
  have hwindow : 4 * s.build.nMax ≤ 0x01000000 := Build.window hwf .perm
  exact not_inElems_of_window hwf (selBuf_ne_destBuf sel' dir) hn (by omega) (by omega)

/-- Two GATHERs leave SRC when the second table leads back through the first. -/
theorem gather_gather_keeps_source {s : State} (sel sel' : TableSel) (hwf : s.build.wf = true)
    (hn : shapeCount s ≤ s.build.nMax)
    (hlt : ∀ i < shapeCount s, (wordElem s (selBuf sel) i).toNat < shapeCount s)
    (hback : ∀ i < shapeCount s, (wordElem s (selBuf sel') i).toNat < shapeCount s ∧
      (wordElem s (selBuf sel) (wordElem s (selBuf sel') i).toNat).toNat = i) :
    ∃ t, runCommands [.gather sel .s2d, .gather sel' .d2s] s = .next t ∧ err t = false ∧
      ∀ i < shapeCount s, byteElem t .src i = byteElem s .src i := by
  obtain ⟨t, ht, hthere⟩ := runCommand_gather .s2d hwf hn hlt
  have hbuild : t.build = s.build := hthere.setup.build_eq
  have hcount : shapeCount t = shapeCount s := hthere.setup.shapeCount_eq
  obtain ⟨u, hu, hreturn⟩ := runCommand_gather (sel := sel') .d2s (s := t) (by rwa [hbuild]) (by rwa [hbuild, hcount])
    (fun i hi => by rw [hcount] at hi ⊢; rw [hthere.tables sel' i hi]; exact (hback i hi).1)
  refine ⟨u, by rw [runCommands_cons ht, runCommands_cons hu]; rfl, hreturn.noErr, fun i hi => ?_⟩
  obtain ⟨hentry, hundo⟩ := hback i hi
  calc byteElem u .src i
      = byteElem t .dst (wordElem t (selBuf sel') i).toNat := hreturn.dest i (by rwa [hcount])
    _ = byteElem t .dst (wordElem s (selBuf sel') i).toNat := by rw [hthere.tables sel' i hi]
    _ = byteElem s .src (wordElem s (selBuf sel) (wordElem s (selBuf sel') i).toNat).toNat := hthere.dest _ hentry
    _ = byteElem s .src i := by rw [hundo]

/-- A PERM that PINV leads back from is one-to-one, hence a bijection, so PERM leads back from PINV too. -/
theorem pinv_entry_of_left_inverse {s : State} {n : Nat}
    (hlt : ∀ i < n, (wordElem s .perm i).toNat < n)
    (hinv : ∀ i < n, (wordElem s .pinv (wordElem s .perm i).toNat).toNat = i) {j : Nat} (hj : j < n) :
    (wordElem s .pinv j).toNat < n ∧ (wordElem s .perm (wordElem s .pinv j).toNat).toNat = j := by
  have hbij : isBijection (indexElems s .perm n) n := by
    refine indexElems_bijection hlt fun i hi k hki heq => ?_
    have hk := hinv k (Nat.lt_trans hki hi)
    rw [heq, hinv i hi] at hk
    omega
  obtain ⟨i, hi, rfl⟩ := hbij.exists_place hj
  rw [indexElems_getD _ _ _ _ hi, hinv i hi]
  exact ⟨hi, rfl⟩

/-- Settles O55: PINV inverts PERM on both sides, so either GATHER undoes the other. -/
theorem gatherThereAndBackKeepsSource : Obligations.GatherThereAndBackKeepsSource := by
  intro s hwf hn hlt hpinv
  have hinv : ∀ i < shapeCount s, (wordElem s .pinv (wordElem s .perm i).toNat).toNat = i := by
    intro i hi
    have hwindow : 4 * s.build.nMax ≤ 0x01000000 := Build.window hwf .perm
    rw [hpinv i hi, BitVec.toNat_ofNat, Nat.mod_eq_of_lt (by omega)]
  have hperm := fun j => pinv_entry_of_left_inverse (j := j) hlt hinv
  exact ⟨gather_gather_keeps_source .perm .pinv hwf hn hlt fun j hj => hperm j hj,
    gather_gather_keeps_source .pinv .perm hwf hn (fun j hj => (hperm j hj).1) fun i hi => ⟨hlt i hi, hinv i hi⟩⟩

end Sys2Proof.Machine
end

section
/-! SUPPORT. The three blends of MASK (42_masking.md R170 to R173): what each writes, and that two blends which undo
each other lead SRC there and back. -/

namespace Sys2Proof.Machine

/-! ### The three blends as one command -/

/-- In the build `b` the command `i` is the common form of MASK with the blend `f`. -/
def BlendsBy (f : Byte → Byte → Byte) (dir : Dir) (i : Instr) (b : Build) : Prop :=
  ∀ s : State, s.build = b → runOf i s = runMask f dir s

theorem checkBlendAdd_of_true {s : State} (h : s.build.blendAdd = true) (r : RunResult) : checkBlendAdd s r = r := by
  rw [checkBlendAdd, if_pos h]

theorem blendsBy_maskXor (dir : Dir) (b : Build) : BlendsBy (· ^^^ ·) dir (.maskXor dir) b :=
  fun _ _ => rfl

theorem blendsBy_maskAdd (dir : Dir) {b : Build} (hadd : b.blendAdd = true) :
    BlendsBy (· + ·) dir (.maskAdd dir) b := by
  rintro s rfl
  exact checkBlendAdd_of_true hadd _

theorem blendsBy_maskSub (dir : Dir) {b : Build} (hadd : b.blendAdd = true) :
    BlendsBy (· - ·) dir (.maskSub dir) b := by
  rintro s rfl
  exact checkBlendAdd_of_true hadd _

/-- A MASK command past the shape check writes B[i] = f(A[i], KS[i]) and no other byte. -/
theorem exec_blend {f : Byte → Byte → Byte} {dir : Dir} {c : Instr} {s : State} (hc : BlendsBy f dir c s.build)
    (hn : pixelCount s ≤ s.build.nMax) :
    ∃ m, exec c s = .next (doneKeep m s) ∧
      (∀ i < pixelCount s,
        byteAt m ((destBuf dir).base + i) = f (byteElem s (sourceBuf dir) i) (byteElem s .ks i)) ∧
      ∀ a, ¬ inElems (destBuf dir) (pixelCount s) a → byteAt m a = byteAt s.mem a := by
  have hrun := (hc s rfl).trans (checkShape_of_le hn _)
  obtain ⟨hexec, hframe⟩ := exec_single_write hrun
  refine ⟨_, hexec, fun i hi => ?_, hframe⟩
  rw [writeBytes_buf, writeBytes_bytes, byteAt_storeBytes_elem _ _ _ (by simpa using hi),
    blend_getD _ _ _ (by simpa using hi) (by simpa using hi), byteOf, byteOf, byteElems_getD _ _ _ _ hi,
    byteElems_getD _ _ _ _ hi]

/-- The difference of two bytes is the integer difference modulo 256 (42_masking.md R172). -/
theorem toNat_byte_sub (a k : Byte) : ((a - k).toNat : Int) = ((a.toNat : Int) - k.toNat) % 256 := by
  rw [BitVec.toNat_sub]
  omega

/-- Settles O16: each of the three is `exec_blend`, with the byte operation read as arithmetic modulo 256. -/
theorem maskBlends : Obligations.MaskBlends := by
  intro dir s hn
  refine ⟨exec_blend (blendsBy_maskXor dir _) hn, fun hadd => ⟨?_, ?_⟩⟩
  · obtain ⟨m, hexec, hsum, hframe⟩ := exec_blend (blendsBy_maskAdd dir hadd) hn
    exact ⟨m, hexec, fun i hi => by rw [hsum i hi, BitVec.toNat_add], hframe⟩
  · obtain ⟨m, hexec, hdiff, hframe⟩ := exec_blend (blendsBy_maskSub dir hadd) hn
    exact ⟨m, hexec, fun i hi => by rw [hdiff i hi, toNat_byte_sub], hframe⟩

/-! ### There and back -/

/-- What RUN of a MASK leaves: no error, the destination blended, and KS and the registers as they were. -/
structure Masked (f : Byte → Byte → Byte) (dir : Dir) (s t : State) : Prop where
  setup : sameSetup s t
  noErr : err t = false
  dest : ∀ i < shapeCount s, byteElem t (destBuf dir) i = f (byteElem s (sourceBuf dir) i) (byteElem s .ks i)
  keystream : ∀ i < shapeCount s, byteElem t .ks i = byteElem s .ks i

theorem ks_ne_destBuf (dir : Dir) : Buf.ks ≠ destBuf dir := by
  cases dir <;> decide

theorem runCommand_blend {f : Byte → Byte → Byte} {dir : Dir} {c : Instr} {s : State}
    (hc : BlendsBy f dir c s.build) (hwf : s.build.wf = true) (hn : shapeCount s ≤ s.build.nMax) :
    ∃ t, runCommand c s = .next t ∧ Masked f dir s t := by
  obtain ⟨m, hexec, hdest, hframe⟩ := exec_blend (s := accept (encode c) s) hc (by simpa using hn)
  rw [pixelCount_accept] at hdest hframe
  refine ⟨_, hexec, sameSetup_of_runCommand hexec, err_doneKeep m _, hdest, fun i hi => hframe _ ?_⟩
  have hwindow : 1 * s.build.nMax ≤ 0x01000000 := Build.window hwf .ks
  exact not_inElems_of_window hwf (ks_ne_destBuf dir) hn (by omega) (by omega)

/-- Two MASKs leave SRC when the second blend undoes the first under every key byte: KS is the same for both. -/
theorem blend_blend_keeps_source {f g : Byte → Byte → Byte} {c d : Instr} {s : State}
    (hc : BlendsBy f .s2d c s.build) (hd : BlendsBy g .d2s d s.build) (hundo : ∀ a k, g (f a k) k = a)
    (hwf : s.build.wf = true) (hn : shapeCount s ≤ s.build.nMax) :
    ∃ t, runCommands [c, d] s = .next t ∧ err t = false ∧
      ∀ i < shapeCount s, byteElem t .src i = byteElem s .src i := by
  obtain ⟨t, ht, hthere⟩ := runCommand_blend hc hwf hn
  have hbuild : t.build = s.build := hthere.setup.build_eq
  have hcount : shapeCount t = shapeCount s := hthere.setup.shapeCount_eq
  obtain ⟨u, hu, hback⟩ := runCommand_blend (s := t) (by rwa [hbuild]) (by rwa [hbuild]) (by rwa [hbuild, hcount])
  refine ⟨u, by rw [runCommands_cons ht, runCommands_cons hu]; rfl, hback.noErr, fun i hi => ?_⟩
  calc byteElem u .src i
      = g (byteElem t .dst i) (byteElem t .ks i) := hback.dest i (by rwa [hcount])
    _ = g (f (byteElem s .src i) (byteElem s .ks i)) (byteElem s .ks i) := by
        rw [hthere.keystream i hi]; exact congrArg (g · _) (hthere.dest i hi)
    _ = byteElem s .src i := hundo _ _

/-- Settles O56: XOR undoes itself, and the sum and the difference modulo 256 undo each other. -/
theorem maskThereAndBackKeepsSource : Obligations.MaskThereAndBackKeepsSource := by
  rintro s hwf hn p (rfl | ⟨hadd, rfl | rfl⟩)
  · exact blend_blend_keeps_source (blendsBy_maskXor .s2d _) (blendsBy_maskXor .d2s _)
      (fun a k => by rw [BitVec.xor_assoc, BitVec.xor_self, BitVec.xor_zero]) hwf hn
  · exact blend_blend_keeps_source (blendsBy_maskAdd .s2d hadd) (blendsBy_maskSub .d2s hadd)
      (fun a k => BitVec.add_sub_cancel a k) hwf hn
  · exact blend_blend_keeps_source (blendsBy_maskSub .s2d hadd) (blendsBy_maskAdd .d2s hadd)
      (fun a k => BitVec.sub_add_cancel a k) hwf hn

end Sys2Proof.Machine
end

section
/-! SUPPORT. The contents of the buffers: elements 0 to n - 1 of all five as lists, what one buffer write makes of them,
and what RUN of a command that succeeds leaves (30_encoding.md R102, R106). A sequence of commands is followed on the
contents alone. -/

namespace Sys2Proof.Machine

/-! ### Elements and lists of elements -/

theorem byteElem_of_byteElems {s : State} {b : Buf} {n : Nat} {bs : List Byte} (h : byteElems s b n = bs) {i : Nat}
    (hi : i < n) : byteElem s b i = byteOf bs i := by
  rw [← h, byteOf, byteElems_getD _ _ _ _ hi]

theorem toNat_wordElem_of_indexElems {s : State} {b : Buf} {n : Nat} {is : List Nat} (h : indexElems s b n = is)
    {i : Nat} (hi : i < n) : (wordElem s b i).toNat = is.getD i 0 := by
  rw [← h, indexElems_getD _ _ _ _ hi]

theorem wordElem_of_indexElems {s : State} {b : Buf} {n : Nat} {is : List Nat} (h : indexElems s b n = is)
    {i : Nat} (hi : i < n) : wordElem s b i = BitVec.ofNat 32 (is.getD i 0) := by
  rw [← toNat_wordElem_of_indexElems h hi, BitVec.ofNat_toNat, BitVec.setWidth_eq]

theorem byteElem_eq_of_byteElems {s t : State} {b c : Buf} {n : Nat} (h : byteElems s b n = byteElems t c n) {i : Nat}
    (hi : i < n) : byteElem s b i = byteElem t c i :=
  (byteElem_of_byteElems h hi).trans (byteElem_of_byteElems rfl hi).symm

theorem wordElem_eq_of_indexElems {s t : State} {b c : Buf} {n : Nat} (h : indexElems s b n = indexElems t c n)
    {i : Nat} (hi : i < n) : wordElem s b i = wordElem t c i :=
  (wordElem_of_indexElems h hi).trans (wordElem_of_indexElems rfl hi).symm

/-! ### One buffer write -/

/-- The state with another memory. -/
def withMem (s : State) (m : Memory) : State := { s with mem := m }

section
variable {s : State} {m : Memory} {n : Nat}

theorem byteElems_store_same {b : Buf} {bs : List Byte} (hlen : bs.length = n) :
    byteElems (withMem s (storeBytes m b.base bs)) b n = bs :=
  byteElems_eq hlen fun _ hi => byteAt_storeBytes_elem m b bs (by omega)

theorem indexElems_store_same {b : Buf} {is : List Nat} (hlen : is.length = n) (hlt : ∀ e ∈ is, e < 2 ^ 32) :
    indexElems (withMem s (storeBytes m b.base (is.flatMap (leBytes 4)))) b n = is :=
  indexElems_eq hlen hlt fun _ hi => wordElem_storeIndices m _ b is rfl (by omega)

section
variable {b c : Buf} {bs : List Byte} (hbc : c ≠ b) (hbs : bs.length ≤ 0x01000000) (hn : n ≤ 4194304)
include hbc hbs hn

theorem byteElems_store_other :
    byteElems (withMem s (storeBytes m c.base bs)) b n = byteElems (withMem s m) b n := by
  refine List.map_congr_left fun i hi => ?_
  have hi : i < n := List.mem_range.1 hi
  exact byteElem_applyWrites_other (s := withMem s m) (ws := [writeBytes c bs]) rfl (by simpa using hbc)
    (by simpa using hbs) (by omega)

theorem indexElems_store_other :
    indexElems (withMem s (storeBytes m c.base bs)) b n = indexElems (withMem s m) b n := by
  refine List.map_congr_left fun i hi => congrArg BitVec.toNat ?_
  have hi : i < n := List.mem_range.1 hi
  exact wordElem_applyWrites_other (s := withMem s m) (ws := [writeBytes c bs]) rfl (by simpa using hbc)
    (by simpa using hbs) (by omega)

end

/-! ### The contents of the five buffers -/

/-- Lists of elements of the five buffers (20_memory.md R62). -/
structure Contents where
  src : List Byte
  dst : List Byte
  ks : List Byte
  perm : List Nat
  pinv : List Nat

/-- Elements 0 to n - 1 of the five buffers. -/
def contents (n : Nat) (s : State) : Contents where
  src := byteElems s .src n
  dst := byteElems s .dst n
  ks := byteElems s .ks n
  perm := indexElems s .perm n
  pinv := indexElems s .pinv n

/-- The bytes of SRC, DST or KS; a table has none. -/
def Contents.bytes (c : Contents) : Buf → List Byte
  | .src => c.src
  | .dst => c.dst
  | .ks => c.ks
  | .perm | .pinv => []

/-- The table that GATHER reads (30_encoding.md R92). -/
def Contents.table (c : Contents) : TableSel → List Nat
  | .perm => c.perm
  | .pinv => c.pinv

/-- Other bytes in SRC, DST or KS. -/
def Contents.setBytes (c : Contents) (b : Buf) (bs : List Byte) : Contents :=
  match b with
  | .src => { c with src := bs }
  | .dst => { c with dst := bs }
  | .ks => { c with ks := bs }
  | .perm | .pinv => c

/-- Other indices in PERM or PINV. -/
def Contents.setIndices (c : Contents) (b : Buf) (is : List Nat) : Contents :=
  match b with
  | .perm => { c with perm := is }
  | .pinv => { c with pinv := is }
  | .src | .dst | .ks => c

theorem contents_bytes_sourceBuf (n : Nat) (s : State) (dir : Dir) :
    (contents n s).bytes (sourceBuf dir) = byteElems s (sourceBuf dir) n := by
  cases dir <;> rfl

theorem contents_table (n : Nat) (s : State) (sel : TableSel) :
    (contents n s).table sel = indexElems s (selBuf sel) n := by
  cases sel <;> rfl

theorem destBuf_elemBytes (dir : Dir) : (destBuf dir).elemBytes = 1 := by
  cases dir <;> rfl

theorem contents_store_bytes {b : Buf} {bs : List Byte} (hb : b.elemBytes = 1) (hlen : bs.length = n)
    (hn : n ≤ 4194304) : contents n (withMem s (storeBytes m b.base bs)) =
      (contents n (withMem s m)).setBytes b bs := by
  have hsame := byteElems_store_same (s := s) (m := m) (b := b) hlen
  have hbytes := fun c (hc : b ≠ c) => byteElems_store_other (s := s) (m := m) hc (by omega) hn (bs := bs)
  have htable := fun c (hc : b ≠ c) => indexElems_store_other (s := s) (m := m) hc (by omega) hn (bs := bs)
  cases b with
  | src | dst | ks => simp [contents, Contents.setBytes, hsame, hbytes, htable]
  | perm | pinv => exact absurd hb (by decide)

theorem contents_store_indices {b : Buf} {is : List Nat} (hb : b.elemBytes = 4) (hlen : is.length = n)
    (hlt : ∀ e ∈ is, e < n) (hn : n ≤ 4194304) :
    contents n (withMem s (storeBytes m b.base (is.flatMap (leBytes 4)))) =
      (contents n (withMem s m)).setIndices b is := by
  have hsize : (is.flatMap (leBytes 4)).length ≤ 0x01000000 := by rw [flatMap_leBytes_length]; omega
  have hsame := indexElems_store_same (s := s) (m := m) (b := b) hlen fun e he => by have := hlt e he; omega
  have hbytes := fun c (hc : b ≠ c) => byteElems_store_other (s := s) (m := m) hc hsize hn
  have htable := fun c (hc : b ≠ c) => indexElems_store_other (s := s) (m := m) hc hsize hn
  cases b with
  | perm | pinv => simp [contents, Contents.setIndices, hsame, hbytes, htable]
  | src | dst | ks => exact absurd hb (by decide)

end

/-- The memory after a run with one write, of bytes. -/
theorem contents_write_bytes {s : State} {n : Nat} {b : Buf} {bs : List Byte} (hb : b.elemBytes = 1)
    (hlen : bs.length = n) (hn : n ≤ 4194304) :
    contents n (withMem s (applyWrites s.mem [writeBytes b bs])) = (contents n s).setBytes b bs :=
  contents_store_bytes (m := s.mem) hb hlen hn

/-- The memory after a run with one write, of indices. -/
theorem contents_write_indices {s : State} {n : Nat} {b : Buf} {is : List Nat} (hb : b.elemBytes = 4)
    (hlen : is.length = n) (hlt : ∀ e ∈ is, e < n) (hn : n ≤ 4194304) :
    contents n (withMem s (applyWrites s.mem [writeIndices b is])) = (contents n s).setIndices b is :=
  contents_store_indices (m := s.mem) hb hlen hlt hn

/-! ### RUN of a command that succeeds -/

/-- The keystream of n bytes of the seed registers (40_keystream.md R127). -/
def seedKeystream (n : Nat) (s : State) : List Byte := ksBytes (seedR s) n (seedX0 s)

/-- The last of n iterates of the seed registers (40_keystream.md R127). -/
def seedLast (n : Nat) (s : State) : F64 := ksLast (seedR s) n (seedX0 s)

@[simp] theorem seedKeystream_length (n : Nat) (s : State) : (seedKeystream n s).length = n := ksBytes_length _ n _

/-- A build that exists takes the shape of the registers, n pixels. -/
structure Ready (n : Nat) (s : State) : Prop where
  buildExists : s.build.wf = true
  count : shapeCount s = n
  fits : n ≤ s.build.nMax

/-- RUN of the commands `is` in `s` ends in `t` without error, with WARN = w, XLAST the iterate `x` if there is one, and
the contents `c`. -/
structure Ran (n : Nat) (is : List Instr) (w : Bool) (x : Option F64) (c : Contents) (s t : State) : Prop where
  run : runCommands is s = .next t
  setup : sameSetup s t
  done : done t = true
  warn : warn t = w
  xlastLo : t.xlastLo = x.elim s.xlastLo loWord
  xlastHi : t.xlastHi = x.elim s.xlastHi hiWord
  contents : contents n t = c

theorem Ready.le {n : Nat} {s : State} (h : Ready n s) : n ≤ 4194304 := h.fits.trans (Build.nMax_le h.buildExists)

theorem Ready.pixelCount_accept {n : Nat} {s : State} (h : Ready n s) (w : Word) : pixelCount (accept w s) = n :=
  (Machine.pixelCount_accept w s).trans h.count

theorem Ready.congr {n : Nat} {s t : State} (h : Ready n s) (hst : sameSetup s t) : Ready n t where
  buildExists := by rw [hst.build_eq]; exact h.buildExists
  count := hst.shapeCount_eq.trans h.count
  fits := by rw [hst.build_eq]; exact h.fits

theorem sameSetup.trans {s t u : State} (h : sameSetup s t) (h' : sameSetup t u) : sameSetup s u := by
  obtain ⟨hbuild, hx0Lo, hx0Hi, hrLo, hrHi, hheight, hwidth⟩ := h
  obtain ⟨hbuild', hx0Lo', hx0Hi', hrLo', hrHi', hheight', hwidth'⟩ := h'
  exact ⟨hbuild'.trans hbuild, hx0Lo'.trans hx0Lo, hx0Hi'.trans hx0Hi, hrLo'.trans hrLo, hrHi'.trans hrHi,
    hheight'.trans hheight, hwidth'.trans hwidth⟩

theorem sameSetup.seed_eq {s t : State} (h : sameSetup s t) : seedX0 t = seedX0 s ∧ seedR t = seedR s := by
  obtain ⟨-, hx0Lo, hx0Hi, hrLo, hrHi, -⟩ := h
  simp only [seedX0, seedR, hx0Lo, hx0Hi, hrLo, hrHi, and_self]

theorem sameSetup.seedKeystream_eq {s t : State} (h : sameSetup s t) (n : Nat) :
    seedKeystream n t = seedKeystream n s := by
  rw [seedKeystream, h.seed_eq.1, h.seed_eq.2, seedKeystream]

theorem ran_of_runOf {n : Nat} {i : Instr} {s : State} {ws : List BufWrite} {w : Bool} {x : Option F64} {c : Contents}
    (hrun : runOf i (accept (encode i) s) = .ok ws w x) (hc : contents n (withMem s (applyWrites s.mem ws)) = c) :
    ∃ t, Ran n [i] w x c s t := by
  have hcommand : runCommand i s = .next (completeOk ws w x (accept (encode i) s)) := by
    rw [runCommand_eq, hrun, complete]
  refine ⟨_, runCommands_cons hcommand [], sameSetup_of_runCommand hcommand, by simp, by simp, ?_, ?_, hc⟩ <;>
    cases x <;> rfl

theorem Ran.runCommand {n : Nat} {i : Instr} {w : Bool} {x : Option F64} {c : Contents} {s t : State}
    (h : Ran n [i] w x c s t) : runCommand i s = .next t := by
  have hrun := h.run
  rw [runCommands_cons (runCommand_eq i s)] at hrun
  exact (runCommand_eq i s).trans hrun

/-- A command and then a sequence that leaves XLAST. -/
theorem Ran.cons {n : Nat} {i : Instr} {is : List Instr} {w w' : Bool} {x : Option F64} {c c' : Contents}
    {s t u : State} (h : Ran n [i] w x c s t) (h' : Ran n is w' none c' t u) : Ran n (i :: is) w' x c' s u where
  run := (runCommands_cons h.runCommand is).trans h'.run
  setup := h.setup.trans h'.setup
  done := h'.done
  warn := h'.warn
  xlastLo := h'.xlastLo.trans h.xlastLo
  xlastHi := h'.xlastHi.trans h.xlastHi
  contents := h'.contents

/-- GEN past its two checks. -/
theorem runOf_gen {s : State} (hn : pixelCount s ≤ s.build.nMax) (hok : seedOk s.curX0 s.curR = true) :
    runOf .gen s = .ok [writeBytes .ks (keystream s)] (degenerate s.curX0) (some (lastIterate s)) :=
  (checkShape_of_le hn _).trans (checkSeed_of_ok hok _)

theorem runOf_maskXor {s : State} (dir : Dir) (hn : pixelCount s ≤ s.build.nMax) :
    runOf (.maskXor dir) s = .ok [writeBytes (destBuf dir) (blend (· ^^^ ·)
      (byteElems s (sourceBuf dir) (pixelCount s)) (byteElems s .ks (pixelCount s)))] false none :=
  checkShape_of_le hn _

section
variable {n : Nat} {s : State} (hs : Ready n s)
include hs

theorem Ready.keystream_accept (w : Word) : keystream (accept w s) = seedKeystream n s := by
  rw [keystream, hs.pixelCount_accept]
  rfl

theorem Ready.lastIterate_accept (w : Word) : lastIterate (accept w s) = seedLast n s := by
  rw [lastIterate, hs.pixelCount_accept]
  rfl

theorem Ready.accept_fits (w : Word) : pixelCount (accept w s) ≤ (accept w s).build.nMax := by
  rw [hs.pixelCount_accept]
  exact hs.fits

theorem ran_gen (hok : seedOk (seedX0 s) (seedR s) = true) :
    ∃ t, Ran n [.gen] (degenerate (seedX0 s)) (some (seedLast n s))
      ((contents n s).setBytes .ks (seedKeystream n s)) s t := by
  have hrun := runOf_gen (hs.accept_fits (encode .gen)) hok
  rw [hs.keystream_accept, hs.lastIterate_accept] at hrun
  exact ran_of_runOf hrun (contents_write_bytes rfl (seedKeystream_length n s) hs.le)

theorem ran_derivePerm : ∃ t, Ran n [.derivePerm] false none
    ((contents n s).setIndices .perm (argsort (contents n s).ks)) s t := by
  have hrun := runOf_derivePerm (hs.accept_fits (encode .derivePerm))
  rw [hs.pixelCount_accept] at hrun
  have hbij := isBijection_argsort (byteElems s .ks n)
  rw [byteElems_length] at hbij
  obtain ⟨hlen, hlt, -⟩ := hbij
  exact ran_of_runOf hrun (contents_write_indices rfl hlen hlt hs.le)

theorem ran_invertPerm (hbij : isBijection (contents n s).perm n) : ∃ t, Ran n [.invertPerm] false none
    ((contents n s).setIndices .pinv (invertTable (contents n s).perm)) s t := by
  have hrun := runOf_invertPerm (hs.accept_fits (encode .invertPerm)) (by rwa [hs.pixelCount_accept])
  rw [hs.pixelCount_accept] at hrun
  obtain ⟨hlen, hlt, -⟩ := hbij.invertTable
  exact ran_of_runOf hrun (contents_write_indices rfl hlen hlt hs.le)

theorem ran_gather (sel : TableSel) (dir : Dir) (hlt : ∀ e ∈ (contents n s).table sel, e < n) :
    ∃ t, Ran n [.gather sel dir] false none ((contents n s).setBytes (destBuf dir)
      (reorder ((contents n s).bytes (sourceBuf dir)) ((contents n s).table sel))) s t := by
  have hrun := runOf_gather dir (hs.accept_fits (encode (.gather sel dir))) (sel := sel)
    (by rwa [hs.pixelCount_accept, indexElems_accept, ← contents_table])
  rw [hs.pixelCount_accept, byteElems_accept, indexElems_accept, ← contents_table,
    ← contents_bytes_sourceBuf] at hrun
  exact ran_of_runOf hrun (contents_write_bytes (destBuf_elemBytes dir) (by simp [contents_table]) hs.le)

theorem ran_maskXor (dir : Dir) : ∃ t, Ran n [.maskXor dir] false none ((contents n s).setBytes (destBuf dir)
    (blend (· ^^^ ·) ((contents n s).bytes (sourceBuf dir)) (contents n s).ks)) s t := by
  have hrun := runOf_maskXor dir (hs.accept_fits (encode (.maskXor dir)))
  rw [hs.pixelCount_accept, byteElems_accept, byteElems_accept, ← contents_bytes_sourceBuf] at hrun
  exact ran_of_runOf hrun
    (contents_write_bytes (destBuf_elemBytes dir) (by simp [contents_bytes_sourceBuf]) hs.le)

end

end Sys2Proof.Machine
end

section
/-! SUPPORT. ENCRYPT and DECRYPT (43_cipher.md R190 to R195): what each writes, the primitive sequences they stand for,
the round trip, and what their results depend on. -/

namespace Sys2Proof.Machine

/-! ### The two ciphers on lists -/

@[simp] theorem encryptBytes_length (p ks : List Byte) : (encryptBytes p ks).length = ks.length := by
  simp [encryptBytes]

theorem byteOf_encryptBytes (p : List Byte) {ks : List Byte} {i : Nat} (hi : i < ks.length) :
    byteOf (encryptBytes p ks) i = byteOf p ((argsort ks).getD i 0) ^^^ byteOf ks i := by
  rw [encryptBytes, blend_getD _ _ _ (by simpa using hi) hi, reorder_getD _ _ (by simpa using hi)]

@[simp] theorem decryptBytes_length (c ks : List Byte) : (decryptBytes c ks).length = ks.length := by
  simp [decryptBytes]

theorem byteOf_decryptBytes {c ks : List Byte} (hlen : c.length = ks.length) {j : Nat} (hj : j < ks.length) :
    byteOf (decryptBytes c ks) j =
      byteOf c ((invertTable (argsort ks)).getD j 0) ^^^ byteOf ks ((invertTable (argsort ks)).getD j 0) := by
  have hentry := (isBijection_argsort ks).invertTable.getD_lt hj
  rw [decryptBytes, reorder_getD _ _ (by simpa using hj), blend_getD _ _ _ (by rwa [hlen]) hentry]

/-- DECRYPT's mask takes ENCRYPT's off, and its reorder by the inverse table undoes ENCRYPT's (43_cipher.md R194). -/
theorem decryptBytes_encryptBytes {p ks : List Byte} (hlen : p.length = ks.length) :
    decryptBytes (encryptBytes p ks) ks = p := by
  have hunmask : blend (· ^^^ ·) (encryptBytes p ks) ks = reorder p (argsort ks) := by
    refine eq_of_byteOf_eq (by simp) fun i hi => ?_
    have hi : i < ks.length := by simpa using hi
    rw [blend_getD _ _ _ (by simpa using hi) hi, byteOf_encryptBytes _ hi, reorder_getD _ _ (by simpa using hi),
      BitVec.xor_assoc, BitVec.xor_self, BitVec.xor_zero]
  obtain ⟨-, -, -, -, hundo⟩ := inverseTableUndoesReorder (argsort ks) ks.length (isBijection_argsort ks)
  rw [decryptBytes, hunmask, (hundo p hlen).1]

/-! ### What the pipelines write -/

/-- The writes of ENCRYPT on the plaintext `p` (43_cipher.md R190). -/
def encryptWrites (p ks : List Byte) : List BufWrite :=
  [writeBytes .ks ks, writeIndices .perm (argsort ks), writeBytes .dst (encryptBytes p ks)]

/-- The writes of DECRYPT on the ciphertext `c` (43_cipher.md R191). -/
def decryptWrites (c ks : List Byte) : List BufWrite :=
  [writeBytes .dst (decryptBytes c ks), writeBytes .ks ks, writeIndices .perm (argsort ks),
    writeIndices .pinv (invertTable (argsort ks))]

theorem runOf_encrypt {s : State} (hn : pixelCount s ≤ s.build.nMax) (hok : seedOk s.curX0 s.curR = true) :
    runOf .encrypt s = .ok (encryptWrites (byteElems s .src (pixelCount s)) (keystream s)) (degenerate s.curX0)
      (some (lastIterate s)) :=
  (checkShape_of_le hn _).trans (checkSeed_of_ok hok _)

theorem runOf_decrypt {s : State} (hn : pixelCount s ≤ s.build.nMax) (hok : seedOk s.curX0 s.curR = true) :
    runOf .decrypt s = .ok (decryptWrites (byteElems s .src (pixelCount s)) (keystream s)) (degenerate s.curX0)
      (some (lastIterate s)) :=
  (checkShape_of_le hn _).trans (checkSeed_of_ok hok _)

/-- The keystream `ks` in KS and its argsort in PERM. -/
def Contents.keyed (ks : List Byte) (c : Contents) : Contents := { c with ks := ks, perm := argsort ks }

/-- The contents after ENCRYPT (43_cipher.md R190). -/
def Contents.encrypted (ks : List Byte) (c : Contents) : Contents :=
  { c.keyed ks with dst := encryptBytes c.src ks }

/-- The contents after DECRYPT (43_cipher.md R191). -/
def Contents.decrypted (ks : List Byte) (c : Contents) : Contents :=
  { c.keyed ks with pinv := invertTable (argsort ks), dst := decryptBytes c.src ks }

/-- The contents after ENCRYPT's primitive sequence (43_cipher.md R192): the ciphertext is in SRC, the reordered
plaintext in DST. -/
def Contents.encryptedBySteps (ks : List Byte) (c : Contents) : Contents :=
  { c.keyed ks with src := encryptBytes c.src ks, dst := reorder c.src (argsort ks) }

/-- The contents after DECRYPT's primitive sequence (43_cipher.md R193): the plaintext is in SRC, the unmasked
ciphertext in DST. -/
def Contents.decryptedBySteps (ks : List Byte) (c : Contents) : Contents :=
  { c.keyed ks with
    pinv := invertTable (argsort ks)
    src := decryptBytes c.src ks
    dst := blend (· ^^^ ·) c.src ks }

section
variable {n : Nat} {s : State} {ks : List Byte} (hlen : ks.length = n) (hn : n ≤ 4194304)
include hlen hn

theorem contents_encryptWrites : contents n (withMem s (applyWrites s.mem (encryptWrites (byteElems s .src n) ks))) =
    (contents n s).encrypted ks := by
  obtain ⟨hargsort, hlt, -⟩ := isBijection_argsort ks
  simp only [encryptWrites, applyWrites, writeBytes_buf, writeBytes_bytes, writeIndices_buf, writeIndices_bytes]
  rw [contents_store_bytes rfl (by simpa using hlen) hn,
    contents_store_indices rfl (by rwa [hargsort]) (by rwa [← hlen]) hn, contents_store_bytes rfl hlen hn]
  rfl

theorem contents_decryptWrites : contents n (withMem s (applyWrites s.mem (decryptWrites (byteElems s .src n) ks))) =
    (contents n s).decrypted ks := by
  obtain ⟨hargsort, hlt, -⟩ := isBijection_argsort ks
  obtain ⟨hinverse, hlt', -⟩ := (isBijection_argsort ks).invertTable
  simp only [decryptWrites, applyWrites, writeBytes_buf, writeBytes_bytes, writeIndices_buf, writeIndices_bytes]
  rw [contents_store_indices rfl (by rwa [hinverse]) (by rwa [← hlen]) hn,
    contents_store_indices rfl (by rwa [hargsort]) (by rwa [← hlen]) hn,
    contents_store_bytes rfl hlen hn, contents_store_bytes rfl (by simpa using hlen) hn]
  rfl

end

/-- The entry of a stored argsort at the rank of an index is the index (41_permutation.md R140). -/
theorem wordElem_perm_sortRank {t : State} {ks : List Byte} {n : Nat} (hlen : ks.length = n)
    (hperm : indexElems t .perm n = argsort ks) {i : Nat} (hi : i < n) :
    wordElem t .perm (sortRank ks i) = BitVec.ofNat 32 i := by
  subst hlen
  rw [wordElem_of_indexElems hperm (sortRank_lt_length ks hi), argsort_getD_sortRank ks hi]

/-- A command that reads the seed and succeeds completes with its writes, which leave every byte outside its buffers. -/
theorem exec_of_runOf_some {i : Instr} {s : State} {ws : List BufWrite} {w : Bool} {x : F64}
    (hrun : runOf i s = .ok ws w (some x)) :
    exec i s = .next (doneWith (applyWrites s.mem ws) w x s) ∧
      ∀ a, (∀ b ∈ writesTo i, ¬ inElems b (pixelCount s) a) →
        byteAt (applyWrites s.mem ws) a = byteAt s.mem a := by
  refine ⟨by rw [exec_eq, hrun]; rfl, fun a ha => ?_⟩
  have hframe := byteAt_complete_runOf_frame ha
  rwa [hrun] at hframe

/-- Settles O17: the three writes are those of `Contents.encrypted`. -/
theorem encryptWritesCiphertext : Obligations.EncryptWritesCiphertext := by
  intro s hwf hn hok
  have hlen : (keystream s).length = pixelCount s := keystream_length s
  obtain ⟨hexec, hframe⟩ := exec_of_runOf_some (runOf_encrypt hn hok)
  have hc := contents_encryptWrites (s := s) hlen (hn.trans (Build.nMax_le hwf))
  refine ⟨_, hexec, rfl, ?_⟩
  generalize htmem : doneWith _ _ _ s = t
  obtain ⟨hks, hperm, hdst⟩ : byteElems t .ks (pixelCount s) = keystream s ∧
      indexElems t .perm (pixelCount s) = argsort (keystream s) ∧
      byteElems t .dst (pixelCount s) = encryptBytes (byteElems s .src (pixelCount s)) (keystream s) := by
    rw [← htmem]
    exact ⟨congrArg Contents.ks hc, congrArg Contents.perm hc, congrArg Contents.dst hc⟩
  refine ⟨fun i hi => byteElem_of_byteElems hks hi, fun i hi => wordElem_perm_sortRank hlen hperm hi,
    fun i hi => ?_, fun a h1 h2 h3 => ?_⟩
  · have hentry := (isBijection_argsort (keystream s)).getD_lt (hi.trans_eq hlen.symm)
    rw [byteElem_of_byteElems hdst hi, byteElem_of_byteElems hks hi, toNat_wordElem_of_indexElems hperm hi,
      byteOf_encryptBytes _ (hi.trans_eq hlen.symm), byteElem_of_byteElems rfl (hentry.trans_eq hlen)]
  · rw [← htmem]
    exact hframe a (by simp [writesTo, h1, h2, h3])

/-- Settles O18: the four writes are those of `Contents.decrypted`, and the bytes at PINV's entries are the ones the
inverse of the argsort picks. -/
theorem decryptWritesPlaintext : Obligations.DecryptWritesPlaintext := by
  intro s hwf hn hok
  have hlen : (keystream s).length = pixelCount s := keystream_length s
  obtain ⟨hexec, hframe⟩ := exec_of_runOf_some (runOf_decrypt hn hok)
  have hc := contents_decryptWrites (s := s) hlen (hn.trans (Build.nMax_le hwf))
  refine ⟨_, hexec, rfl, ?_⟩
  generalize htmem : doneWith _ _ _ s = t
  obtain ⟨hks, hperm, hpinv, hdst⟩ : byteElems t .ks (pixelCount s) = keystream s ∧
      indexElems t .perm (pixelCount s) = argsort (keystream s) ∧
      indexElems t .pinv (pixelCount s) = invertTable (argsort (keystream s)) ∧
      byteElems t .dst (pixelCount s) = decryptBytes (byteElems s .src (pixelCount s)) (keystream s) := by
    rw [← htmem]
    exact ⟨congrArg Contents.ks hc, congrArg Contents.perm hc, congrArg Contents.pinv hc, congrArg Contents.dst hc⟩
  have hbij := isBijection_argsort (keystream s)
  rw [hlen] at hbij
  refine ⟨fun i hi => byteElem_of_byteElems hks hi, fun i hi => wordElem_perm_sortRank hlen hperm hi,
    fun i hi => ?_, fun j hj => ?_, fun a h1 h2 h3 h4 => ?_⟩
  · rw [toNat_wordElem_of_indexElems hperm hi, wordElem_of_indexElems hpinv (hbij.getD_lt hi),
      invertTable_getD_getD hbij hi]
  · have hentry := hbij.invertTable.getD_lt hj
    rw [byteElem_of_byteElems hdst hj, toNat_wordElem_of_indexElems hpinv hj, byteElem_of_byteElems hks hentry,
      byteElem_of_byteElems rfl hentry, byteOf_decryptBytes (by simp) (hj.trans_eq hlen.symm)]
  · rw [← htmem]
    exact hframe a (by simp [writesTo, h1, h2, h3, h4])

/-! ### RUN of the pipelines and of the primitive sequences -/

section
variable {n : Nat} {s : State} (hs : Ready n s) (hok : seedOk (seedX0 s) (seedR s) = true)
include hs hok

theorem ran_encrypt : ∃ t, Ran n [.encrypt] (degenerate (seedX0 s)) (some (seedLast n s))
    ((contents n s).encrypted (seedKeystream n s)) s t := by
  have hrun := runOf_encrypt (hs.accept_fits (encode .encrypt)) hok
  rw [hs.pixelCount_accept, hs.keystream_accept, hs.lastIterate_accept] at hrun
  exact ran_of_runOf hrun (contents_encryptWrites (seedKeystream_length n s) hs.le)

theorem ran_decrypt : ∃ t, Ran n [.decrypt] (degenerate (seedX0 s)) (some (seedLast n s))
    ((contents n s).decrypted (seedKeystream n s)) s t := by
  have hrun := runOf_decrypt (hs.accept_fits (encode .decrypt)) hok
  rw [hs.pixelCount_accept, hs.keystream_accept, hs.lastIterate_accept] at hrun
  exact ran_of_runOf hrun (contents_decryptWrites (seedKeystream_length n s) hs.le)

/-- Both sequences begin with GEN and DERIVE_PERM. -/
theorem ran_gen_derivePerm : ∃ g d,
    Ran n [.gen] (degenerate (seedX0 s)) (some (seedLast n s)) ((contents n s).setBytes .ks (seedKeystream n s)) s g ∧
    Ran n [.derivePerm] false none ((contents n s).keyed (seedKeystream n s)) g d := by
  obtain ⟨g, hg⟩ := ran_gen hs hok
  obtain ⟨d, hd⟩ := ran_derivePerm (hs.congr hg.setup)
  rw [hg.contents] at hd
  exact ⟨g, d, hg, hd⟩

theorem ran_encryptSequence : ∃ g u,
    Ran n [.gen] (degenerate (seedX0 s)) (some (seedLast n s)) ((contents n s).setBytes .ks (seedKeystream n s)) s g ∧
    Ran n [.gen, .derivePerm, .gather .perm .s2d, .maskXor .d2s] false (some (seedLast n s))
      ((contents n s).encryptedBySteps (seedKeystream n s)) s u := by
  have hbij := isBijection_argsort (seedKeystream n s)
  rw [seedKeystream_length] at hbij
  obtain ⟨-, hlt, -⟩ := hbij
  obtain ⟨g, d, hg, hd⟩ := ran_gen_derivePerm hs hok
  have hready := (hs.congr hg.setup).congr hd.setup
  obtain ⟨h, hh⟩ := ran_gather hready .perm .s2d (by rw [hd.contents]; exact hlt)
  rw [hd.contents] at hh
  obtain ⟨u, hu⟩ := ran_maskXor (hready.congr hh.setup) .d2s
  rw [hh.contents] at hu
  exact ⟨g, u, hg, hg.cons (hd.cons (hh.cons hu))⟩

theorem ran_decryptSequence : ∃ g u,
    Ran n [.gen] (degenerate (seedX0 s)) (some (seedLast n s)) ((contents n s).setBytes .ks (seedKeystream n s)) s g ∧
    Ran n [.gen, .derivePerm, .invertPerm, .maskXor .s2d, .gather .pinv .d2s] false (some (seedLast n s))
      ((contents n s).decryptedBySteps (seedKeystream n s)) s u := by
  have hbij := isBijection_argsort (seedKeystream n s)
  rw [seedKeystream_length] at hbij
  obtain ⟨-, hlt, -⟩ := hbij.invertTable
  obtain ⟨g, d, hg, hd⟩ := ran_gen_derivePerm hs hok
  have hready := (hs.congr hg.setup).congr hd.setup
  obtain ⟨v, hv⟩ := ran_invertPerm hready (by rw [hd.contents]; exact hbij)
  rw [hd.contents] at hv
  obtain ⟨m, hm⟩ := ran_maskXor (hready.congr hv.setup) .s2d
  rw [hv.contents] at hm
  obtain ⟨u, hu⟩ := ran_gather ((hready.congr hv.setup).congr hm.setup) .pinv .d2s
    (by rw [hm.contents]; exact hlt)
  rw [hm.contents] at hu
  exact ⟨g, u, hg, hg.cons (hd.cons (hv.cons (hm.cons hu)))⟩

end

/-- Settles O57: the contents that ENCRYPT and its sequence leave agree but for SRC and DST. -/
theorem encryptEqualsPrimitiveSequence : Obligations.EncryptEqualsPrimitiveSequence := by
  intro s hwf hn hok
  obtain ⟨t, ht⟩ := ran_encrypt ⟨hwf, rfl, hn⟩ hok
  obtain ⟨g, u, hg, hu⟩ := ran_encryptSequence ⟨hwf, rfl, hn⟩ hok
  refine ⟨t, g, u, ht.runCommand, hg.runCommand, hu.run, ht.done, hu.done, hg.warn.trans ht.warn.symm, hu.warn,
    hu.xlastLo.trans ht.xlastLo.symm, hu.xlastHi.trans ht.xlastHi.symm, fun i hi => ?_⟩
  have hks := (congrArg Contents.ks hu.contents).trans (congrArg Contents.ks ht.contents).symm
  have hperm := (congrArg Contents.perm hu.contents).trans (congrArg Contents.perm ht.contents).symm
  have hcipher := (congrArg Contents.src hu.contents).trans (congrArg Contents.dst ht.contents).symm
  have hplain := congrArg Contents.src ht.contents
  refine ⟨byteElem_eq_of_byteElems hks hi, wordElem_eq_of_indexElems hperm hi, byteElem_eq_of_byteElems hcipher hi,
    byteElem_eq_of_byteElems hplain hi, ?_⟩
  have hlen : i < (seedKeystream (shapeCount s) s).length := by simpa using hi
  have hentry := (isBijection_argsort _).getD_lt hlen
  rw [seedKeystream_length] at hentry
  calc byteElem u .dst i
      = byteOf (reorder (contents (shapeCount s) s).src (argsort (seedKeystream (shapeCount s) s))) i :=
        byteElem_of_byteElems (congrArg Contents.dst hu.contents) hi
    _ = byteOf (contents (shapeCount s) s).src ((argsort (seedKeystream (shapeCount s) s)).getD i 0) :=
        reorder_getD _ _ (by simpa using hi)
    _ = byteElem s .src ((argsort (seedKeystream (shapeCount s) s)).getD i 0) :=
        (byteElem_of_byteElems rfl hentry).symm
    _ = byteElem s .src (wordElem t .perm i).toNat := by
        rw [toNat_wordElem_of_indexElems (congrArg Contents.perm ht.contents) hi]
        rfl

/-- Settles O58: the contents that DECRYPT and its sequence leave agree but for SRC and DST. -/
theorem decryptEqualsPrimitiveSequence : Obligations.DecryptEqualsPrimitiveSequence := by
  intro s hwf hn hok
  obtain ⟨t, ht⟩ := ran_decrypt ⟨hwf, rfl, hn⟩ hok
  obtain ⟨g, u, hg, hu⟩ := ran_decryptSequence ⟨hwf, rfl, hn⟩ hok
  refine ⟨t, g, u, ht.runCommand, hg.runCommand, hu.run, ht.done, hu.done, hg.warn.trans ht.warn.symm, hu.warn,
    hu.xlastLo.trans ht.xlastLo.symm, hu.xlastHi.trans ht.xlastHi.symm, fun i hi => ?_⟩
  have hks := (congrArg Contents.ks hu.contents).trans (congrArg Contents.ks ht.contents).symm
  have hperm := (congrArg Contents.perm hu.contents).trans (congrArg Contents.perm ht.contents).symm
  have hpinv := (congrArg Contents.pinv hu.contents).trans (congrArg Contents.pinv ht.contents).symm
  have hplain := (congrArg Contents.src hu.contents).trans (congrArg Contents.dst ht.contents).symm
  have hcipher := congrArg Contents.src ht.contents
  refine ⟨byteElem_eq_of_byteElems hks hi, wordElem_eq_of_indexElems hperm hi, wordElem_eq_of_indexElems hpinv hi,
    byteElem_eq_of_byteElems hplain hi, byteElem_eq_of_byteElems hcipher hi, ?_⟩
  calc byteElem u .dst i
      = byteOf (blend (· ^^^ ·) (byteElems s .src (shapeCount s)) (seedKeystream (shapeCount s) s)) i :=
        byteElem_of_byteElems (congrArg Contents.dst hu.contents) hi
    _ = byteOf (byteElems s .src (shapeCount s)) i ^^^ byteOf (seedKeystream (shapeCount s) s) i :=
        blend_getD _ _ _ (by simpa using hi) (by simpa using hi)
    _ = byteElem s .src i ^^^ byteElem t .ks i := by
        rw [byteElem_of_byteElems rfl hi, byteElem_of_byteElems (congrArg Contents.ks ht.contents) hi]
        rfl

/-- Settles O59: the copy makes DECRYPT's SRC the ciphertext, under the same keystream. -/
theorem decryptUndoesEncrypt : Obligations.DecryptUndoesEncrypt := by
  intro s hwf hn hok
  have hs : Ready (shapeCount s) s := ⟨hwf, rfl, hn⟩
  obtain ⟨t, ht⟩ := ran_encrypt hs hok
  refine ⟨t, ht.runCommand, ht.done, fun t' hsetup hcopy => ?_⟩
  obtain ⟨hx0, hr⟩ := hsetup.seed_eq
  obtain ⟨u, hu⟩ := ran_decrypt (hs.congr hsetup) (by rwa [hx0, hr])
  refine ⟨u, hu.runCommand, hu.done, fun i hi => byteElem_eq_of_byteElems ?_ hi⟩
  have hcipher : byteElems t' .src (shapeCount s) = byteElems t .dst (shapeCount s) :=
    List.map_congr_left fun i hi => hcopy i (List.mem_range.1 hi)
  calc byteElems u .dst (shapeCount s)
      = decryptBytes (byteElems t' .src (shapeCount s)) (seedKeystream (shapeCount s) t') :=
        congrArg Contents.dst hu.contents
    _ = decryptBytes (encryptBytes (byteElems s .src (shapeCount s)) (seedKeystream (shapeCount s) s))
          (seedKeystream (shapeCount s) s) := by
        rw [hcipher, hsetup.seedKeystream_eq]
        exact congrArg (decryptBytes · _) (congrArg Contents.dst ht.contents)
    _ = byteElems s .src (shapeCount s) := decryptBytes_encryptBytes (by simp)

/-! ### What the results depend on -/

theorem checkSeed_congr {s s' : State} (hx0 : s'.curX0 = s.curX0) (hr : s'.curR = s.curR) (r : RunResult) :
    checkSeed s' r = checkSeed s r := by
  rw [checkSeed, hx0, hr, checkSeed]

/-- The run of a command that reads the seed is a function of the snapshot, of SRC for the pipelines, and of the shape
check's outcome (43_cipher.md R195). -/
theorem runOf_seedReader_congr {i : Instr} {s s' : State} (hi : i = .gen ∨ i = .encrypt ∨ i = .decrypt)
    (hfits : pixelCount s ≤ s.build.nMax ↔ pixelCount s ≤ s'.build.nMax) (hx0 : s'.curX0 = s.curX0)
    (hr : s'.curR = s.curR) (hN : s'.curN = s.curN)
    (hsrc : i ≠ .gen → ∀ k < pixelCount s, byteElem s' .src k = byteElem s .src k) : runOf i s' = runOf i s := by
  have hcount : pixelCount s' = pixelCount s := congrArg BitVec.toNat hN
  have hks : keystream s' = keystream s := by rw [keystream, hr, hcount, hx0, keystream]
  have hlast : lastIterate s' = lastIterate s := by rw [lastIterate, hr, hcount, hx0, lastIterate]
  have hplain : i ≠ .gen → byteElems s' .src (pixelCount s') = byteElems s .src (pixelCount s) := fun hne => by
    rw [hcount]
    exact List.map_congr_left fun k hk => hsrc hne k (List.mem_range.1 hk)
  have hshape (r : RunResult) : checkShape s' r = checkShape s r := by
    rw [checkShape, checkShape, hcount]
    exact if_congr (by omega) rfl rfl
  rcases hi with rfl | rfl | rfl
  · simp only [runOf, runGen, hshape, checkSeed_congr hx0 hr, hks, hlast, hx0]
  · simp only [runOf, runEncrypt, hshape, checkSeed_congr hx0 hr, hks, hlast, hx0, hplain (by decide)]
  · simp only [runOf, runDecrypt, hshape, checkSeed_congr hx0 hr, hks, hlast, hx0, hplain (by decide)]

/-- A command that reads the seed and succeeds writes every buffer of its list. -/
theorem exists_write_of_runOf_seedReader {i : Instr} {s : State} {ws : List BufWrite} {w : Bool} {x : Option F64}
    (hi : i = .gen ∨ i = .encrypt ∨ i = .decrypt) (hrun : runOf i s = .ok ws w x) :
    ∀ b ∈ writesTo i, ∃ v ∈ ws, v.buf = b := by
  rcases hi with rfl | rfl | rfl
  all_goals
    obtain ⟨-, hrun⟩ := checkShape_ok hrun
    obtain ⟨-, hrun⟩ := checkSeed_ok hrun
    obtain ⟨rfl, -, -⟩ := RunResult.ok.inj hrun
    simp [writesTo]

/-- Where one of the writes touches, the memory before them does not matter. -/
theorem byteAt_applyWrites_congr {m m' : Memory} {ws : List BufWrite} {a : Nat}
    (h : byteAt m a = byteAt m' a ∨ ∃ w ∈ ws, w.touches a) :
    byteAt (applyWrites m ws) a = byteAt (applyWrites m' ws) a := by
  induction ws generalizing m m' with
  | nil => exact h.resolve_right (by simp)
  | cons w ws ih =>
    refine ih ?_
    rw [byteAt_storeBytes, byteAt_storeBytes]
    by_cases hw : w.buf.base ≤ a ∧ a < w.buf.base + w.bytes.length
    · exact .inl (by rw [if_pos hw, if_pos hw])
    · rw [if_neg hw, if_neg hw]
      refine h.imp_right fun ⟨v, hv, hva⟩ => ?_
      rcases List.mem_cons.1 hv with rfl | hv
      · exact absurd hva hw
      · exact ⟨v, hv, hva⟩

/-- Settles O60: the two runs answer the same, and their writes cover what the command writes. -/
theorem pipelinesDependOnSeedShapeAndSource : Obligations.PipelinesDependOnSeedShapeAndSource := by
  intro i s s' hi _ _ hfits hx0 hr hN hsrc
  have hsame := runOf_seedReader_congr hi hfits hx0 hr hN hsrc
  refine ⟨_, _, exec_eq i s, exec_eq i s', ?_⟩
  rw [hsame]
  cases hrun : runOf i s with
  | error c info => exact ⟨rfl, rfl, fun hdone => by simp [complete] at hdone⟩
  | ok ws w x =>
    obtain ⟨hcovers, hseed⟩ := runOf_ok hrun
    obtain ⟨-, -, rfl⟩ : _ ∧ w = _ ∧ x = some (lastIterate s) := hseed.resolve_right fun h => h.1 hi
    refine ⟨by simp [complete], by simp [complete], fun _ => ⟨rfl, rfl, fun b hb a ha => ?_⟩⟩
    obtain ⟨v, hv, rfl⟩ := exists_write_of_runOf_seedReader hi hrun b hb
    exact byteAt_applyWrites_congr (.inr ⟨v, hv, ((hcovers v hv).2.touches a).2 ha⟩)

end Sys2Proof.Machine
end

section
/-! SUPPORT. The control interface (44_control.md R210 to R213): the completion of NOP, and what the host's writes of
STATUS and CTRL leave. -/

namespace Sys2Proof.Machine

/-! ### NOP -/

/-- Settles O11: NOP runs no check and writes nothing, so its completion is STATUS = DONE and ERRINFO = 0. -/
theorem nopOnlyCompletes : Obligations.NopOnlyCompletes := by
  intro s
  have hdone : doneStatus false = 0x00000002#32 := by decide
  calc exec .nop s
    _ = .next (completeOk [] false none s) := exec_eq .nop s
    _ = .next (doneKeep s.mem s) := by rw [completeOk_none, applyWrites]
    _ = .next { s with status := 0x00000002#32, errinfo := 0#32 } := by rw [doneKeep, hdone]

/-! ### STATUS -/

/-- A STATUS write is answered OKAY in every state (20_memory.md R69). -/
theorem serve_write_status (v : Word) (s : State) :
    serve (.txn (.write 0x010#32 .w4 v)) s = { writeStatus v s with resp := .writeOkay } :=
  serve_write_ok (memWrite_reg .status v rfl rfl fun _ => rfl)

/-- A write of 0 clears no bit (44_control.md R211). -/
theorem writeStatus_zero (s : State) : writeStatus 0#32 s = s := by
  have hmask : clearMask 0#32 = 0#32 := by decide
  have hst : s.status &&& ~~~ clearMask 0#32 = s.status := by
    rw [hmask, BitVec.not_zero, BitVec.and_allOnes]
  rw [writeStatus, hst]

/-- Settles O27: the write's rule, bit by bit. -/
theorem statusWriteClearsByBit : Obligations.StatusWriteClearsByBit := by
  intro s v
  refine ⟨_, rfl, ?_⟩
  rw [serve_write_status]
  exact ⟨rfl, busy_writeStatus v s, done_writeStatus v s, warn_writeStatus v s, err_writeStatus v s,
    errCode_writeStatus v s, writeStatus_reserved v s, fun hv => by rw [hv, writeStatus_zero],
    fun hs hb => by rw [writeStatus_of_busy hs hb]⟩

/-! ### CTRL -/

/-- Bit 1 is the soft reset (44_control.md R213). -/
theorem writeCtrl_of_softReset {v : Word} (h : v.getLsbD 1 = true) (s : State) : writeCtrl v s = resetRegisters s :=
  if_pos h

/-- Without bit 1, bit 0 alone is kept (44_control.md R212). -/
theorem writeCtrl_of_not_softReset {v : Word} (h : v.getLsbD 1 = false) (s : State) :
    writeCtrl v s = { s with ctrl := if v.getLsbD 0 then 1#32 else 0#32 } := by
  have hword : (BitVec.ofBool (v.getLsbD 0)).setWidth 32 = if v.getLsbD 0 then 1#32 else 0#32 := by
    cases v.getLsbD 0 <;> rfl
  rw [writeCtrl, h, if_neg Bool.false_ne_true, hword]

theorem serve_write_ctrl {s : State} (hb : busy s = false) (v : Word) :
    serve (.txn (.write 0x00C#32 .w4 v)) s = { writeCtrl v s with resp := .writeOkay } :=
  serve_write_ok (memWrite_regAddr (r := .ctrl) hb v rfl)

/-- BUSY = 1 refuses every CTRL write, the soft reset too (20_memory.md R69). -/
theorem serve_write_ctrl_of_busy {s : State} (hb : busy s = true) (v : Word) :
    ∃ f, serve (.txn (.write 0x00C#32 .w4 v)) s = { s with resp := .busError f } :=
  ⟨.lockedOut, serve_write_error (memWrite_reg_locked .ctrl v rfl rfl hb (by decide))⟩

/-- CTRL reads back IRQ_EN after a write of it (10_state.md R25). -/
theorem ctrlWord_of_ctrl_eq {s : State} {b : Bool} (h : s.ctrl = if b then 1#32 else 0#32) :
    ctrlWord s = if b then 1#32 else 0#32 := by
  rw [ctrlWord_eq, h]
  cases b <;> rfl

/-- Settles O28: the write keeps bit 0, which a read of CTRL returns. -/
theorem ctrlWriteSetsIrqEnable : Obligations.CtrlWriteSetsIrqEnable := by
  intro s v
  refine ⟨fun hb hbit => ?_, fun hb => serve_write_ctrl_of_busy hb v⟩
  rw [serve_write_ctrl hb, writeCtrl_of_not_softReset hbit]
  exact ⟨rfl, (memRead_regAddr _ .ctrl).trans (congrArg Except.ok (ctrlWord_of_ctrl_eq rfl))⟩

/-- Settles O29: the model keeps the snapshot, one of the values that the rule leaves open (log 5). -/
theorem softResetClearsRegistersKeepsBuffers : Obligations.SoftResetClearsRegistersKeepsBuffers := by
  intro s v hbit
  refine ⟨fun hb => ⟨s.curCmd, s.curN, s.curX0, s.curR, ?_⟩, fun hb => serve_write_ctrl_of_busy hb v⟩
  rw [serve_write_ctrl hb, writeCtrl_of_softReset hbit]
  rfl

end Sys2Proof.Machine
end

section
/-! SUPPORT. Command errors, the warning and the interrupt (60_exceptions.md R230 to R245): which check ends a command,
what an error leaves, and what the interrupt output follows. -/

namespace Sys2Proof.Machine

/-! ### Taking a command error -/

/-- A run that answers an error changes STATUS and ERRINFO alone (60_exceptions.md R236). -/
theorem exec_of_runOf_error {i : Instr} {s : State} {c : ErrCode} {info st : Word}
    (hrun : runOf i s = .error c info) (hst : errorStatus c = st) :
    exec i s = .next { s with status := st, errinfo := info } := by
  rw [exec_eq, hrun, complete, completeError, hst]

theorem errorStatus_shapeMismatch : errorStatus .shapeMismatch = 0x00000204#32 := by decide

theorem errorStatus_invalidSeedRange : errorStatus .invalidSeedRange = 0x00000104#32 := by decide

theorem errorStatus_illegalCommand : errorStatus .illegalCommand = 0x00000304#32 := by decide

theorem errorStatus_permIndexRange : errorStatus .permIndexRange = 0x00000404#32 := by decide

theorem errorStatus_permNotBijective : errorStatus .permNotBijective = 0x00000504#32 := by decide

/-! ### IllegalCommand -/

theorem exists_illegal_of_not_legalWord {blendAdd : Bool} {w : Word} (h : ¬ legalWord blendAdd w) :
    ∃ e, decode blendAdd w = .error e := by
  cases hdec : decode blendAdd w with
  | error e => exact ⟨e, rfl⟩
  | ok i => exact absurd ((decoderAcceptsExactlyLegalWords blendAdd w).1 ⟨i, hdec⟩) h

theorem completeCurrent_of_illegal {s : State} {e : Illegal} (h : decode s.build.blendAdd s.curCmd = .error e) :
    completeCurrent s = .next (completeError .illegalCommand 0#32 s) := by
  simp only [completeCurrent, h]

/-- Settles O5: the unit moves, and the decoder has no command for the word in CUR_CMD. -/
theorem illegalWordCompletesWithIllegalCommand : Obligations.IllegalWordCompletesWithIllegalCommand := by
  intro s hb hnext hillegal
  obtain ⟨e, hdec⟩ := exists_illegal_of_not_legalWord hillegal
  rw [step_of_unitMoves (unitMoves_of hb hnext), completeCurrent_of_illegal hdec, completeError,
    errorStatus_illegalCommand]

theorem checkBlendAdd_of_false {s : State} (h : s.build.blendAdd = false) (r : RunResult) :
    checkBlendAdd s r = .error .illegalCommand 0#32 := by
  rw [checkBlendAdd, h, if_neg Bool.false_ne_true]

/-- Settles O24: the check for the additive blend comes before the shape check. -/
theorem additiveBlendAbsentIsIllegalCommand : Obligations.AdditiveBlendAbsentIsIllegalCommand := by
  intro dir s habsent
  exact ⟨exec_of_runOf_error (i := .maskAdd dir) (checkBlendAdd_of_false habsent _) errorStatus_illegalCommand,
    exec_of_runOf_error (i := .maskSub dir) (checkBlendAdd_of_false habsent _) errorStatus_illegalCommand⟩

/-! ### ShapeMismatch and InvalidSeedRange -/

/-- The shape check is the first of every command that the build has, but for NOP, which has none
(60_exceptions.md R233, R238). -/
theorem runOf_of_tooLarge {i : Instr} {s : State} (hne : i ≠ .nop) (hwf : i.wf s.build.blendAdd = true)
    (hgt : s.build.nMax < pixelCount s) : runOf i s = .error .shapeMismatch 0#32 := by
  cases i with
  | nop => exact absurd rfl hne
  | maskAdd dir => exact (blendsBy_maskAdd dir hwf s rfl).trans (checkShape_of_gt hgt _)
  | maskSub dir => exact (blendsBy_maskSub dir hwf s rfl).trans (checkShape_of_gt hgt _)
  | gen | derivePerm | invertPerm | gather sel dir | maskXor dir | encrypt | decrypt =>
    exact checkShape_of_gt hgt _

/-- Settles O20: the shape check answers before any other. -/
theorem tooLargeShapeIsShapeMismatch : Obligations.TooLargeShapeIsShapeMismatch := by
  intro i s hne hwf hgt
  exact exec_of_runOf_error (runOf_of_tooLarge hne hwf hgt) errorStatus_shapeMismatch

/-- The commands that read the seed check it right after the shape (60_exceptions.md R232, R238). -/
theorem runOf_of_badSeed {i : Instr} {s : State} (hi : i = .gen ∨ i = .encrypt ∨ i = .decrypt)
    (hn : pixelCount s ≤ s.build.nMax) (hbad : seedOk s.curX0 s.curR = false) :
    runOf i s = .error .invalidSeedRange 0#32 := by
  rcases hi with rfl | rfl | rfl <;> exact (checkShape_of_le hn _).trans (checkSeed_of_bad hbad _)

/-- Settles O21: past the shape check, the seed check answers. -/
theorem badSeedIsInvalidSeedRange : Obligations.BadSeedIsInvalidSeedRange := by
  intro i s hi hn hbad
  exact exec_of_runOf_error (runOf_of_badSeed hi hn hbad) errorStatus_invalidSeedRange

/-! ### PermIndexRange and PermNotBijective -/

/-- Settles O22: past the shape check, both commands check the range of their table's entries, and the check answers
the first index that fails it. -/
theorem entryOutOfRangeIsPermIndexRange : Obligations.EntryOutOfRangeIsPermIndexRange := by
  intro s i hn hi
  refine ⟨fun hbefore hout => ?_, fun sel dir hbefore hout => ?_⟩
  · exact exec_of_runOf_error (i := .invertPerm) ((checkShape_of_le hn _).trans (checkRange_first hi hbefore hout _))
      errorStatus_permIndexRange
  · exact exec_of_runOf_error (i := .gather sel dir)
      ((checkShape_of_le hn _).trans (checkRange_first hi hbefore hout _)) errorStatus_permIndexRange

/-- The distinctness check on a table of the state, at its smallest repeating index (60_exceptions.md R237). -/
theorem checkDistinct_first {s : State} {b : Buf} {n i j : Nat} (hi : i < n) (hj : j < i)
    (hrep : wordElem s b i = wordElem s b j) (hfirst : ∀ m < i, ∀ k < m, wordElem s b m ≠ wordElem s b k)
    (r : RunResult) : checkDistinct (indexElems s b n) r = .error .permNotBijective (BitVec.ofNat 32 i) := by
  have hentry : ∀ m ≤ i, (indexElems s b n).getD m 0 = (wordElem s b m).toNat :=
    fun m hm => indexElems_getD s b n m (Nat.lt_of_le_of_lt hm hi)
  have hsome : firstRepeatAfter [] 0 (indexElems s b n) = some (0 + i) := by
    refine firstRepeatAfter_eq_some (by rwa [indexElems_length]) (.inr ⟨j, hj, ?_⟩)
      fun m hm => ⟨List.not_mem_nil, fun k hk heq => hfirst m hm k hk ?_⟩
    · rw [hentry j hj.le, hentry i le_rfl, hrep]
    · rw [hentry k (hk.trans hm).le, hentry m hm.le] at heq
      exact BitVec.eq_of_toNat_eq heq.symm
  rw [checkDistinct, hsome, Nat.zero_add]

/-- Settles O23: the shape and the range checks pass, and the distinctness check answers. -/
theorem repeatedEntryIsPermNotBijective : Obligations.RepeatedEntryIsPermNotBijective := by
  intro s i j hn hlt hi hj hrep hfirst
  have hrun : runOf .invertPerm s = .error .permNotBijective (BitVec.ofNat 32 i) :=
    calc runOf .invertPerm s
      _ = checkRange _ _ (checkDistinct _ _) := checkShape_of_le hn _
      _ = checkDistinct _ _ := checkRange_of_lt (indexElems_lt hlt) _
      _ = .error .permNotBijective (BitVec.ofNat 32 i) := checkDistinct_first hi hj hrep hfirst _
  exact exec_of_runOf_error hrun errorStatus_permNotBijective

/-! ### N = 0 -/

/-- With N = 0 no check but the seed's can fail: an empty table has no entry out of range and none repeated. -/
theorem exists_runOf_ok_of_empty {i : Instr} {s : State} (hwf : i.wf s.build.blendAdd = true)
    (hempty : pixelCount s = 0) (hok : seedOk s.curX0 s.curR = true) : ∃ ws b x, runOf i s = .ok ws b x := by
  have hn : pixelCount s ≤ s.build.nMax := by omega
  cases i with
  | nop => exact ⟨_, _, _, rfl⟩
  | gen => exact ⟨_, _, _, runOf_gen hn hok⟩
  | derivePerm => exact ⟨_, _, _, runOf_derivePerm hn⟩
  | invertPerm =>
    have hbij : isBijection (indexElems s .perm (pixelCount s)) (pixelCount s) := by
      rw [hempty]
      exact isBijection_range 0
    exact ⟨_, _, _, runOf_invertPerm hn hbij⟩
  | gather sel dir => exact ⟨_, _, _, runOf_gather dir hn (indexElems_lt fun k hk => by omega)⟩
  | maskXor dir => exact ⟨_, _, _, runOf_maskXor dir hn⟩
  | maskAdd dir => exact ⟨_, _, _, (blendsBy_maskAdd dir hwf s rfl).trans (checkShape_of_le hn _)⟩
  | maskSub dir => exact ⟨_, _, _, (blendsBy_maskSub dir hwf s rfl).trans (checkShape_of_le hn _)⟩
  | encrypt => exact ⟨_, _, _, runOf_encrypt hn hok⟩
  | decrypt => exact ⟨_, _, _, runOf_decrypt hn hok⟩

theorem applyWrites_of_empty (m : Memory) {ws : List BufWrite} (h : ∀ w ∈ ws, w.bytes = []) :
    applyWrites m ws = m := by
  induction ws generalizing m with
  | nil => rfl
  | cons w ws ih =>
    obtain ⟨hw, hws⟩ := List.forall_mem_cons.1 h
    rw [applyWrites, hw, storeBytes, ih m hws]

/-- With N = 0 every write of a run is empty: it covers elements 0 to N - 1. -/
theorem applyWrites_runOf_of_empty {i : Instr} {s : State} {ws : List BufWrite} {b : Bool} {x : Option F64}
    (hrun : runOf i s = .ok ws b x) (hempty : pixelCount s = 0) : applyWrites s.mem ws = s.mem := by
  refine applyWrites_of_empty s.mem fun w hw => List.length_eq_zero_iff.1 ?_
  obtain ⟨-, -, hlen⟩ := (runOf_ok hrun).1 w hw
  rw [hlen, hempty, Nat.mul_zero]

/-- The halves that XLAST_HI and XLAST_LO hold make up the value (20_memory.md R63). -/
theorem hiWord_append_loWord (x : F64) : hiWord x ++ loWord x = x :=
  BitVec.extractLsb'_append_extractLsb'

/-- Settles O19: the run succeeds, its writes are empty, and no step of the map leaves the last iterate at x0. -/
theorem emptyImageCompletes : Obligations.EmptyImageCompletes := by
  intro i s hwf hempty hok
  obtain ⟨ws, b, x, hrun⟩ := exists_runOf_ok_of_empty hwf hempty hok
  refine ⟨completeOk ws b x s, by rw [exec_eq, hrun, complete], applyWrites_runOf_of_empty hrun hempty,
    done_completeOk ws b x s, err_completeOk ws b x s, completeOk_errinfo ws b x s, fun hi => ?_⟩
  obtain ⟨-, -, rfl⟩ : _ ∧ b = _ ∧ x = some (lastIterate s) := (runOf_ok hrun).2.resolve_right fun h => h.1 hi
  rw [completeOk_xlastHi_some, completeOk_xlastLo_some, hiWord_append_loWord, lastIterate, hempty, ksLast]

/-! ### What an error leaves, and when WARN is set -/

/-- Settles O25: a completion with ERR = 1 is that of a run that answered an error. -/
theorem commandErrorsArePrecise : Obligations.CommandErrorsArePrecise := by
  intro i s t hexec herr
  obtain rfl := exec_next hexec
  cases hrun : runOf i s with
  | error c info =>
    obtain ⟨hbusy, hdone, -, hwarn, hcode, hreserved⟩ := errorStatus_bits c
    obtain ⟨hlo, hhi⟩ := errNumber_range c
    rw [← hcode] at hlo hhi
    exact ⟨rfl, hbusy, hdone, hwarn, hlo, hhi, hreserved⟩
  | ok ws b x => simp [hrun, complete] at herr

/-- Settles O26: an error completes without WARN, and a success with the flag its run answers, which is that of the
sampled x0 for the commands that read the seed and else false. -/
theorem warnExactlyOnDegenerateSeed : Obligations.WarnExactlyOnDegenerateSeed := by
  intro i s t hexec
  obtain rfl := exec_next hexec
  cases hrun : runOf i s with
  | error c info => simp [complete]
  | ok ws b x =>
    rw [complete, warn_completeOk, err_completeOk]
    rcases (runOf_ok hrun).2 with ⟨hi, rfl, -⟩ | ⟨hi, rfl, -⟩
    · simp [hi]
    · simp [hi]

/-! ### The interrupt output -/

@[simp] theorem complete_ctrl (r : RunResult) (s : State) : (complete r s).ctrl = s.ctrl := by
  rw [complete_eq]

/-- Every completion sets DONE or ERR, so it asserts IRQ while IRQ_EN = 1 (60_exceptions.md R245). -/
theorem irq_complete (r : RunResult) (s : State) : irq (complete r s) = irqEn s := by
  rw [irq, done_complete, Bool.not_or_self, Bool.and_true, irqEn, complete_ctrl, irqEn]

@[simp] theorem irq_withResp (s : State) (r : Response) : irq { s with resp := r } = irq s := rfl

theorem irqEn_of_ctrl_eq {s : State} {b : Bool} (h : s.ctrl = if b then 1#32 else 0#32) : irqEn s = b := by
  rw [irqEn, h]
  cases b <;> rfl

theorem irq_of_not_irqEn {s : State} (h : irqEn s = false) : irq s = false := by
  rw [irq, h, Bool.false_and]

theorem irq_of_not_done_not_err {s : State} (hdone : done s = false) (herr : err s = false) : irq s = false := by
  rw [irq, hdone, herr, Bool.or_self, Bool.and_false]

theorem irq_resetRegisters (s : State) : irq (resetRegisters s) = false :=
  irq_of_not_irqEn (by simp [irqEn])

theorem irq_hardwareReset (s : State) : irq (hardwareReset s) = false :=
  irq_of_not_irqEn (by simp [irqEn])

theorem irq_accept (w : Word) (s : State) : irq (accept w s) = false := by
  obtain ⟨-, hdone, herr, -⟩ := busyStatus_bits
  exact irq_of_not_done_not_err hdone herr

theorem irq_writeCtrl (v : Word) (s : State) :
    irq (writeCtrl v s) = (!v.getLsbD 1 && v.getLsbD 0 && (done s || err s)) := by
  cases hreset : v.getLsbD 1 with
  | true =>
    rw [writeCtrl_of_softReset hreset, irq_resetRegisters]
    rfl
  | false =>
    rw [writeCtrl_of_not_softReset hreset, irq, irqEn_of_ctrl_eq rfl]
    rfl

/-- Clearing DONE and ERR deasserts IRQ (44_control.md R211). -/
theorem irq_writeStatus_of_clear {v : Word} (hdone : v.getLsbD 1 = true) (herr : v.getLsbD 2 = true) (s : State) :
    irq (writeStatus v s) = false :=
  irq_of_not_done_not_err (by simp [hdone]) (by simp [herr])

theorem serve_write_cmd {s : State} (hb : busy s = false) (w : Word) :
    serve (.txn (.write 0x014#32 .w4 w)) s = { accept w s with resp := .writeOkay } :=
  serve_write_ok (memWrite_regAddr (r := .cmd) hb w rfl)

/-- Settles O30: the formula is the definition of IRQ, and each event is the rule of what it writes. -/
theorem irqFollowsStatusAndEnable : Obligations.IrqFollowsStatusAndEnable := by
  refine ⟨fun s => rfl, fun i s t hexec => ?_, fun v s hb => ?_, fun v s hdone herr => ?_, fun w s hb => ?_,
    fun s cut => irq_hardwareReset s⟩
  · rw [exec_next hexec, irq_complete]
  · rw [serve_write_ctrl hb, irq_withResp, irq_writeCtrl]
  · rw [serve_write_status, irq_withResp, irq_writeStatus_of_clear hdone herr]
  · rw [serve_write_cmd hb, irq_withResp, irq_accept]

end Sys2Proof.Machine
end

section
/-! SUPPORT. The three resets (70_reset_and_hazards.md R270 to R272): which bytes the abandonment of a command can
change, and what each reset leaves in the registers. -/

namespace Sys2Proof.Machine

/-! ### The bytes a hardware reset can change -/

/-- Only a legal word in flight has writes pending, and each covers elements 0 to N - 1 of one of its buffers. -/
theorem coversElems_of_mem_pendingWrites {s : State} {w : BufWrite} (hw : w ∈ pendingWrites s) :
    busy s = true ∧ ∃ i, decode s.build.blendAdd s.curCmd = .ok i ∧ coversElems i (pixelCount s) w := by
  unfold pendingWrites at hw
  split at hw
  next hbusy =>
    split at hw
    next => exact absurd hw List.not_mem_nil
    next i hdec =>
      split at hw
      next => exact absurd hw List.not_mem_nil
      next ws b x hrun =>
        obtain ⟨-, hcov⟩ := (runOf_ok hrun).1 w hw
        exact ⟨hbusy, i, hdec, hcov⟩
  next => exact absurd hw List.not_mem_nil

theorem pendingWrites_of_idle {s : State} (hidle : busy s = false) : pendingWrites s = [] := by
  refine List.eq_nil_iff_forall_not_mem.2 fun w hw => ?_
  obtain ⟨hbusy, -⟩ := coversElems_of_mem_pendingWrites hw
  exact Bool.false_ne_true (hidle.symm.trans hbusy)

theorem pendingWrites_of_illegal {s : State} (hillegal : ∀ i, decode s.build.blendAdd s.curCmd ≠ .ok i) :
    pendingWrites s = [] := by
  refine List.eq_nil_iff_forall_not_mem.2 fun w hw => ?_
  obtain ⟨-, i, hdec, -⟩ := coversElems_of_mem_pendingWrites hw
  exact hillegal i hdec

theorem hardwareReset_mem_of_no_writes {s : State} (h : pendingWrites s = []) : (hardwareReset s).mem = s.mem := by
  rw [hardwareReset_mem, h, List.map_nil, applyWrites]

/-- The bytes lost are among those that the abandoned command would have written (70_reset_and_hazards.md R272). -/
theorem byteAt_hardwareReset_frame {s : State} {a : Nat} (h : ∀ w ∈ pendingWrites s, ¬ w.touches a) :
    byteAt (hardwareReset s).mem a = byteAt s.mem a := by
  rw [hardwareReset_mem]
  refine byteAt_applyWrites_frame _ _ _ (List.forall_mem_map.2 fun w hw => ?_)
  rw [scrapWrite_touches]
  exact h w hw

/-- Settles O39: each clause is a fact about the pending writes, which are none while idle or for an illegal word, and
else stay inside the command's destinations. -/
theorem hardwareResetKeepsOtherBytes : Obligations.HardwareResetKeepsOtherBytes := by
  intro s cut
  refine ⟨busy_hardwareReset s, fun hidle => hardwareReset_mem_of_no_writes (pendingWrites_of_idle hidle),
    fun hillegal => hardwareReset_mem_of_no_writes (pendingWrites_of_illegal hillegal),
    fun i a hdec hout => byteAt_hardwareReset_frame fun w hw htouch => ?_⟩
  obtain ⟨-, j, hdec', hbuf, hlen⟩ := coversElems_of_mem_pendingWrites hw
  obtain rfl : i = j := Except.ok.inj (hdec.symm.trans hdec')
  exact hout w.buf hbuf ((coversElems.touches ⟨hbuf, hlen⟩ a).1 htouch)

/-! ### The registers after a reset -/

/-- Every variable register 0, the unit idle and IRQ deasserted (70_reset_and_hazards.md R271). -/
def RegistersAtReset (t : State) : Prop :=
  t.ctrl = 0#32 ∧ t.status = 0#32 ∧ t.x0Lo = 0#32 ∧ t.x0Hi = 0#32 ∧ t.rLo = 0#32 ∧ t.rHi = 0#32 ∧
    t.height = 0#32 ∧ t.width = 0#32 ∧ t.xlastLo = 0#32 ∧ t.xlastHi = 0#32 ∧ t.errinfo = 0#32 ∧
    busy t = false ∧ irq t = false

/-- The register part that the resets share; they differ in the buffers and in the model's own fields only. -/
theorem registersAtReset_resetRegisters (s : State) (m : Memory) (r : Response) (d : Nat) :
    RegistersAtReset { resetRegisters s with mem := m, resp := r, draws := d } :=
  ⟨rfl, rfl, rfl, rfl, rfl, rfl, rfl, rfl, rfl, rfl, rfl, busy_resetRegisters s, irq_resetRegisters s⟩

theorem registersAtReset_powerOn : RegistersAtReset State.reset :=
  registersAtReset_resetRegisters State.reset State.reset.mem State.reset.resp State.reset.draws

theorem registersAtReset_hardwareReset (s : State) : RegistersAtReset (hardwareReset s) :=
  registersAtReset_resetRegisters s _ _ _

theorem registersAtReset_softReset {s : State} {v : Word} (hbit : v.getLsbD 1 = true) (hidle : busy s = false) :
    RegistersAtReset (serve (.txn (.write 0x00C#32 .w4 v)) s) := by
  rw [serve_write_ctrl hidle, writeCtrl_of_softReset hbit]
  exact registersAtReset_resetRegisters s s.mem .writeOkay s.draws

/-- Settles O38: the three resets, one by one; the hardware reset never looks at the transaction it cuts. -/
theorem resetLeavesRegistersZero : Obligations.ResetLeavesRegistersZero := by
  refine ⟨?_, fun s cut => ⟨hardwareReset_build s, hardwareReset_host s, hardwareReset_resp s, rfl⟩, fun a => rfl⟩
  rintro s t (rfl | ⟨cut, rfl⟩ | ⟨v, hbit, hidle, rfl⟩)
  · exact registersAtReset_powerOn
  · exact registersAtReset_hardwareReset s
  · exact registersAtReset_softReset hbit hidle

/-! ### The invariant at reset -/

theorem memSound_nil (b : Build) : MemSound b [] := by simp [MemSound, Memory.wf]

/-- Settles O40: the unit is idle, STATUS is 0 and no byte is written yet. -/
theorem resetMeetsInvariant : Obligations.ResetMeetsInvariant :=
  have hbuild : State.reset.build.wf = true := by decide
  have hctrl : State.reset.ctrl &&& 0xFFFFFFFE#32 = 0#32 := by decide
  have hidle : busy State.reset = false := by decide
  .of_idle hbuild (memSound_nil _) hctrl (statusLegal_of_zero rfl) hidle

end Sys2Proof.Machine
end
